-- ==== Sys2Proof/Word.lean ====
section
/-! DEFINITION. The word types of the Pictograph bit engine and the names of its two buffers. -/

namespace Sys2Proof

/-- The addressable unit of both buffers (20_memory R51). -/
abbrev Byte := BitVec 8

/-- A register, an operand OFF or VAL, or response data (10_state R33, R34; 30_encoding R81). -/
abbrev Word32 := BitVec 32

/-- One command, the whole 96-bit word `cmd[95:0]` (30_encoding R80). -/
abbrev Command := BitVec 96

/-- The two address spaces, one per buffer (20_memory R50). -/
inductive Buf where
  | save
  | raster
deriving DecidableEq, Repr

end Sys2Proof
end

