-- ==== Sys2Proof/Syntax.lean ====
section
/-! DEFINITION. The commands: one constructor per row of spec/opcode_table.json, the used fields of the command as operands
(30_encoding R83). -/

namespace Sys2Proof

/-- A command whose OP is not reserved and whose unused fields are zero, with the fields it uses as they stand
(30_encoding R81, R83, R93). `buf` is the raw BUF field: `Instr.WellFormed` says which values are not reserved. -/
inductive Instr where
  /-- RDBITS, OP 0x10 (30_encoding R85, 40_bitio R112). -/
  | rdbits (buf : BitVec 8) (off : Word32) (w : BitVec 8)
  /-- WRBITS, OP 0x11 (30_encoding R86, 40_bitio R114). -/
  | wrbits (buf : BitVec 8) (off : Word32) (w : BitVec 8) (val : Word32)
  /-- EMBED, OP 0x20 (30_encoding R87, 41_embed R134). -/
  | embed (sel : BitVec 8)
  /-- CKFIX, OP 0x30 (30_encoding R88, 42_checksum R159). -/
  | ckfix (sel : BitVec 8)
  /-- CKFIXALL, OP 0x31 (30_encoding R89, 42_checksum R160). -/
  | ckfixall
deriving DecidableEq, Repr

end Sys2Proof
end

