-- ==== Sys2Proof/WellFormed.lean ====
section
/-! DEFINITION. Which terms of `Instr` some command word encodes: the one check beyond the field widths is that BUF is not
a reserved value (30_encoding R83, R91). Operand values outside an operand's legal set (W, SEL) are well-formed: they have
fault causes of their own (30_encoding R91). -/

namespace Sys2Proof

/-- BUF is 0 (SAVE) or 1 (RASTER); 2 to 255 are reserved (30_encoding R91). -/
def bufNotReserved (buf : BitVec 8) : Bool := decide (buf.toNat ≤ 1)

/-- `i` passes step 2 of 30_encoding R82. -/
def Instr.wellFormed : Instr → Bool
  | .rdbits buf _ _ => bufNotReserved buf
  | .wrbits buf _ _ _ => bufNotReserved buf
  | .embed _ => true
  | .ckfix _ => true
  | .ckfixall => true

/-- The check as a proposition. -/
abbrev Instr.WellFormed (i : Instr) : Prop := i.wellFormed = true

end Sys2Proof
end

