-- ==== Sys2Proof/Decode.lean ====
section
/-! DEFINITION. The decoder of 30_encoding R82, total on every 96-bit word and rejecting by name; the encoder from the same
field table (30_encoding R81, R83); the 12-byte host layout (30_encoding R94). -/

namespace Sys2Proof

/-- Why a word names no command. Each makes the engine fault with ILLEGAL_CMD (30_encoding R82, R90, R91). -/
inductive Reject where
  /-- OP is none of the five codes (R82 step 1, R90). -/
  | reservedOp
  /-- A field the command does not use is not zero (R82 step 2, R83). -/
  | unusedField
  /-- BUF is above 1 in RDBITS or WRBITS (R82 step 2, R91). -/
  | reservedBuf
  /-- Bytes of host memory that are not exactly one command of 12 bytes (R94, R97). -/
  | badLength
deriving DecidableEq, Repr

/-! The fields of the one format (30_encoding R81). -/

def Command.op (c : Command) : BitVec 8 := c.extractLsb' 88 8
def Command.buf (c : Command) : BitVec 8 := c.extractLsb' 80 8
def Command.sel (c : Command) : BitVec 8 := c.extractLsb' 72 8
def Command.w (c : Command) : BitVec 8 := c.extractLsb' 64 8
def Command.off (c : Command) : Word32 := c.extractLsb' 32 32
def Command.val (c : Command) : Word32 := c.extractLsb' 0 32

/-! The three words a command is printed in and a fault records (30_encoding R80, 10_state R32). -/

def Command.cw0 (c : Command) : Word32 := c.extractLsb' 64 32
def Command.cw1 (c : Command) : Word32 := c.extractLsb' 32 32
def Command.cw2 (c : Command) : Word32 := c.extractLsb' 0 32

/-! The opcode map (30_encoding R84). -/

abbrev opRdbits : BitVec 8 := 0x10
abbrev opWrbits : BitVec 8 := 0x11
abbrev opEmbed : BitVec 8 := 0x20
abbrev opCkfix : BitVec 8 := 0x30
abbrev opCkfixall : BitVec 8 := 0x31

/-- Steps 1 and 2 of 30_encoding R82, in that order. -/
def decode (c : Command) : Except Reject Instr :=
  if Command.op c = opRdbits then
    if Command.sel c ≠ 0 ∨ Command.val c ≠ 0 then .error .unusedField
    else if 1 < (Command.buf c).toNat then .error .reservedBuf
    else .ok (.rdbits (Command.buf c) (Command.off c) (Command.w c))
  else if Command.op c = opWrbits then
    if Command.sel c ≠ 0 then .error .unusedField
    else if 1 < (Command.buf c).toNat then .error .reservedBuf
    else .ok (.wrbits (Command.buf c) (Command.off c) (Command.w c) (Command.val c))
  else if Command.op c = opEmbed then
    if Command.buf c ≠ 0 ∨ Command.w c ≠ 0 ∨ Command.off c ≠ 0 ∨ Command.val c ≠ 0 then .error .unusedField
    else .ok (.embed (Command.sel c))
  else if Command.op c = opCkfix then
    if Command.buf c ≠ 0 ∨ Command.w c ≠ 0 ∨ Command.off c ≠ 0 ∨ Command.val c ≠ 0 then .error .unusedField
    else .ok (.ckfix (Command.sel c))
  else if Command.op c = opCkfixall then
    if Command.buf c ≠ 0 ∨ Command.sel c ≠ 0 ∨ Command.w c ≠ 0 ∨ Command.off c ≠ 0 ∨ Command.val c ≠ 0 then
      .error .unusedField
    else .ok .ckfixall
  else .error .reservedOp

/-- A command from its six fields, OP most significant (30_encoding R81). -/
def Command.ofFields (op buf sel w : BitVec 8) (off val : Word32) : Command :=
  op ++ buf ++ sel ++ w ++ off ++ val

/-- The command word of an instruction, unused fields zero (30_encoding R83, R85 to R89). -/
def encode : Instr → Command
  | .rdbits buf off w => Command.ofFields opRdbits buf 0 w off 0
  | .wrbits buf off w val => Command.ofFields opWrbits buf 0 w off val
  | .embed sel => Command.ofFields opEmbed 0 sel 0 0 0
  | .ckfix sel => Command.ofFields opCkfix 0 sel 0 0 0
  | .ckfixall => Command.ofFields opCkfixall 0 0 0 0 0

/-! 30_encoding R94: a command in a host's byte-addressed memory. -/

/-- The 12 bytes of a command, most significant first, so that byte 0 is OP. -/
def Command.toBytes (c : Command) : List Byte :=
  (List.range 12).map (fun k => c.extractLsb' (8 * (11 - k)) 8)

/-- The number a list of bytes spells, most significant byte first. -/
def bigEndianNat (bs : List Byte) : Nat := bs.foldl (fun acc b => acc * 256 + b.toNat) 0

/-- The command that exactly 12 bytes spell; no other length is a command (R94, R97). -/
def Command.ofBytes (bs : List Byte) : Option Command :=
  if bs.length = 12 then some (BitVec.ofNat 96 (bigEndianNat bs)) else none

/-- Decoding from a host's bytes, total on any bytes. -/
def decodeBytes (bs : List Byte) : Except Reject Instr :=
  match Command.ofBytes bs with
  | some c => decode c
  | none => .error .badLength

/-- A command given as the low `nbits` bits of `w`, numbered as spec/opcode_table.json numbers them: bit 0 is `cmd[0]`,
and the bits from `nbits` up are 0 (DEDUCED from the table's 96-bit masks: notes/assumptions/16.md). -/
def commandOfTable (nbits w : Nat) : Command := BitVec.ofNat 96 (w % 2 ^ nbits)

/-- The instruction the decoder reads from an opcode-table word. -/
def decodeTableWord (nbits w : Nat) : Option Instr :=
  match decode (commandOfTable nbits w) with
  | .ok i => some i
  | .error _ => none

end Sys2Proof
end

