-- ==== Sys2Proof/Config.lean ====
section
/-! DEFINITION. What an implementation fixes: the constants of 00_scope R7 to R12, the signature literal, the region
table of 42_checksum R150, the raster capacity, and the free values (00_scope R11, 10_state R37, R38; 70_reset R211). -/

namespace Sys2Proof

/-- SAVE_LEN, in bytes (00_scope R7). The source's literals are unaudited (U12, notes/assumptions/17.md). -/
abbrev Config.saveLen : Nat := 0x20000

/-- IMG_W, pixels per row (00_scope R8). -/
abbrev Config.imgW : Nat := 160

/-- IMG_H, rows (00_scope R8). -/
abbrev Config.imgH : Nat := 112

/-- BPP, bits per pixel (00_scope R8). -/
abbrev Config.bpp : Nat := 5

/-- IMG_PIXELS = IMG_W * IMG_H (00_scope R8). -/
abbrev Config.imgPixels : Nat := 17920

/-- The bytes an image occupies: IMG_BITS / 8 (00_scope R8). -/
abbrev Config.imgBytes : Nat := 11200

/-- SLOT_STRIDE, in bytes (00_scope R8). -/
abbrev Config.slotStride : Nat := 0x8000

/-- HDR_SKIP, in bytes (00_scope R8). -/
abbrev Config.hdrSkip : Nat := 0x10E0

/-- CK_OFF, the checksum field's offset from its region's start (00_scope R9, 42_checksum R151). -/
abbrev Config.ckOff : Nat := 0x100A

/-- SIG_OFF, the signature's offset from its region's start (00_scope R9, 42_checksum R152). -/
abbrev Config.sigOff : Nat := 0x24

/-- SIG_LEN, in bytes (00_scope R9). -/
abbrev Config.sigLen : Nat := 6

/-- W_MAX, the widest BitIO access in bits (00_scope R12). -/
abbrev Config.wMax : Nat := 32

/-- A value of the parameter SIG: a string of exactly SIG_LEN = 6 bytes (00_scope R10, 93 U10). Its defaults are the
default of SIG, the six characters `ZELDA3` in ASCII (92 D11, 93 G1). -/
structure Config.Signature where
  b0 : Byte := 0x5A
  b1 : Byte := 0x45
  b2 : Byte := 0x4C
  b3 : Byte := 0x44
  b4 : Byte := 0x41
  b5 : Byte := 0x33
deriving DecidableEq, Repr

/-- SIG[0] to SIG[5], in ascending address order (42_checksum R153). -/
def Config.Signature.bytes (g : Config.Signature) : List Byte := [g.b0, g.b1, g.b2, g.b3, g.b4, g.b5]

/-- The default of SIG (00_scope R10). The bytes are PRESUMED from general knowledge
(notes/assumptions/3.md). SIG itself is the field `sig` of the state, so that claims range over it
(notes/assumptions/19.md). -/
def Config.defaultSig : Config.Signature := {}

/-- A checksummed sub-range of SAVE: start and length in bytes (42_checksum R150). -/
structure SaveRegion where
  start : Nat
  len   : Nat
deriving DecidableEq, Repr

/-- The eight SaveRegions by region index (42_checksum R150). -/
def Config.region : Fin 8 → SaveRegion
  | 0 => ⟨0x00000, 0x2000⟩
  | 1 => ⟨0x02000, 0x2000⟩
  | 2 => ⟨0x04000, 0x2000⟩
  | 3 => ⟨0x06000, 0x2000⟩
  | 4 => ⟨0x08000, 0x4000⟩
  | 5 => ⟨0x0C000, 0x4000⟩
  | 6 => ⟨0x10000, 0x4000⟩
  | 7 => ⟨0x14000, 0x4000⟩

/-- The region indices in the order CKFIXALL visits them (42_checksum R160). -/
def Config.regionOrder : List (Fin 8) := [0, 1, 2, 3, 4, 5, 6, 7]

/-- RCAP, the capacity of the RASTER memory in bytes: OPEN in the spec (00_scope R11, 92 D7), so nothing is known of it
here (DESIGN CHOICE, safe: notes/assumptions/2.md). -/
opaque Config.rcap : Nat

/-- FREE VALUE. What a byte of a buffer holds at power-on and until it is written: arbitrary, the same on every read
(10_state R37, 70_reset R211; safe: notes/assumptions/1.md). -/
opaque Config.powerOnByte : Buf → Nat → Byte

/-- FREE VALUE. What a byte holds after the `n`-th reset that abandoned a command which may write it
(70_reset R211; safe: notes/assumptions/13.md). -/
opaque Config.abandonedByte : Nat → Buf → Nat → Byte

end Sys2Proof
end

