-- ==== Sys2Proof/Machine/State.lean ====
section
/-! DEFINITION. The machine's state as plain data, the reasons a step stops, and the state after reset (spec/10_state.md). -/

namespace Sys2Proof.Machine

/-- A buffer's contents: (address, byte) pairs, addresses strictly rising. An address not listed has never been written
(notes/assumptions/1.md). -/
abbrev Memory := List Host.Cell

/-- The canonical form: addresses strictly rising, so that equal contents are equal lists. An unlisted address has no byte
of its own, so no entry can equal it. -/
abbrev Memory.wf (m : Memory) : Prop := m.Pairwise (fun x y => x.1 < y.1)

/-- Every listed address is below `n`. -/
abbrev Memory.below (n : Nat) (m : Memory) : Prop := ∀ c ∈ m, c.1 < n

/-- The seven causes a command can raise (60_exceptions R181). -/
inductive Cause where
  | illegalCmd
  | badWidth
  | outOfRange
  | badSlot
  | badDims
  | rasterShort
  | badRegion
deriving DecidableEq, Repr

/-- The status half of a response (10_state R34). -/
inductive RespStatus where
  | ok
  | fault
deriving DecidableEq, Repr

/-- What the engine answers to one command (10_state R34). -/
structure Response where
  status : RespStatus
  data   : Word32
deriving DecidableEq, Repr

/-- What the host may do to the block (70_reset R222). Reads change nothing and are functions of the state instead. -/
inductive HostMove where
  /-- Write bytes of a buffer from a byte address on, through the host port (20_memory R68). -/
  | load (b : Buf) (addr : Nat) (bytes : List Byte)
  /-- Write a register by number (10_state R33). -/
  | writeReg (n : Nat) (v : Word32)
  /-- Present the commands of a run at the command port (70_reset R215). -/
  | submit (cs : List Command)
  /-- Assert the reset input between two commands (70_reset R210). -/
  | reset
  /-- Present a command and assert reset while it is in progress (70_reset R210, R211). -/
  | resetDuring (c : Command)
deriving DecidableEq, Repr

/-- The machine. The first fourteen fields are the spec's; `port` and `responses` are its two interfaces; `host` and
`freeCount` are the model's own, and `sig` carries the configuration (INVENTORY.md, State). -/
structure State where
  /-- SAVE (10_state R20). -/
  save   : Memory
  /-- The RASTER memory; RASTER is its first RLEN bytes (10_state R21). -/
  raster : Memory
  /-- STATUS[1:0]: bit 0 FAULTED, bit 1 BUSY (10_state R27). -/
  status : BitVec 2
  /-- FCAUSE (10_state R30). -/
  fcause : BitVec 8
  /-- FIDX (10_state R31). -/
  fidx   : Word32
  /-- FCMD0 (10_state R32). -/
  fcmd0  : Word32
  /-- FCMD1 (10_state R32). -/
  fcmd1  : Word32
  /-- FCMD2 (10_state R32). -/
  fcmd2  : Word32
  /-- RESULT (10_state R28). -/
  result : Word32
  /-- FIXLOG (10_state R29). -/
  fixlog : BitVec 8
  /-- CMDCNT (10_state R25, R26). -/
  cmdcnt : Word32
  /-- RLEN (10_state R22). -/
  rlen   : Word32
  /-- RW (10_state R23). -/
  rw     : Word32
  /-- RH (10_state R23). -/
  rh     : Word32
  /-- The command port: commands presented and not yet taken, in order (10_state R25, 30_encoding R80). -/
  port   : List Command
  /-- The response stream so far, oldest first (10_state R34). -/
  responses : List Response
  /-- The host's moves to come (notes/assumptions/4.md). -/
  host   : List HostMove
  /-- How many resets have abandoned a command; picks the free bytes of the next (notes/assumptions/13.md). -/
  freeCount : Nat
  /-- CONFIGURATION, not state: the parameter SIG (00_scope R10, 10_state R38). It stands here because a step has no other
  argument; no step changes it (DESIGN CHOICE: notes/assumptions/19.md). -/
  sig : Config.Signature
deriving DecidableEq, Repr

/-- Why a step stops the model. No instruction ends in one of these: the spec's own faults are next states. -/
inductive Fault where
  /-- Raised by `step` in FAULTED mode with a command presented and no host move left: "never taken, no response, no state
  change" (93 U15, 60_exceptions R186). Safe: the hardware does nothing here either. -/
  | stuckFaulted
  /-- Raised by `step` when no command is presented and no host move is left: the engine waits (70_reset R215). Safe. -/
  | idle
  /-- Raised by a host load outside the memory it names (20_memory R50, R68). Safe: the spec gives no such access. -/
  | noSuchAddress
deriving DecidableEq, Repr

/-- Why a step has no meaning. -/
inductive Refusal where
  /-- An instruction the model does not give a meaning to; raised by no arm of `exec` here. Safe. -/
  | notModelled (mnemonic : String)
deriving DecidableEq, Repr

/-- The machine right after power-on reset: every register 0, mode RUNNABLE, both buffers unspecified (10_state R37);
nothing presented, nothing answered, no host move given, no reset taken yet (DESIGN CHOICE: notes/assumptions/4.md, 9.md,
13.md); the parameter SIG at its default. -/
def State.reset : State :=
  { save := [], raster := [], status := 0, fcause := 0, fidx := 0, fcmd0 := 0, fcmd1 := 0, fcmd2 := 0, result := 0,
    fixlog := 0, cmdcnt := 0, rlen := 0, rw := 0, rh := 0, port := [], responses := [], host := [], freeCount := 0,
    sig := Config.defaultSig }

end Sys2Proof.Machine
end

