-- ==== Sys2Proof/Machine/Flags.lean ====
section
/-! DEFINITION. The bits of STATUS and the correction mask. The hardware has no condition codes (10_state R35); these are
the only flag computations of the spec. -/

namespace Sys2Proof.Machine

/-- STATUS[0], FAULTED (10_state R27). -/
def State.faulted (s : State) : Bool := s.status.getLsbD 0

/-- STATUS[1], BUSY (10_state R27). The engine sets and clears it inside one atomic command, so no step shows it
(93 U20, notes/assumptions/8.md). -/
def State.busy (s : State) : Bool := s.status.getLsbD 1

/-- `STATUS[0] <- 1`, as fault entry does (60_exceptions R184). -/
def State.setFaulted (s : State) : State := { s with status := s.status ||| 1#2 }

/-- The correction-mask bit of region `r`: `1 << r` when the region was corrected, else 0 (42_checksum R159, R165). -/
def correctionBit (r : Fin 8) (corrected : Bool) : BitVec 8 := if corrected then 1#8 <<< r.val else 0#8

/-- `FIXLOG <- FIXLOG | m` (10_state R29). -/
def State.orFixlog (s : State) (m : BitVec 8) : State := { s with fixlog := s.fixlog ||| m }

end Sys2Proof.Machine
end

