-- ==== Sys2Proof/Machine/Ops.lean ====
section
/-! DEFINITION. The named operations on memory and registers: byte, block, bit and field access (20_memory R52 to R55,
40_bitio R111, R113), completing a command (10_state R26, R28, R34), taking a fault (60_exceptions R184) and its only way
out, reset (60_exceptions R187, 70_reset R210). -/

namespace Sys2Proof.Machine

/-! ### One buffer's list of cells -/

/-- The byte listed at `a`; an unlisted address has none. -/
def Memory.lookup : Memory → Nat → Option Byte
  | [], _ => none
  | (k, v) :: m, a => if a < k then none else if a = k then some v else Memory.lookup m a

/-- The list with `v` at `a`, every other address as before. -/
def Memory.write : Memory → Nat → Byte → Memory
  | [], a, v => [(a, v)]
  | (k, x) :: m, a, v =>
    if a < k then (a, v) :: (k, x) :: m else if a = k then (a, v) :: m else (k, x) :: Memory.write m a v

/-- The cells of a block of bytes from address `a` on. -/
def Memory.cells : Nat → List Byte → Memory
  | _, [] => []
  | a, v :: vs => (a, v) :: Memory.cells (a + 1) vs

/-- The list with the bytes `vs` at `a`, `a + 1`, …, every other address as before. -/
def Memory.splice (m : Memory) (a : Nat) (vs : List Byte) : Memory :=
  m.takeWhile (fun c => decide (c.1 < a)) ++
    (Memory.cells a vs ++ m.dropWhile (fun c => decide (c.1 < a + vs.length)))

/-- The byte buffer `b` holds at `a` when its listed cells are `m`: a byte never written is the free power-on value
(10_state R37, 70_reset R211). -/
def Memory.read (b : Buf) (m : Memory) (a : Nat) : Byte := (Memory.lookup m a).getD (Config.powerOnByte b a)

/-- The list without its first cell if that cell's address is at most `a`. -/
def Memory.dropTo : Memory → Nat → Memory
  | [], _ => []
  | (k, v) :: m, a => if k ≤ a then m else (k, v) :: m

/-- The `n` bytes from address `a` on, in one pass over the list. -/
def Memory.scan (b : Buf) : Memory → Nat → Nat → List Byte
  | _, _, 0 => []
  | m, a, n + 1 => Memory.read b m a :: Memory.scan b (Memory.dropTo m a) (a + 1) n

/-- The `n` bytes `B[a]`, …, `B[a + n - 1]`. -/
def Memory.slice (b : Buf) (m : Memory) (a n : Nat) : List Byte :=
  Memory.scan b (m.dropWhile (fun c => decide (c.1 < a))) a n

/-! ### The two buffers of the state -/

/-- The cells of the buffer a name stands for. -/
def State.mem (s : State) : Buf → Memory
  | .save => s.save
  | .raster => s.raster

/-- The state with other cells in one buffer. -/
def State.setMem (s : State) (b : Buf) (m : Memory) : State :=
  match b with
  | .save => { s with save := m }
  | .raster => { s with raster := m }

/-- `len(B)` in bytes: SAVE_LEN for SAVE, RLEN for RASTER (00_scope R15). -/
def State.len (s : State) : Buf → Nat
  | .save => Config.saveLen
  | .raster => s.rlen.toNat

/-- `MemRead(B:a, 1)`, also written `B[a]` (00_scope R15). A read has no side effect (20_memory R60). -/
def State.readByte (s : State) (b : Buf) (a : Nat) : Byte := Memory.read b (s.mem b) a

/-- `MemWrite(B:a, 1, v)` (00_scope R15). -/
def State.writeByte (s : State) (b : Buf) (a : Nat) (v : Byte) : State := s.setMem b (Memory.write (s.mem b) a v)

/-- The `n` bytes of `b` from `a` on. -/
def State.readBytes (s : State) (b : Buf) (a n : Nat) : List Byte := Memory.slice b (s.mem b) a n

/-- The bytes `vs` written to `b` from `a` on. -/
def State.writeBytes (s : State) (b : Buf) (a : Nat) (vs : List Byte) : State :=
  s.setMem b (Memory.splice (s.mem b) a vs)

/-- `MemRead(SAVE:a, 2)`, big-endian (20_memory R55). -/
def State.readField16 (s : State) (a : Nat) : BitVec 16 := s.readByte .save a ++ s.readByte .save (a + 1)

/-- `MemWrite(SAVE:a, 2, v)`: `v[15:8]` at `a`, `v[7:0]` at `a + 1` (20_memory R55). -/
def State.writeField16 (s : State) (a : Nat) (v : BitVec 16) : State :=
  (s.writeByte .save a (v.extractLsb' 8 8)).writeByte .save (a + 1) (v.extractLsb' 0 8)

/-! ### Bits and fields -/

/-- The mask of bit address `p` in its byte: `1 << (7 - (p mod 8))` (20_memory R53). -/
def bitMask (p : Nat) : Byte := 1#8 <<< (7 - p % 8)

/-- GetBit (20_memory R52). -/
def State.getBit (s : State) (b : Buf) (p : Nat) : Bool := (s.readByte b (p / 8)).getLsbD (7 - p % 8)

/-- SetBit (20_memory R53). -/
def State.setBit (s : State) (b : Buf) (p : Nat) (v : Bool) : State :=
  s.writeByte b (p / 8) ((s.readByte b (p / 8) &&& ~~~(bitMask p)) ||| (if v then bitMask p else 0#8))

/-- BitRead: the sum of the field's bits, the first with weight `2^(w-1)` (40_bitio R111). -/
def State.bitRead (s : State) (b : Buf) (off w : Nat) : Nat :=
  ((List.range w).map (fun i => (s.getBit b (off + i)).toNat * 2 ^ (w - 1 - i))).sum

/-- BitWrite: bit `w-1-i` of `v` to bit address `off + i`, for `i` from 0 to `w-1` (40_bitio R113). -/
def State.bitWrite (s : State) (b : Buf) (off w : Nat) (v : Word32) : State :=
  (List.range w).foldl (fun t i => t.setBit b (off + i) (v.getLsbD (w - 1 - i))) s

/-! ### The end of a command -/

/-- `RESULT <- d`, `CMDCNT <- (CMDCNT + 1) mod 2^32`, `respond OK(d)` (10_state R26, R28, R34). -/
def State.complete (s : State) (d : Word32) : State :=
  { s with result := d, cmdcnt := s.cmdcnt + 1, responses := s.responses ++ [⟨.ok, d⟩] }

/-- The cause codes (60_exceptions R181). -/
def Cause.code : Cause → BitVec 8
  | .illegalCmd => 1
  | .badWidth => 2
  | .outOfRange => 3
  | .badSlot => 4
  | .badDims => 5
  | .rasterShort => 6
  | .badRegion => 7

/-- TAKING A FAULT: `raise cause` in the command `c` (60_exceptions R184). Nothing else changes; control goes nowhere. -/
def State.raise (s : State) (cause : Cause) (c : Command) : State :=
  { s.setFaulted with
    fcause := cause.code
    fidx := s.cmdcnt
    fcmd0 := Command.cw0 c
    fcmd1 := Command.cw1 c
    fcmd2 := Command.cw2 c
    responses := s.responses ++ [⟨.fault, cause.code.setWidth 32⟩] }

/-- THE WAY OUT OF A FAULT, reset: every register 0, the port emptied, no response, both buffers kept
(60_exceptions R187, 70_reset R210, R211). The responses already given stand (notes/assumptions/9.md), and SIG is configuration. -/
def State.applyReset (s : State) : State :=
  { State.reset with
    save := s.save, raster := s.raster, responses := s.responses, host := s.host, freeCount := s.freeCount,
    sig := s.sig }

end Sys2Proof.Machine
end

