-- ==== Sys2Proof/Machine/Operands.lean ====
section
/-! DEFINITION. The operand checks of the commands, each in the order of 60_exceptions R183: which cause a command raises
before its first read and write, or the operand it may go on with. -/

namespace Sys2Proof.Machine

/-- The buffer BUF selects: 0 SAVE, 1 RASTER, the rest reserved (30_encoding R81, R91). -/
def bufOf (buf : BitVec 8) : Option Buf :=
  if buf = 0 then some .save else if buf = 1 then some .raster else none

/-- The checks RDBITS and WRBITS share: BUF, then the width, then the range, the sum taken in unbounded integers
(40_bitio R115, R116; 60_exceptions R183). -/
def bitIOCheck (buf : BitVec 8) (off : Word32) (w : BitVec 8) (s : State) : Except Cause Buf :=
  match bufOf buf with
  | none => .error .illegalCmd
  | some b =>
    if w.toNat = 0 ∨ Config.wMax < w.toNat then .error .badWidth
    else if 8 * s.len b < off.toNat + w.toNat then .error .outOfRange
    else .ok b

/-- The checks of EMBED: slot, dimensions, length (41_embed R135; 60_exceptions R183). -/
def embedCheck (sel : BitVec 8) (s : State) : Except Cause Nat :=
  if sel.toNat ≠ 1 ∧ sel.toNat ≠ 2 then .error .badSlot
  else if s.rw.toNat ≠ Config.imgW ∨ s.rh.toNat ≠ Config.imgH then .error .badDims
  else if s.rlen.toNat < Config.imgPixels then .error .rasterShort
  else .ok sel.toNat

/-- The check of CKFIX: the region index (42_checksum R159). -/
def ckfixCheck (sel : BitVec 8) : Except Cause (Fin 8) :=
  if h : sel.toNat < 8 then .ok ⟨sel.toNat, h⟩ else .error .badRegion

end Sys2Proof.Machine
end

