-- ==== Sys2Proof/Machine/BitIO.lean ====
section
/-! DEFINITION. The BitIO commands RDBITS and WRBITS (spec/40_bitio.md). -/

namespace Sys2Proof.Machine

/-- RDBITS (40_bitio R112). -/
def execRdbits (buf : BitVec 8) (off : Word32) (w : BitVec 8) (s : State) : Host.Outcome State Fault Refusal :=
  match bitIOCheck buf off w s with
  | .error cause => .next (s.raise cause (encode (.rdbits buf off w)))
  | .ok b => .next (s.complete (BitVec.ofNat 32 (s.bitRead b off.toNat w.toNat)))

/-- WRBITS (40_bitio R114). -/
def execWrbits (buf : BitVec 8) (off : Word32) (w : BitVec 8) (val : Word32) (s : State) :
    Host.Outcome State Fault Refusal :=
  match bitIOCheck buf off w s with
  | .error cause => .next (s.raise cause (encode (.wrbits buf off w val)))
  | .ok b => .next ((s.bitWrite b off.toNat w.toNat val).complete 0)

end Sys2Proof.Machine
end

