-- ==== Sys2Proof/Machine/Checksum.lean ====
section
/-! DEFINITION. The ChecksumRepair commands CKFIX and CKFIXALL (spec/42_checksum.md). -/

namespace Sys2Proof.Machine

/-- The address of region `r`'s stored checksum field (42_checksum R151). -/
def fieldAddr (r : Fin 8) : Nat := (Config.region r).start + Config.ckOff

/-- The address of region `r`'s signature (42_checksum R152). -/
def sigAddr (r : Fin 8) : Nat := (Config.region r).start + Config.sigOff

/-- HasSig: all six bytes of the parameter SIG, exactly (42_checksum R153). -/
def State.hasSig (s : State) (r : Fin 8) : Bool := s.readBytes .save (sigAddr r) Config.sigLen == s.sig.bytes

/-- The bytes of a list added into a 16-bit accumulator that wraps (42_checksum R154, R163). -/
def sumBytes (bs : List Byte) : BitVec 16 := bs.foldl (fun acc x => acc + x.setWidth 16) 0#16

/-- Sum16: the region's bytes summed modulo 65536, then the two field bytes taken out (42_checksum R154). -/
def State.sum16 (s : State) (r : Fin 8) : BitVec 16 :=
  sumBytes (s.readBytes .save (Config.region r).start (Config.region r).len)
    - (s.readByte .save (fieldAddr r)).setWidth 16
    - (s.readByte .save (fieldAddr r + 1)).setWidth 16

/-- Stored: the stored checksum, big-endian (42_checksum R155). -/
def State.stored (s : State) (r : Fin 8) : BitVec 16 := s.readField16 (fieldAddr r)

/-- Whether RepairRegion corrects region `r`: it has the signature and its stored checksum is wrong
(42_checksum R156, R158). -/
def State.needsRepair (s : State) (r : Fin 8) : Bool := s.hasSig r && decide (s.stored r ≠ s.sum16 r)

/-- The state after RepairRegion (42_checksum R157, R158). -/
def State.repairRegion (s : State) (r : Fin 8) : State :=
  if s.needsRepair r then s.writeField16 (fieldAddr r) (s.sum16 r) else s

/-- RepairRegion over a list of regions in its order: the state after, and the mask of the regions corrected, begun at
`m` (42_checksum R160). -/
def State.repairAll (s : State) (m : BitVec 8) : List (Fin 8) → State × BitVec 8
  | [] => (s, m)
  | r :: rs => (s.repairRegion r).repairAll (m ||| correctionBit r (s.needsRepair r)) rs

/-- CKFIX (42_checksum R159). -/
def execCkfix (sel : BitVec 8) (s : State) : Host.Outcome State Fault Refusal :=
  match ckfixCheck sel with
  | .error cause => .next (s.raise cause (encode (.ckfix sel)))
  | .ok r =>
    .next (((s.repairRegion r).orFixlog (correctionBit r (s.needsRepair r))).complete
      ((correctionBit r (s.needsRepair r)).setWidth 32))

/-- CKFIXALL (42_checksum R160). -/
def execCkfixall (s : State) : Host.Outcome State Fault Refusal :=
  .next (((s.repairAll 0 Config.regionOrder).1.orFixlog (s.repairAll 0 Config.regionOrder).2).complete
    ((s.repairAll 0 Config.regionOrder).2.setWidth 32))

end Sys2Proof.Machine
end

