-- ==== Sys2Proof/Machine/Embed.lean ====
section
/-! DEFINITION. The ImageEmbedder command EMBED (spec/41_embed.md). The 17920 fields tile one byte-aligned range of SAVE with no
gap and no overlap (R136) and may be written in any order (R139), so EMBED writes them here as one block of bytes; that this
is the loop of R134 is the obligation EmbedIsThePixelLoop (notes/assumptions/10.md). -/

namespace Sys2Proof.Machine

/-- `Dst(s, i, j)`, the destination bit offset of pixel (i, j) in slot `slot` (41_embed R131). -/
def pixelDst (slot i j : Nat) : Nat :=
  slot * Config.slotStride * 8 + Config.hdrSkip * 8 + i * Config.imgW * Config.bpp + j * Config.bpp

/-- `Src(i, j)`, the source byte address of pixel (i, j) in a RASTER of `rlen` bytes (41_embed R132). -/
def pixelSrc (rlen i j : Nat) : Nat := rlen - (i + 1) * Config.imgW + j

/-- The value of a pixel: the low 5 bits of its source byte (41_embed R133). -/
def pixelValue (x : Byte) : Byte := x &&& 0x1F#8

/-- The five bits of a pixel field, most significant first (20_memory R54). -/
def pixelBits (x : Byte) : List Bool :=
  [(pixelValue x).getLsbD 4, (pixelValue x).getLsbD 3, (pixelValue x).getLsbD 2, (pixelValue x).getLsbD 1,
    (pixelValue x).getLsbD 0]

/-- The byte of eight bits, the first the most significant (20_memory R52). -/
def byteOfBits (b7 b6 b5 b4 b3 b2 b1 b0 : Bool) : Byte :=
  BitVec.ofBool b7 ++ BitVec.ofBool b6 ++ BitVec.ofBool b5 ++ BitVec.ofBool b4 ++ BitVec.ofBool b3 ++
    BitVec.ofBool b2 ++ BitVec.ofBool b1 ++ BitVec.ofBool b0

/-- A bit string packed into bytes, most significant bit first (20_memory R52). -/
def packBits : List Bool → List Byte
  | b7 :: b6 :: b5 :: b4 :: b3 :: b2 :: b1 :: b0 :: rest => byteOfBits b7 b6 b5 b4 b3 b2 b1 b0 :: packBits rest
  | _ => []

/-- The source bytes of destination row `i`, columns 0 to 159 (41_embed R132, R138). -/
def State.rasterRow (s : State) (i : Nat) : List Byte :=
  s.readBytes .raster (pixelSrc s.rlen.toNat i 0) Config.imgW

/-- The source bytes of the whole image, row 0 (the top) first (41_embed R130). -/
def State.imagePixels (s : State) : List Byte := (List.range Config.imgH).flatMap s.rasterRow

/-- The 11200 bytes of the embedded image (41_embed R131, R136). -/
def State.imageBytes (s : State) : List Byte := packBits (s.imagePixels.flatMap pixelBits)

/-- The first byte of slot `slot`'s image (41_embed R131, R136). -/
def imageBase (slot : Nat) : Nat := slot * Config.slotStride + Config.hdrSkip

/-- SAVE with the image in slot `slot` (41_embed R134). -/
def State.embedImage (s : State) (slot : Nat) : State := s.writeBytes .save (imageBase slot) s.imageBytes

/-- EMBED (41_embed R134). -/
def execEmbed (sel : BitVec 8) (s : State) : Host.Outcome State Fault Refusal :=
  match embedCheck sel s with
  | .error cause => .next (s.raise cause (encode (.embed sel)))
  | .ok slot => .next ((s.embedImage slot).complete 0)

end Sys2Proof.Machine
end

