-- ==== Sys2Proof/Machine/Dispatch.lean ====
section
/-! DEFINITION. The meaning of every command, one arm per constructor of `Instr`. -/

namespace Sys2Proof.Machine

def exec (i : Instr) (s : State) : Host.Outcome State Fault Refusal :=
  match i with
  | .rdbits buf off w => Sys2Proof.Machine.execRdbits buf off w s
  | .wrbits buf off w val => Sys2Proof.Machine.execWrbits buf off w val s
  | .embed sel => Sys2Proof.Machine.execEmbed sel s
  | .ckfix sel => Sys2Proof.Machine.execCkfix sel s
  | .ckfixall => Sys2Proof.Machine.execCkfixall s

end Sys2Proof.Machine
end

