-- ==== Sys2Proof/Machine/HostPort.lean ====
section
/-! DEFINITION. The host's side of the block: registers by number (10_state R33), buffer access through the host port
(20_memory R68), submitting a run and the reset input (70_reset R210, R211, R215, R222). -/

namespace Sys2Proof.Machine

/-- A host read of register number `n`: narrower registers zero-extended, 0 for a number above 11 (10_state R33). -/
def State.hostReadReg (s : State) (n : Nat) : Word32 :=
  match n with
  | 0 => s.status.setWidth 32
  | 1 => s.fcause.setWidth 32
  | 2 => s.fidx
  | 3 => s.fcmd0
  | 4 => s.fcmd1
  | 5 => s.fcmd2
  | 6 => s.result
  | 7 => s.fixlog.setWidth 32
  | 8 => s.cmdcnt
  | 9 => s.rlen
  | 10 => s.rw
  | 11 => s.rh
  | _ => 0

/-- A host write of register number `n`: RLEN takes a value up to RCAP, RW and RH any value, every other write is ignored
(10_state R22, R23, R33). -/
def State.hostWriteReg (s : State) (n : Nat) (v : Word32) : State :=
  match n with
  | 9 => if v.toNat ≤ Config.rcap then { s with rlen := v } else s
  | 10 => { s with rw := v }
  | 11 => { s with rh := v }
  | _ => s

/-- How many bytes of a buffer's memory the host port reaches: all of SAVE, RASTER up to its capacity (20_memory R68). -/
def hostLen : Buf → Nat
  | .save => Config.saveLen
  | .raster => Config.rcap

/-- The blocks of bytes (buffer, first address, length) that a command in progress may write: none for one that faults or
only reads (20_memory R58; 40_bitio R114, R121; 41_embed R136; 42_checksum R159, R160). -/
def mayWrite (i : Instr) (s : State) : List (Buf × Nat × Nat) :=
  match i with
  | .rdbits _ _ _ => []
  | .wrbits buf off w _ =>
    match bitIOCheck buf off w s with
    | .error _ => []
    | .ok b => [(b, off.toNat / 8, (off.toNat % 8 + w.toNat + 7) / 8)]
  | .embed sel =>
    match embedCheck sel s with
    | .error _ => []
    | .ok slot => [(.save, imageBase slot, Config.imgBytes)]
  | .ckfix sel =>
    match ckfixCheck sel with
    | .error _ => []
    | .ok r => [(.save, fieldAddr r, 2)]
  | .ckfixall => Config.regionOrder.map (fun r => (.save, fieldAddr r, 2))

/-- The blocks that command word `c` may write in state `s`: none in FAULTED mode, where it is not taken, and none for a
word that names no command (60_exceptions R185, R186). -/
def State.abandoned (s : State) (c : Command) : List (Buf × Nat × Nat) :=
  if s.faulted then []
  else match decode c with
    | .error _ => []
    | .ok i => mayWrite i s

/-- One block's bytes replaced by free values (70_reset R211, 93 U9). -/
def State.loseBlock (s : State) (blk : Buf × Nat × Nat) : State :=
  s.writeBytes blk.1 blk.2.1 ((List.range blk.2.2).map (fun k => Config.abandonedByte s.freeCount blk.1 (blk.2.1 + k)))

/-- A reset that strikes while `c` is in progress: the bytes `c` may write hold arbitrary values, all others are kept, no
response, and then the reset itself (70_reset R210, R211). -/
def State.resetDuring (s : State) (c : Command) : State :=
  { ((s.abandoned c).foldl State.loseBlock s).applyReset with freeCount := s.freeCount + 1 }

/-- One host move (70_reset R222). -/
def hostMove (m : HostMove) (s : State) : Host.Outcome State Fault Refusal :=
  match m with
  | .load b a bytes => if a + bytes.length ≤ hostLen b then .next (s.writeBytes b a bytes) else .fault .noSuchAddress
  | .writeReg n v => .next (s.hostWriteReg n v)
  | .submit cs => .next { s with port := s.port ++ cs }
  | .reset => .next s.applyReset
  | .resetDuring c => .next (s.resetDuring c)

end Sys2Proof.Machine
end

