-- ==== Sys2Proof/Machine/Engine.lean ====
section
/-! DEFINITION. The two agents' moves that `step` chooses between: the engine taking one command from the port
(20_memory R65, 30_encoding R82, 60_exceptions R186), and the host's next move. -/

namespace Sys2Proof.Machine

/-- The engine executes command word `c`: it decodes it, faults with ILLEGAL_CMD where it names no command, and else runs
it (30_encoding R82). -/
def runCommand (c : Command) (s : State) : Host.Outcome State Fault Refusal :=
  match decode c with
  | .error _ => .next (s.raise .illegalCmd c)
  | .ok i => exec i s

/-- The host's next move, if it has one. With none left the machine waits: for ever in FAULTED mode with a command
presented (60_exceptions R186, 93 U15), or for a run that does not come (70_reset R215). -/
def runHost (s : State) : Host.Outcome State Fault Refusal :=
  match s.host with
  | m :: ms => hostMove m { s with host := ms }
  | [] => if s.port.isEmpty then .fault .idle else .fault .stuckFaulted

/-- The next agent to move: the engine whenever it is RUNNABLE and a command is presented (10_state R36), else the host,
which so never moves inside a run (20_memory R68, 70_reset R216). -/
def runNext (s : State) : Host.Outcome State Fault Refusal :=
  match s.port with
  | c :: cs => if s.faulted then runHost s else runCommand c { s with port := cs }
  | [] => runHost s

/-- The state with `c` as the command the engine takes next. -/
def State.presenting (s : State) (c : Command) : State := { s with port := c :: s.port.tail }

end Sys2Proof.Machine
end

