-- ==== Sys2Proof/Machine/Step.lean ====
section
/-! DEFINITION. One step of the machine, and where a step takes its next command from. -/

namespace Sys2Proof.Machine

/-- One step: one command of the engine, or one host move (70_reset R220). -/
def step (s : State) : Host.Outcome State Fault Refusal := runNext s

/-- `s` with the table word `w` at the head of the command port, where `step` takes its next command
(notes/assumptions/5.md). -/
def State.withFetchWord (s : State) (nbits w : Nat) : State := s.presenting (commandOfTable nbits w)

end Sys2Proof.Machine
end

