-- ==== Sys2Proof/Machine/Assembler.lean ====
section
/-! DEFINITION. The assembler syntax and the pseudo-commands (30_encoding R95, R96): from one line of text to the commands
it stands for. The engine sees none of this. What the two rules leave open is refused (notes/assumptions/15.md). -/

namespace Sys2Proof.Machine

/-- One line of assembly: a command, or an abbreviation the assembler expands (30_encoding R95, R96). -/
inductive Asm where
  | command (i : Instr)
  /-- `RUN slot`. -/
  | run (slot : BitVec 8)
  /-- `RDBYTE buf, a`. -/
  | rdbyte (buf : BitVec 8) (a : Nat)
  /-- `WRBYTE buf, a, v`. -/
  | wrbyte (buf : BitVec 8) (a : Nat) (v : Word32)
  /-- `RDCK r`. -/
  | rdck (r : Fin 8)
deriving DecidableEq, Repr

/-- The RDBITS that `RDCK r` stands for: 16 bits at `8*(start_r + 0x100A)` of SAVE (30_encoding R96). -/
def rdckInstr (r : Fin 8) : Instr := .rdbits 0 (BitVec.ofNat 32 (8 * fieldAddr r)) 16

/-- The commands a line stands for (30_encoding R96); none where a byte address has no bit offset that fits OFF. -/
def Asm.expand : Asm → Option (List Instr)
  | .command i => some [i]
  | .run slot => some [.embed slot, .ckfixall]
  | .rdbyte buf a => if 8 * a < 2 ^ 32 then some [.rdbits buf (BitVec.ofNat 32 (8 * a)) 8] else none
  | .wrbyte buf a v => if 8 * a < 2 ^ 32 then some [.wrbits buf (BitVec.ofNat 32 (8 * a)) 8 v] else none
  | .rdck r => some [rdckInstr r]

/-! ### Text -/

/-- The value of a digit. -/
def digitValue (c : Char) : Option Nat :=
  let n := c.toNat
  if 48 ≤ n ∧ n ≤ 57 then some (n - 48)
  else if 65 ≤ n ∧ n ≤ 70 then some (n - 55)
  else if 97 ≤ n ∧ n ≤ 102 then some (n - 87)
  else none

/-- The digits of a number in a base, read on from `acc`. -/
def readDigits (base : Nat) : Nat → List Char → Option Nat
  | acc, [] => some acc
  | acc, c :: cs =>
    match digitValue c with
    | some d => if d < base then readDigits base (acc * base + d) cs else none
    | none => none

/-- A number in decimal, or with `0x` in hexadecimal (30_encoding R95). -/
def readNumber : List Char → Option Nat
  | [] => none
  | ['0', 'x'] => none
  | '0' :: 'x' :: cs => readDigits 16 0 cs
  | cs => readDigits 10 0 cs

/-- A number that fits an operand field of `n` bits. -/
def readField (n : Nat) (cs : List Char) : Option (BitVec n) :=
  match readNumber cs with
  | some v => if v < 2 ^ n then some (BitVec.ofNat n v) else none
  | none => none

/-- `SAVE` or `RASTER` (30_encoding R95). -/
def readBuf (cs : List Char) : Option (BitVec 8) :=
  if cs = ['S', 'A', 'V', 'E'] then some 0
  else if cs = ['R', 'A', 'S', 'T', 'E', 'R'] then some 1
  else none

/-- White space between the words of a line. -/
def isBlank (c : Char) : Bool := c = ' ' || c = '\t'

/-- A word without the blanks around it. -/
def trimBlanks (cs : List Char) : List Char := ((cs.dropWhile isBlank).reverse.dropWhile isBlank).reverse

/-- The operands of a line: what stands between the commas. -/
def splitCommas : List Char → List (List Char)
  | [] => [[]]
  | c :: cs =>
    if c = ',' then [] :: splitCommas cs
    else match splitCommas cs with
      | w :: ws => (c :: w) :: ws
      | [] => [[c]]

/-- One line by its mnemonic and operands (30_encoding R95, R96). -/
def readWords (mnemonic : List Char) (ops : List (List Char)) : Option Asm :=
  match mnemonic, ops with
  | ['R', 'D', 'B', 'I', 'T', 'S'], [b, o, w] => do
    return .command (.rdbits (← readBuf b) (← readField 32 o) (← readField 8 w))
  | ['W', 'R', 'B', 'I', 'T', 'S'], [b, o, w, v] => do
    return .command (.wrbits (← readBuf b) (← readField 32 o) (← readField 8 w) (← readField 32 v))
  | ['E', 'M', 'B', 'E', 'D'], [s] => do return .command (.embed (← readField 8 s))
  | ['C', 'K', 'F', 'I', 'X'], [r] => do return .command (.ckfix (← readField 8 r))
  | ['C', 'K', 'F', 'I', 'X', 'A', 'L', 'L'], [[]] => some (.command .ckfixall)
  | ['R', 'U', 'N'], [s] => do return .run (← readField 8 s)
  | ['R', 'D', 'B', 'Y', 'T', 'E'], [b, a] => do return .rdbyte (← readBuf b) (← readNumber a)
  | ['W', 'R', 'B', 'Y', 'T', 'E'], [b, a, v] => do return .wrbyte (← readBuf b) (← readNumber a) (← readField 32 v)
  | ['R', 'D', 'C', 'K'], [r] => do
    let n ← readNumber r
    if h : n < 8 then some (.rdck ⟨n, h⟩) else none
  | _, _ => none

/-- One line of text: `;` starts a comment, and a line of nothing else stands for no command (30_encoding R95). -/
def assembleLine (line : List Char) : Option (List Instr) :=
  let text := trimBlanks (line.takeWhile (fun c => c ≠ ';'))
  if text = [] then some []
  else do
    let asm ← readWords (text.takeWhile (fun c => !isBlank c))
      ((splitCommas (text.dropWhile (fun c => !isBlank c))).map trimBlanks)
    asm.expand

end Sys2Proof.Machine
end

