-- ==== Sys2Proof/Safety.lean ====
section
/-! DEFINITION. What claims about runs are made of: the launch premises of 70_reset R214, how a run ends (R215, R219), and
the invariant of the machine. -/

namespace Sys2Proof.Machine

/-- NoFault: FAULTED = 0 (70_reset R214). -/
abbrev State.NoFault (s : State) : Prop := s.faulted = false

/-- FreshReset: every register but RLEN, RW and RH at its reset value (70_reset R214). -/
def State.FreshReset (s : State) : Prop :=
  s.status = 0 ∧ s.fcause = 0 ∧ s.fidx = 0 ∧ s.fcmd0 = 0 ∧ s.fcmd1 = 0 ∧ s.fcmd2 = 0 ∧ s.result = 0 ∧ s.fixlog = 0 ∧
    s.cmdcnt = 0

/-- RasterOK: RW = 160, RH = 112, RLEN >= 17920 (70_reset R214). -/
def State.RasterOK (s : State) : Prop :=
  s.rw.toNat = Config.imgW ∧ s.rh.toNat = Config.imgH ∧ Config.imgPixels ≤ s.rlen.toNat

/-- SIG is the configured literal, at its default (70_reset R214, 00_scope R10). -/
def State.DefaultSig (s : State) : Prop := s.sig = Config.defaultSig

/-- The two buffers are in canonical form and inside their memories (20_memory R50, 10_state R21). -/
def State.BuffersOK (s : State) : Prop :=
  Memory.wf s.save ∧ Memory.below Config.saveLen s.save ∧ Memory.wf s.raster ∧ Memory.below Config.rcap s.raster ∧
    s.rlen.toNat ≤ Config.rcap

/-- The fault registers say what they mean: nothing while RUNNABLE, the one fault since reset while FAULTED
(10_state R26, R30 to R32; 60_exceptions R187). -/
def State.FaultRegsOK (s : State) : Prop :=
  if s.faulted then 1 ≤ s.fcause.toNat ∧ s.fcause.toNat ≤ 7 ∧ s.fidx = s.cmdcnt
  else s.fcause = 0 ∧ s.fidx = 0 ∧ s.fcmd0 = 0 ∧ s.fcmd1 = 0 ∧ s.fcmd2 = 0

/-- The invariant of the machine: canonical buffers inside their memories, RLEN at most RCAP, BUSY = 0 between commands,
meaningful fault registers. -/
def State.Inv (s : State) : Prop := s.BuffersOK ∧ s.busy = false ∧ s.FaultRegsOK

/-! A run is a list of commands submitted from a launch state, and how it ended is a relation between the launch state, the
list and the state at the end (70_reset R215): no state alone tells, for a reset leaves what a normal end leaves. -/

/-- `k` steps of the machine, ended by the first stop (70_reset R220). -/
def runSteps : Nat → State → Host.Outcome State Fault Refusal
  | 0, s => .next s
  | k + 1, s =>
    match step s with
    | .next t => runSteps k t
    | .fault f => .fault f
    | .refused r => .refused r

/-- The launch state `s` with the commands of a run presented (70_reset R215). -/
def State.launch (s : State) (cs : List Command) : State := { s with port := cs }

/-- The responses of commands that completed with the data `ds` (10_state R34). -/
def okResponses (ds : List Word32) : List Response := ds.map (fun d => ⟨.ok, d⟩)

/-- The run `cs` submitted from `s` ended NORMALLY in `t`: every response, that to its last command included, was OK
(70_reset R215 a). Only after this end may the host persist SAVE (R219). -/
def State.EndedNormally (s : State) (cs : List Command) (t : State) : Prop :=
  runSteps cs.length (s.launch cs) = .next t ∧ t.NoFault ∧ t.port = [] ∧
    t.cmdcnt = s.cmdcnt + BitVec.ofNat 32 cs.length ∧
    ∃ ds, ds.length = cs.length ∧ t.responses = s.responses ++ okResponses ds

/-- The run `cs` submitted from `s` ended BY FAULT in `t`: some `c_k` faulted, after `k` OK responses, and what follows it
was not executed (70_reset R215 b). -/
def State.EndedByFault (s : State) (cs : List Command) (t : State) : Prop :=
  ∃ k, k < cs.length ∧ runSteps (k + 1) (s.launch cs) = .next t ∧ t.faulted = true ∧
    t.port = cs.drop (k + 1) ∧ t.cmdcnt = s.cmdcnt + BitVec.ofNat 32 k ∧ t.fidx = s.cmdcnt + BitVec.ofNat 32 k ∧
    ∃ ds, ds.length = k ∧ t.responses = s.responses ++ okResponses ds ++ [⟨.fault, t.fcause.setWidth 32⟩]

/-! The parts of a frame: what a command leaves as it was. -/

/-- RLEN, RW and RH are as before (10_state R22, R23). -/
def State.LaunchKept (s t : State) : Prop := t.rlen = s.rlen ∧ t.rw = s.rw ∧ t.rh = s.rh

/-- STATUS and the five fault registers are as before. -/
def State.FaultRecordKept (s t : State) : Prop :=
  t.status = s.status ∧ t.fcause = s.fcause ∧ t.fidx = s.fidx ∧ t.fcmd0 = s.fcmd0 ∧ t.fcmd1 = s.fcmd1 ∧
    t.fcmd2 = s.fcmd2

/-- The port, the host's moves, the free-value counter and the parameter SIG are as before. -/
def State.QueuesKept (s t : State) : Prop :=
  t.port = s.port ∧ t.host = s.host ∧ t.freeCount = s.freeCount ∧ t.sig = s.sig

/-- Every byte of buffer `b` reads as before. -/
def State.BufferKept (s t : State) (b : Buf) : Prop := ∀ a, t.readByte b a = s.readByte b a

/-- A command went from `s` to `t` without fault and answered `d`: RESULT, CMDCNT and the response stream moved on, every
register but FIXLOG is otherwise as before (10_state R26, R28, R34). What happened to FIXLOG and the buffers is said
apart. -/
def State.CompletedWith (s t : State) (d : Word32) : Prop :=
  t.result = d ∧ t.cmdcnt = s.cmdcnt + 1 ∧ t.responses = s.responses ++ [⟨.ok, d⟩] ∧ s.FaultRecordKept t ∧
    s.LaunchKept t ∧ s.QueuesKept t

/-- Commands run one after the other, each on the state the one before left. -/
def execAll : List Instr → State → Host.Outcome State Fault Refusal
  | [], s => .next s
  | i :: is, s =>
    match exec i s with
    | .next t => execAll is t
    | .fault f => .fault f
    | .refused r => .refused r

/-- The loop of 41_embed R134 as it stands there: for each row and column one 5-bit BitWrite. -/
def State.pixelLoop (s : State) (slot : Nat) : State :=
  (List.range 112).foldl (fun t i =>
    (List.range 160).foldl (fun t j =>
      t.bitWrite .save (slot * 262144 + 34560 + 800 * i + 5 * j) 5
        ((t.readByte .raster (t.rlen.toNat - (i + 1) * 160 + j) &&& 0x1F#8).setWidth 32)) t) s

/-- The cause codes that a command word with opcode `op` can raise (60_exceptions R182). -/
def causesOf (op : BitVec 8) : List (BitVec 8) :=
  if op = 0x10 ∨ op = 0x11 then [1, 2, 3]
  else if op = 0x20 then [1, 4, 5, 6]
  else if op = 0x30 then [1, 7]
  else [1]

end Sys2Proof.Machine
end

