-- ==== Sys2Proof/Certificates/Slice0/Obligations.lean ====
section
/-! DEFINITION. The statements about the machine, one `Prop` each; OBLIGATIONS.json says of each what it formalises. -/

open Sys2Proof Sys2Proof.Machine

/-- After reset every register reads 0, the engine is RUNNABLE, RASTER is empty, and every byte of both buffers is
unspecified (R37). -/
def Obligations.ResetLeavesRegistersZeroBuffersFree : Prop :=
  (∀ n, State.reset.hostReadReg n = 0) ∧ State.reset.faulted = false ∧ State.reset.busy = false ∧
    State.reset.len .raster = 0 ∧ ∀ b a, State.reset.readByte b a = Config.powerOnByte b a

/-- The machine's invariant holds in State.reset (R37, R20, R21, R22, R30, R31, R32). -/
def Obligations.InvariantHoldsAtReset : Prop :=
  State.reset.Inv

/-- Every step, of the engine or of the host, keeps the machine's invariant (R20, R21, R22, R26, R27, R30, R31, R32,
R187). -/
def Obligations.EveryStepKeepsTheInvariant : Prop :=
  ∀ s t : State, s.Inv → step s = .next t → t.Inv

/-- Decoding the encoding of any well-formed instruction gives it back: from the word, the opcode table's number (its
numbering: log 16) and the host's 12 bytes (R81, R83, R85, R86, R87, R88, R89, R94). -/
def Obligations.DecodeOfEncode : Prop :=
  ∀ i : Instr, i.WellFormed →
    decode (encode i) = .ok i ∧ decodeTableWord 96 (encode i).toNat = some i ∧
      decodeBytes (Command.toBytes (encode i)) = .ok i

/-- A word that decodes is the encoding of the instruction it decodes to, and that instruction is well-formed (R82,
R83, R92). -/
def Obligations.EncodeOfDecode : Prop :=
  ∀ (c : Command) (i : Instr), decode c = .ok i → encode i = c ∧ i.WellFormed

/-- A word passes the decode steps as a command exactly when it matches that command's legal mask; a word that passes
for none faults with ILLEGAL_CMD (R98). -/
def Obligations.LegalMasksDecideDecoding : Prop :=
  ∀ c : Command,
    ((∃ buf off w, decode c = .ok (.rdbits buf off w)) ↔
      c &&& 0xFFFEFF0000000000FFFFFFFF#96 = 0x100000000000000000000000#96) ∧
    ((∃ buf off w val, decode c = .ok (.wrbits buf off w val)) ↔
      c &&& 0xFFFEFF000000000000000000#96 = 0x110000000000000000000000#96) ∧
    ((∃ sel, decode c = .ok (.embed sel)) ↔
      c &&& 0xFFFF00FFFFFFFFFFFFFFFFFF#96 = 0x200000000000000000000000#96) ∧
    ((∃ sel, decode c = .ok (.ckfix sel)) ↔
      c &&& 0xFFFF00FFFFFFFFFFFFFFFFFF#96 = 0x300000000000000000000000#96) ∧
    (decode c = .ok .ckfixall ↔
      c &&& 0xFFFFFFFFFFFFFFFFFFFFFFFF#96 = 0x310000000000000000000000#96) ∧
    (c &&& 0xFFFEFF0000000000FFFFFFFF#96 ≠ 0x100000000000000000000000#96 →
      c &&& 0xFFFEFF000000000000000000#96 ≠ 0x110000000000000000000000#96 →
      c &&& 0xFFFF00FFFFFFFFFFFFFFFFFF#96 ≠ 0x200000000000000000000000#96 →
      c &&& 0xFFFF00FFFFFFFFFFFFFFFFFF#96 ≠ 0x300000000000000000000000#96 →
      c &&& 0xFFFFFFFFFFFFFFFFFFFFFFFF#96 ≠ 0x310000000000000000000000#96 →
      ∀ s, runCommand c s = .next (s.raise .illegalCmd c))

/-- The operands of a decoded command are its fields as they stand (R81, R83, R93). -/
def Obligations.OperandsAreTheFieldsAsTheyStand : Prop :=
  ∀ c : Command,
    (∀ buf off w, decode c = .ok (.rdbits buf off w) →
      c.extractLsb' 88 8 = 0x10 ∧ c.extractLsb' 80 8 = buf ∧ c.extractLsb' 72 8 = 0 ∧ c.extractLsb' 64 8 = w ∧
        c.extractLsb' 32 32 = off ∧ c.extractLsb' 0 32 = 0) ∧
    (∀ buf off w val, decode c = .ok (.wrbits buf off w val) →
      c.extractLsb' 88 8 = 0x11 ∧ c.extractLsb' 80 8 = buf ∧ c.extractLsb' 72 8 = 0 ∧ c.extractLsb' 64 8 = w ∧
        c.extractLsb' 32 32 = off ∧ c.extractLsb' 0 32 = val) ∧
    (∀ sel, decode c = .ok (.embed sel) →
      c.extractLsb' 88 8 = 0x20 ∧ c.extractLsb' 80 8 = 0 ∧ c.extractLsb' 72 8 = sel ∧ c.extractLsb' 64 8 = 0 ∧
        c.extractLsb' 32 32 = 0 ∧ c.extractLsb' 0 32 = 0) ∧
    (∀ sel, decode c = .ok (.ckfix sel) →
      c.extractLsb' 88 8 = 0x30 ∧ c.extractLsb' 80 8 = 0 ∧ c.extractLsb' 72 8 = sel ∧ c.extractLsb' 64 8 = 0 ∧
        c.extractLsb' 32 32 = 0 ∧ c.extractLsb' 0 32 = 0) ∧
    (decode c = .ok .ckfixall → c = 0x310000000000000000000000#96)

/-- Words written out from the spec's encodings decode to the commands they stand for (R85, R86, R87, R88, R89). -/
def Obligations.HandWrittenWordsDecode : Prop :=
  decode 0x100000080000000400000000#96 = .ok (.rdbits 0 4 8) ∧
    decode 0x110000050000000600000015#96 = .ok (.wrbits 0 6 5 0x15) ∧
    decode 0x200001000000000000000000#96 = .ok (.embed 1) ∧
    decode 0x300007000000000000000000#96 = .ok (.ckfix 7) ∧
    decode 0x310000000000000000000000#96 = .ok .ckfixall

/-- A command in host memory is 12 bytes, most significant first, and only 12 bytes are a command (R94, R97). -/
def Obligations.HostBytesAreMostSignificantFirst : Prop :=
  (∀ c : Command,
    Command.toBytes c =
      [Command.op c, Command.buf c, Command.sel c, Command.w c,
        (Command.off c).extractLsb' 24 8, (Command.off c).extractLsb' 16 8, (Command.off c).extractLsb' 8 8,
        (Command.off c).extractLsb' 0 8,
        (Command.val c).extractLsb' 24 8, (Command.val c).extractLsb' 16 8, (Command.val c).extractLsb' 8 8,
        (Command.val c).extractLsb' 0 8] ∧
      Command.ofBytes (Command.toBytes c) = some c) ∧
    ∀ bs : List Byte, bs.length ≠ 12 → Command.ofBytes bs = none

/-- When the command at the head of the port decodes and the engine is RUNNABLE, a step takes it from the port and is
exec of it (R36, R65, R82). -/
def Obligations.StepRunsTheDecodedCommand : Prop :=
  ∀ (s : State) (c : Command) (cs : List Command) (i : Instr), s.port = c :: cs → s.faulted = false →
    decode c = .ok i → step s = exec i { s with port := cs }

/-- A presented word with a reserved OP, a non-zero unused field or a reserved BUF makes the step raise ILLEGAL_CMD
(R82, R83, R90, R91). -/
def Obligations.UndecodableWordsFault : Prop :=
  (∀ c : Command,
    (Command.op c ∉ [0x10#8, 0x11#8, 0x20#8, 0x30#8, 0x31#8] → decode c = .error .reservedOp) ∧
    ((Command.op c = 0x10#8 ∧ (Command.sel c ≠ 0 ∨ Command.val c ≠ 0)) ∨
      (Command.op c = 0x11#8 ∧ Command.sel c ≠ 0) ∨
      ((Command.op c = 0x20#8 ∨ Command.op c = 0x30#8) ∧
        (Command.buf c ≠ 0 ∨ Command.w c ≠ 0 ∨ Command.off c ≠ 0 ∨ Command.val c ≠ 0)) ∨
      (Command.op c = 0x31#8 ∧
        (Command.buf c ≠ 0 ∨ Command.sel c ≠ 0 ∨ Command.w c ≠ 0 ∨ Command.off c ≠ 0 ∨ Command.val c ≠ 0)) →
      decode c = .error .unusedField) ∧
    ((Command.op c = 0x10#8 ∧ Command.sel c = 0 ∧ Command.val c = 0) ∨ (Command.op c = 0x11#8 ∧ Command.sel c = 0) →
      1 < (Command.buf c).toNat → decode c = .error .reservedBuf)) ∧
  (∀ (s : State) (c : Command) (cs : List Command), s.port = c :: cs → s.faulted = false →
    (Command.op c ∉ [0x10#8, 0x11#8, 0x20#8, 0x30#8, 0x31#8] ∨
      (Command.op c = 0x10#8 ∧ (Command.sel c ≠ 0 ∨ Command.val c ≠ 0)) ∨
      (Command.op c = 0x11#8 ∧ Command.sel c ≠ 0) ∨
      ((Command.op c = 0x10#8 ∨ Command.op c = 0x11#8) ∧ 1 < (Command.buf c).toNat) ∨
      ((Command.op c = 0x20#8 ∨ Command.op c = 0x30#8) ∧
        (Command.buf c ≠ 0 ∨ Command.w c ≠ 0 ∨ Command.off c ≠ 0 ∨ Command.val c ≠ 0)) ∨
      (Command.op c = 0x31#8 ∧
        (Command.buf c ≠ 0 ∨ Command.sel c ≠ 0 ∨ Command.w c ≠ 0 ∨ Command.off c ≠ 0 ∨ Command.val c ≠ 0)) ∨
      ∃ e, decode c = .error e) →
    step s = .next (({ s with port := cs } : State).raise .illegalCmd c)) ∧
  decode 0x000000000000000000000000#96 = .error .reservedOp ∧
    decode 0xFFFFFFFFFFFFFFFFFFFFFFFF#96 = .error .reservedOp

/-- A step has no next state only where no agent can move: idle, stuck in FAULTED mode, a host load outside its memory
(the model's stops: log 6, 7, 11) (R36, R68, R186, R215). -/
def Obligations.StepStopsOnlyWhenNothingCanMove : Prop :=
  ∀ s : State, (∃ t, step s = .next t) ∨
    (s.host = [] ∧ s.port = [] ∧ step s = .fault .idle) ∨
    (s.host = [] ∧ s.port ≠ [] ∧ s.faulted = true ∧ step s = .fault .stuckFaulted) ∨
    (∃ b a bytes ms, s.host = .load b a bytes :: ms ∧ hostLen b < a + bytes.length ∧
      (s.port = [] ∨ s.faulted = true) ∧ step s = .fault .noSuchAddress)

/-- In FAULTED mode with commands presented and no host move left the step is stuck (U15; that it stops as
stuckFaulted is the model's choice of form, log 6) (93_implementation_defined.md U15). -/
def Obligations.FaultedEngineTakesNoCommand : Prop :=
  ∀ s : State, s.faulted = true → s.port ≠ [] → s.host = [] → step s = .fault .stuckFaulted

/-- In FAULTED mode every step but a reset keeps the mode, the fault record, RESULT, FIXLOG, CMDCNT and the response
stream (R36, R180, R186, R187). -/
def Obligations.OnlyResetLeavesFaultedMode : Prop :=
  ∀ s t : State, s.faulted = true → step s = .next t →
    (∃ ms, s.host = .reset :: ms) ∨ (∃ c ms, s.host = .resetDuring c :: ms) ∨
    (t.faulted = true ∧ s.FaultRecordKept t ∧ t.result = s.result ∧ t.fixlog = s.fixlog ∧ t.cmdcnt = s.cmdcnt ∧
      t.responses = s.responses ∧ ∃ cs, t.port = s.port ++ cs)

/-- While a command is presented to a RUNNABLE engine, the step is the engine's and the host does not move (R5, R68,
R216). -/
def Obligations.HostNeverMovesInsideARun : Prop :=
  ∀ (s : State) (c : Command) (cs : List Command), s.port = c :: cs → s.faulted = false →
    ∃ t, step s = .next t ∧ t.host = s.host ∧ t.port = cs ∧ s.LaunchKept t

/-- An admitted RDBITS completes: bit W-1-i of RESULT is the bit at bit address OFF+i, and nothing but RESULT, CMDCNT
and the response stream changes (R112, R111, R54, R28). -/
def Obligations.RdbitsReadsTheField : Prop :=
  ∀ (s : State) (buf : BitVec 8) (b : Buf) (off : Word32) (w : BitVec 8),
    (buf = 0 ∧ b = .save ∨ buf = 1 ∧ b = .raster) → 1 ≤ w.toNat → w.toNat ≤ 32 →
    off.toNat + w.toNat ≤ 8 * s.len b →
    ∃ t, exec (.rdbits buf off w) s = .next t ∧ s.CompletedWith t t.result ∧
      (∀ i, i < w.toNat → t.result.getLsbD (w.toNat - 1 - i) = s.getBit b (off.toNat + i)) ∧
      t.result.toNat < 2 ^ w.toNat ∧ t.fixlog = s.fixlog ∧ t.save = s.save ∧ t.raster = s.raster

/-- An admitted WRBITS puts bit W-1-i of VAL at bit address OFF+i; every other bit of both buffers and every register
but RESULT and CMDCNT is unchanged (R118). -/
def Obligations.WrbitsWritesTheFieldAlone : Prop :=
  (∀ (s : State) (buf : BitVec 8) (b : Buf) (off : Word32) (w : BitVec 8) (val : Word32),
    (buf = 0 ∧ b = .save ∨ buf = 1 ∧ b = .raster) → 1 ≤ w.toNat → w.toNat ≤ 32 →
    off.toNat + w.toNat ≤ 8 * s.len b →
    ∃ t, exec (.wrbits buf off w val) s = .next t ∧ s.CompletedWith t 0 ∧
      (∀ i, i < w.toNat → t.getBit b (off.toNat + i) = val.getLsbD (w.toNat - 1 - i)) ∧
      (∀ p, p < off.toNat ∨ off.toNat + w.toNat ≤ p → t.getBit b p = s.getBit b p) ∧
      (∀ a, a < off.toNat / 8 ∨ (off.toNat + w.toNat - 1) / 8 < a → t.readByte b a = s.readByte b a) ∧
      (∀ c, c ≠ b → t.mem c = s.mem c) ∧ t.fixlog = s.fixlog) ∧
  (∀ (s : State) (b : Buf) (off w : Nat) (v : Word32), 1 ≤ w → w ≤ 32 → off + w ≤ 8 * s.len b →
    ∀ p, p < off ∨ off + w ≤ p → (s.bitWrite b off w v).getBit b p = s.getBit b p)

/-- RDBITS and WRBITS with W = 0 or W > 32 raise BAD_WIDTH (R115). -/
def Obligations.BadWidthFaults : Prop :=
  ∀ (s : State) (buf : BitVec 8) (off : Word32) (w : BitVec 8) (val : Word32), (buf = 0 ∨ buf = 1) →
    (w.toNat = 0 ∨ 32 < w.toNat) →
    exec (.rdbits buf off w) s = .next (s.raise .badWidth (encode (.rdbits buf off w))) ∧
      exec (.wrbits buf off w val) s = .next (s.raise .badWidth (encode (.wrbits buf off w val)))

/-- RDBITS and WRBITS with a legal width and OFF + W past the buffer raise OUT_OF_RANGE; the last bit of SAVE is
reachable, an empty RASTER is not (R116). -/
def Obligations.OutOfRangeFaults : Prop :=
  (∀ (s : State) (buf : BitVec 8) (b : Buf) (off : Word32) (w : BitVec 8) (val : Word32),
    (buf = 0 ∧ b = .save ∨ buf = 1 ∧ b = .raster) → 1 ≤ w.toNat → w.toNat ≤ 32 →
    8 * s.len b < off.toNat + w.toNat →
    exec (.rdbits buf off w) s = .next (s.raise .outOfRange (encode (.rdbits buf off w))) ∧
      exec (.wrbits buf off w val) s = .next (s.raise .outOfRange (encode (.wrbits buf off w val))) ∧
      ∀ c cmd, (s.raise .outOfRange cmd).mem c = s.mem c) ∧
  (∀ s : State, s.len .save = 131072 ∧ s.len .raster = s.rlen.toNat) ∧
  (∀ (s : State) (off : Word32) (w : BitVec 8), 1 ≤ w.toNat → w.toNat ≤ 32 →
    (bitIOCheck 0 off w s = .ok .save ↔ off.toNat ≤ 1048576 - w.toNat) ∧
    (s.rlen = 0 → bitIOCheck 1 off w s = .error .outOfRange))

/-- A field read back after it was written holds the low W bits of the value, as functions and as commands (R117). -/
def Obligations.FieldRoundTrip : Prop :=
  (∀ (s : State) (b : Buf) (off w : Nat) (v : Word32), 1 ≤ w → w ≤ 32 → off + w ≤ 8 * s.len b →
    (s.bitWrite b off w v).bitRead b off w = v.toNat &&& (2 ^ w - 1)) ∧
  (∀ (s : State) (buf : BitVec 8) (b : Buf) (off : Word32) (w : BitVec 8) (val : Word32),
    (buf = 0 ∧ b = .save ∨ buf = 1 ∧ b = .raster) → 1 ≤ w.toNat → w.toNat ≤ 32 →
    off.toNat + w.toNat ≤ 8 * s.len b →
    ∃ t u, exec (.wrbits buf off w val) s = .next t ∧ exec (.rdbits buf off w) t = .next u ∧
      u.result.toNat = val.toNat &&& (2 ^ w.toNat - 1) ∧
      u.responses = s.responses ++ [⟨.ok, 0⟩, ⟨.ok, u.result⟩])

/-- Writes of disjoint fields commute and keep each other's value, even in one byte; where fields intersect the later
write wins (R119). -/
def Obligations.FieldWritesCommute : Prop :=
  ∀ (s : State) (b : Buf) (off₁ w₁ off₂ w₂ : Nat) (v₁ v₂ : Word32), 1 ≤ w₁ → w₁ ≤ 32 → 1 ≤ w₂ → w₂ ≤ 32 →
    off₁ + w₁ ≤ 8 * s.len b → off₂ + w₂ ≤ 8 * s.len b →
    (off₁ + w₁ ≤ off₂ ∨ off₂ + w₂ ≤ off₁ →
      (s.bitWrite b off₁ w₁ v₁).bitWrite b off₂ w₂ v₂ = (s.bitWrite b off₂ w₂ v₂).bitWrite b off₁ w₁ v₁ ∧
      ((s.bitWrite b off₁ w₁ v₁).bitWrite b off₂ w₂ v₂).bitRead b off₁ w₁ = v₁.toNat &&& (2 ^ w₁ - 1) ∧
      ((s.bitWrite b off₁ w₁ v₁).bitWrite b off₂ w₂ v₂).bitRead b off₂ w₂ = v₂.toNat &&& (2 ^ w₂ - 1)) ∧
    ∀ p, ((s.bitWrite b off₁ w₁ v₁).bitWrite b off₂ w₂ v₂).getBit b p =
      if off₂ ≤ p ∧ p < off₂ + w₂ then v₂.getLsbD (w₂ - 1 - (p - off₂))
      else if off₁ ≤ p ∧ p < off₁ + w₁ then v₁.getLsbD (w₁ - 1 - (p - off₁))
      else s.getBit b p

/-- BitRead and BitWrite equal their closed forms on the touched bytes taken as one big-endian number (R121). -/
def Obligations.BitAccessClosedForm : Prop :=
  ∀ (s : State) (b : Buf) (off w : Nat) (v : Word32), 1 ≤ w → w ≤ 32 → off + w ≤ 8 * s.len b →
    let a := off / 8
    let k := off % 8
    let n := (k + w + 7) / 8
    let m := 2 ^ w - 1
    let sh := 8 * n - k - w
    let x := bigEndianNat (s.readBytes b a n)
    1 ≤ n ∧ n ≤ 5 ∧ s.bitRead b off w = (x >>> sh) &&& m ∧
      bigEndianNat ((s.bitWrite b off w v).readBytes b a n) =
        (x &&& ((2 ^ (8 * n) - 1) ^^^ (m <<< sh))) ||| ((v.toNat &&& m) <<< sh) ∧
      ∀ y, y < a ∨ a + n ≤ y → (s.bitWrite b off w v).readByte b y = s.readByte b y

/-- The 16-bit field is big-endian: written high byte first, read as 256 * B[a] + B[a+1], and a 16-bit BitIO access at
8*a sees the same number (R55). -/
def Obligations.SixteenBitFieldIsBigEndian : Prop :=
  (∀ (s : State) (a : Nat) (v : BitVec 16),
    (s.writeField16 a v).readByte .save a = v.extractLsb' 8 8 ∧
      (s.writeField16 a v).readByte .save (a + 1) = v.extractLsb' 0 8 ∧
      (∀ x, x ≠ a → x ≠ a + 1 → (s.writeField16 a v).readByte .save x = s.readByte .save x)) ∧
  (∀ (s : State) (a : Nat),
    (s.readField16 a).toNat = (s.readByte .save a).toNat * 256 + (s.readByte .save (a + 1)).toNat ∧
      s.bitRead .save (8 * a) 16 = (s.readField16 a).toNat) ∧
  (∀ (s : State) (a : Nat), a + 2 ≤ 131072 →
    ∃ t, exec (.rdbits 0 (BitVec.ofNat 32 (8 * a)) 16) s = .next t ∧ t.result = (s.readField16 a).setWidth 32)

/-- EMBED checks slot, then dimensions, then length, before it reads or writes anything (R135). -/
def Obligations.EmbedChecksInOrder : Prop :=
  ∀ (s : State) (sel : BitVec 8),
    (if sel.toNat ≠ 1 ∧ sel.toNat ≠ 2 then exec (.embed sel) s = .next (s.raise .badSlot (encode (.embed sel)))
    else if s.rw.toNat ≠ 160 ∨ s.rh.toNat ≠ 112 then
      exec (.embed sel) s = .next (s.raise .badDims (encode (.embed sel)))
    else if s.rlen.toNat < 17920 then exec (.embed sel) s = .next (s.raise .rasterShort (encode (.embed sel)))
    else ∃ t, exec (.embed sel) s = .next t ∧ s.CompletedWith t 0) ∧
    ∀ cause cmd c, (s.raise cause cmd).mem c = s.mem c

/-- EMBED with a good raster completes: each of the 17920 pixel fields holds the low 5 bits of its source byte, every
byte outside the image is unchanged (R134, R130, R131, R132, R133, R136, R138). -/
def Obligations.EmbedStoresEveryPixel : Prop :=
  ∀ (s : State) (sel : BitVec 8), (sel.toNat = 1 ∨ sel.toNat = 2) → s.RasterOK →
    ∃ t, exec (.embed sel) s = .next t ∧ s.CompletedWith t 0 ∧ t.fixlog = s.fixlog ∧ t.raster = s.raster ∧
      (∀ i j, i < 112 → j < 160 →
        t.bitRead .save (sel.toNat * 262144 + 34560 + 800 * i + 5 * j) 5 =
          (s.readByte .raster (s.rlen.toNat - (i + 1) * 160 + j)).toNat % 32) ∧
      (∀ a, a < sel.toNat * 0x8000 + 0x10E0 ∨ sel.toNat * 0x8000 + 0x10E0 + 11200 ≤ a →
        t.readByte .save a = s.readByte .save a)

/-- EMBED's block write (log 10) is the spec's loop of 17920 single-pixel BitWrites (R134, R120, R136, R139). -/
def Obligations.EmbedIsThePixelLoop : Prop :=
  ∀ (s : State) (sel : BitVec 8), (sel.toNat = 1 ∨ sel.toNat = 2) → s.RasterOK → Memory.wf s.save →
    exec (.embed sel) s = .next ((s.pixelLoop sel.toNat).complete 0)

/-- A second EMBED of the same slot and raster changes no byte and still counts (R139). -/
def Obligations.EmbedTwiceIsEmbedOnce : Prop :=
  ∀ (s : State) (sel : BitVec 8), (sel.toNat = 1 ∨ sel.toNat = 2) → s.RasterOK →
    ∃ t u, exec (.embed sel) s = .next t ∧ exec (.embed sel) t = .next u ∧ t.BufferKept u .save ∧
      t.BufferKept u .raster ∧ u.cmdcnt = s.cmdcnt + 2

/-- The image of slot 1 lies in region 4, that of slot 2 in region 6, clear of every signature and checksum field, so
EMBED changes none of them (R62, R140, R61). -/
def Obligations.EmbedLeavesSignaturesAndFieldsAlone : Prop :=
  (∀ slot : Nat, (slot = 1 ∨ slot = 2) → ∃ r : Fin 8, r.val = 2 + 2 * slot ∧ (Config.region r).start ≤ imageBase slot ∧
    imageBase slot + 11200 ≤ (Config.region r).start + (Config.region r).len) ∧
  (∀ (s t : State) (sel : BitVec 8), exec (.embed sel) s = .next t →
    ∀ r : Fin 8, t.hasSig r = s.hasSig r ∧ t.stored r = s.stored r ∧
      (r.val ≠ 2 + 2 * sel.toNat → t.sum16 r = s.sum16 r))

/-- What EMBED writes does not depend on the raster bytes before the last 17920, nor on anything else but SAVE and
RLEN, RW, RH (R69, R132). -/
def Obligations.EmbedReadsOnlyThePixelArray : Prop :=
  ∀ (s s' t t' : State) (sel : BitVec 8), s.LaunchKept s' → s.BufferKept s' .save →
    (∀ a, s.rlen.toNat - 17920 ≤ a → a < s.rlen.toNat → s'.readByte .raster a = s.readByte .raster a) →
    exec (.embed sel) s = .next t → exec (.embed sel) s' = .next t' → t.BufferKept t' .save

/-- The eight regions are disjoint and contiguous from 0 to 0x17FFF, each holding its signature and its checksum field
(R150, R151, R152, R61, R63). -/
def Obligations.RegionsTileTheirPartOfSave : Prop :=
  (Config.region 0).start = 0 ∧
    (∀ r q : Fin 8, q.val = r.val + 1 → (Config.region q).start = (Config.region r).start + (Config.region r).len) ∧
    (Config.region 7).start + (Config.region 7).len = 0x18000 ∧
    (∀ r : Fin 8, (Config.region r).len = if r.val < 4 then 0x2000 else 0x4000) ∧
    (∀ r : Fin 8, fieldAddr r = (Config.region r).start + 0x100A ∧ sigAddr r = (Config.region r).start + 0x24)

/-- Sum16 is the sum modulo 65536 of the region's bytes other than the two field bytes, so it does not depend on the
field (R154, R163). -/
def Obligations.ComputedSumLeavesOutTheField : Prop :=
  (∀ (s : State) (r : Fin 8),
    (s.sum16 r).toNat =
      (((List.range (Config.region r).len).filter (fun k => k ≠ 0x100A ∧ k ≠ 0x100B)).map
        (fun k => (s.readByte .save ((Config.region r).start + k)).toNat)).sum % 65536) ∧
  (∀ (s t : State) (r : Fin 8),
    (∀ k, k < (Config.region r).len → k ≠ 0x100A → k ≠ 0x100B →
      t.readByte .save ((Config.region r).start + k) = s.readByte .save ((Config.region r).start + k)) →
    t.sum16 r = s.sum16 r)

/-- CKFIX of region 0 to 7 completes: a signed region with a wrong field gets the big-endian sum and its mask bit, any
other region is left alone (R159, R158, R157, R156, R165, R29, R188). -/
def Obligations.CkfixRepairsItsRegion : Prop :=
  ∀ (s : State) (sel : BitVec 8) (r : Fin 8), sel.toNat = r.val →
    ∃ t, exec (.ckfix sel) s = .next t ∧ t.raster = s.raster ∧
      if s.hasSig r = true ∧ s.stored r ≠ s.sum16 r then
        s.CompletedWith t (1#32 <<< r.val) ∧ t.fixlog = s.fixlog ||| (1#8 <<< r.val) ∧
          t.readByte .save (fieldAddr r) = (s.sum16 r).extractLsb' 8 8 ∧
          t.readByte .save (fieldAddr r + 1) = (s.sum16 r).extractLsb' 0 8 ∧
          (∀ a, a ≠ fieldAddr r → a ≠ fieldAddr r + 1 → t.readByte .save a = s.readByte .save a)
      else s.CompletedWith t 0 ∧ t.fixlog = s.fixlog ∧ t.save = s.save

/-- CKFIX with SEL of 8 or more raises BAD_REGION (R159, R91, R181). -/
def Obligations.CkfixOfNoRegionFaults : Prop :=
  ∀ (s : State) (sel : BitVec 8), 8 ≤ sel.toNat →
    exec (.ckfix sel) s = .next (s.raise .badRegion (encode (.ckfix sel)))

/-- CKFIXALL completes from every state: it repairs each signed region whose field is wrong, touches no other byte,
and its mask names exactly those regions (R160, R158, R161, R165, R29). -/
def Obligations.CkfixallRepairsEveryRegion : Prop :=
  ∀ s : State, ∃ t, exec .ckfixall s = .next t ∧ s.CompletedWith t t.result ∧ t.raster = s.raster ∧
    (∀ r : Fin 8, t.result.getLsbD r.val = true ↔ (s.hasSig r = true ∧ s.stored r ≠ s.sum16 r)) ∧
    t.result.toNat < 256 ∧ t.fixlog = s.fixlog ||| t.result.setWidth 8 ∧
    (∀ r : Fin 8, s.hasSig r = true → s.stored r ≠ s.sum16 r →
      t.readByte .save (fieldAddr r) = (s.sum16 r).extractLsb' 8 8 ∧
        t.readByte .save (fieldAddr r + 1) = (s.sum16 r).extractLsb' 0 8) ∧
    (∀ a, (∀ r : Fin 8, s.hasSig r = true → s.stored r ≠ s.sum16 r → a ≠ fieldAddr r ∧ a ≠ fieldAddr r + 1) →
      t.readByte .save a = s.readByte .save a)

/-- CKFIXALL equals CKFIX 0 to CKFIX 7 in SAVE and FIXLOG, and its mask is the OR of their masks (R160, R165). -/
def Obligations.CkfixallIsEightCkfix : Prop :=
  ∀ s : State, ∃ (t u : State) (ds : List Word32), exec .ckfixall s = .next t ∧
    execAll [.ckfix 0, .ckfix 1, .ckfix 2, .ckfix 3, .ckfix 4, .ckfix 5, .ckfix 6, .ckfix 7] s = .next u ∧
    t.save = u.save ∧ t.fixlog = u.fixlog ∧ ds.length = 8 ∧
    u.responses = s.responses ++ ds.map (fun d => ⟨.ok, d⟩) ∧ ds.foldl (fun m d => m ||| d) 0#32 = t.result ∧
    u.cmdcnt = s.cmdcnt + 8 ∧ t.cmdcnt = s.cmdcnt + 1

/-- A repair reads and writes only its own region, so the eight repairs of CKFIXALL give the same SAVE and mask in any
order (R161). -/
def Obligations.RepairsAreIndependent : Prop :=
  (∀ (s t : State) (r : Fin 8), t.sig = s.sig →
    (∀ a, (Config.region r).start ≤ a → a < (Config.region r).start + (Config.region r).len →
      t.readByte .save a = s.readByte .save a) →
    t.needsRepair r = s.needsRepair r ∧ t.sum16 r = s.sum16 r) ∧
  (∀ (s : State) (r : Fin 8) (a : Nat),
    a < (Config.region r).start ∨ (Config.region r).start + (Config.region r).len ≤ a →
    (s.repairRegion r).readByte .save a = s.readByte .save a) ∧
  (∀ (s : State) (r q : Fin 8), q ≠ r →
    (s.repairRegion r).hasSig q = s.hasSig q ∧ (s.repairRegion r).stored q = s.stored q ∧
      (s.repairRegion r).sum16 q = s.sum16 q) ∧
  (∀ (s : State) (order : List (Fin 8)), order.Perm [0, 1, 2, 3, 4, 5, 6, 7] →
    s.repairAll 0 order = s.repairAll 0 [0, 1, 2, 3, 4, 5, 6, 7])

/-- After RepairRegion a region has no signature or a right field; the repair changes neither its sum nor its
signature, and a second repair writes nothing (R162). -/
def Obligations.RepairIsIdempotent : Prop :=
  ∀ (s : State) (r : Fin 8),
    ((s.repairRegion r).hasSig r = false ∨ (s.repairRegion r).stored r = (s.repairRegion r).sum16 r) ∧
      (s.repairRegion r).sum16 r = s.sum16 r ∧ (s.repairRegion r).hasSig r = s.hasSig r ∧
      (s.repairRegion r).needsRepair r = false ∧ (s.repairRegion r).repairRegion r = s.repairRegion r

/-- After CKFIXALL every signed region's stored checksum is right, and a second CKFIXALL answers OK(0) and changes no
byte (R160, R162). -/
def Obligations.CkfixallTwiceFindsNothing : Prop :=
  ∀ s : State, ∃ t u, exec .ckfixall s = .next t ∧ (∀ r, t.hasSig r = true → t.stored r = t.sum16 r) ∧
    exec .ckfixall t = .next u ∧ t.CompletedWith u 0 ∧ u.save = t.save ∧ u.fixlog = t.fixlog

/-- A region without the signature is left entirely untouched by every CKFIX and by CKFIXALL, and its mask bit stays 0
(R164, R153, R188). -/
def Obligations.UnsignedRegionIsUntouched : Prop :=
  ∀ (s t : State) (i : Instr) (r : Fin 8), (i = .ckfixall ∨ ∃ sel, i = .ckfix sel) →
    (∃ k, k < 6 ∧ s.readByte .save ((Config.region r).start + 0x24 + k) ≠ s.sig.bytes.getD k 0) →
    exec i s = .next t →
    (∀ a, (Config.region r).start ≤ a → a < (Config.region r).start + (Config.region r).len →
      t.readByte .save a = s.readByte .save a) ∧
    (s.faulted = false → t.faulted = false → t.result.getLsbD r.val = false)

/-- EMBED, CKFIX and CKFIXALL never write SAVE from 0x18000 on, nor any byte of RASTER (R63, R50, R134, R159, R160).
-/
def Obligations.TailOfSaveIsUntouched : Prop :=
  ∀ (s t : State) (i : Instr), (i = .ckfixall ∨ (∃ sel, i = .ckfix sel) ∨ ∃ sel, i = .embed sel) →
    exec i s = .next t → t.raster = s.raster ∧ ∀ a, 0x18000 ≤ a → t.readByte .save a = s.readByte .save a

/-- The pseudo-command RDCK r reads the stored checksum of region r as a number (R96, R55). -/
def Obligations.RdckReturnsTheStoredChecksum : Prop :=
  ∀ (s : State) (r : Fin 8), ∃ i t, (Asm.rdck r).expand = some [i] ∧
    i = .rdbits 0 (BitVec.ofNat 32 (8 * ((Config.region r).start + 0x100A))) 16 ∧ exec i s = .next t ∧
    s.CompletedWith t ((s.stored r).setWidth 32) ∧ t.save = s.save

/-- Fault entry sets FCAUSE, FIDX, FCMD0 to FCMD2 and FAULTED and answers FAULT(code), and changes nothing else
(R184). -/
def Obligations.FaultEntryWritesItsRegistersAlone : Prop :=
  (∀ (s : State) (cause : Cause) (c : Command),
    (s.raise cause c).fcause = cause.code ∧ (s.raise cause c).fidx = s.cmdcnt ∧
      (s.raise cause c).fcmd0 = c.extractLsb' 64 32 ∧ (s.raise cause c).fcmd1 = c.extractLsb' 32 32 ∧
      (s.raise cause c).fcmd2 = c.extractLsb' 0 32 ∧
      (s.raise cause c).faulted = true ∧ (s.raise cause c).busy = s.busy ∧
      (s.raise cause c).responses = s.responses ++ [⟨.fault, cause.code.setWidth 32⟩] ∧
      (s.raise cause c).save = s.save ∧ (s.raise cause c).raster = s.raster ∧ (s.raise cause c).result = s.result ∧
      (s.raise cause c).fixlog = s.fixlog ∧ (s.raise cause c).cmdcnt = s.cmdcnt ∧ s.LaunchKept (s.raise cause c) ∧
      s.QueuesKept (s.raise cause c)) ∧
  Cause.code .illegalCmd = 1 ∧ Cause.code .badWidth = 2 ∧ Cause.code .outOfRange = 3 ∧ Cause.code .badSlot = 4 ∧
    Cause.code .badDims = 5 ∧ Cause.code .rasterShort = 6 ∧ Cause.code .badRegion = 7

/-- Which command can raise which cause: 1, 2, 3 for RDBITS and WRBITS, 1, 4, 5, 6 for EMBED, 1, 7 for CKFIX, 1 for
CKFIXALL and every reserved OP (R182). -/
def Obligations.CommandsRaiseExactlyTheirCauses : Prop :=
  (∀ (op code : BitVec 8),
    (∃ (c : Command) (s t : State), Command.op c = op ∧ s.faulted = false ∧ runCommand c s = .next t ∧
      t.faulted = true ∧ t.fcause = code) ↔ code ∈ causesOf op) ∧
  (∀ s t : State, s.faulted = false → exec .ckfixall s = .next t → t.faulted = false)

/-- The reported cause is the first in the fixed order of checks, later checks are not made, and a word that passes
them all completes without fault (R183). -/
def Obligations.FirstFailingCheckIsReported : Prop :=
  ∀ (c : Command) (s : State), s.faulted = false →
    ∃ t, runCommand c s = .next t ∧
      if Command.op c ∉ [0x10#8, 0x11#8, 0x20#8, 0x30#8, 0x31#8] then t = s.raise .illegalCmd c
      else if
        (Command.op c = 0x10#8 ∧ (Command.sel c ≠ 0 ∨ Command.val c ≠ 0 ∨ 1 < (Command.buf c).toNat)) ∨
        (Command.op c = 0x11#8 ∧ (Command.sel c ≠ 0 ∨ 1 < (Command.buf c).toNat)) ∨
        ((Command.op c = 0x20#8 ∨ Command.op c = 0x30#8) ∧
          (Command.buf c ≠ 0 ∨ Command.w c ≠ 0 ∨ Command.off c ≠ 0 ∨ Command.val c ≠ 0)) ∨
        (Command.op c = 0x31#8 ∧
          (Command.buf c ≠ 0 ∨ Command.sel c ≠ 0 ∨ Command.w c ≠ 0 ∨ Command.off c ≠ 0 ∨ Command.val c ≠ 0))
      then t = s.raise .illegalCmd c
      else if Command.op c = 0x10#8 ∨ Command.op c = 0x11#8 then
        if (Command.w c).toNat = 0 ∨ 32 < (Command.w c).toNat then t = s.raise .badWidth c
        else if 8 * s.len (if Command.buf c = 0 then .save else .raster) < (Command.off c).toNat + (Command.w c).toNat
        then t = s.raise .outOfRange c
        else t.faulted = false
      else if Command.op c = 0x20#8 then
        if (Command.sel c).toNat ≠ 1 ∧ (Command.sel c).toNat ≠ 2 then t = s.raise .badSlot c
        else if s.rw.toNat ≠ 160 ∨ s.rh.toNat ≠ 112 then t = s.raise .badDims c
        else if s.rlen.toNat < 17920 then t = s.raise .rasterShort c
        else t.faulted = false
      else if Command.op c = 0x30#8 ∧ 7 < (Command.sel c).toNat then t = s.raise .badRegion c
      else t.faulted = false

/-- A command that completes adds 1 to CMDCNT modulo 2^32; one that faults leaves it, so that CMDCNT = FIDX; no
command sets it otherwise (R26). -/
def Obligations.CmdcntCountsCompletedCommands : Prop :=
  ∀ (c : Command) (s t : State), s.faulted = false → runCommand c s = .next t →
    (t.faulted = false → t.cmdcnt.toNat = (s.cmdcnt.toNat + 1) % 2 ^ 32) ∧
      (t.faulted = true → t.cmdcnt = s.cmdcnt ∧ t.fidx = t.cmdcnt)

/-- Every command taken gives exactly one response: OK with the data that RESULT holds, or FAULT with the cause code
(R34, R28, R184). -/
def Obligations.OneResponsePerCommand : Prop :=
  ∀ (c : Command) (s t : State), s.faulted = false → runCommand c s = .next t →
    (t.faulted = false → t.responses = s.responses ++ [⟨.ok, t.result⟩] ∧
      (Command.op c = 0x11#8 ∨ Command.op c = 0x20#8 → t.result = 0) ∧
      (Command.op c = 0x30#8 ∨ Command.op c = 0x31#8 → t.result.toNat < 256)) ∧
    (t.faulted = true → t.responses = s.responses ++ [⟨.fault, t.fcause.setWidth 32⟩] ∧ t.result = s.result)

/-- No command writes RLEN, RW or RH, clears a bit of FIXLOG, or moves the host or the port (R22, R23, R29). -/
def Obligations.CommandsKeepLaunchRegistersAndFixlogBits : Prop :=
  ∀ (c : Command) (s t : State), runCommand c s = .next t →
    s.LaunchKept t ∧ s.QueuesKept t ∧ (∀ k, s.fixlog.getLsbD k = true → t.fixlog.getLsbD k = true) ∧
      (Command.op c ≠ 0x30#8 → Command.op c ≠ 0x31#8 → t.fixlog = s.fixlog)

/-- A host register write changes RLEN (up to RCAP), RW or RH and nothing else; other numbers are ignored, and numbers
above 11 read as 0 (R33, R22, R23, R68). -/
def Obligations.HostWritesReachOnlyLaunchRegisters : Prop :=
  (∀ (s : State) (n m : Nat) (v : Word32),
    (s.hostWriteReg n v).hostReadReg m =
      (if m = n ∧ (n = 10 ∨ n = 11 ∨ n = 9 ∧ v.toNat ≤ Config.rcap) then v else s.hostReadReg m) ∧
    (s.hostWriteReg n v).save = s.save ∧ (s.hostWriteReg n v).raster = s.raster ∧
    (s.hostWriteReg n v).responses = s.responses ∧ s.QueuesKept (s.hostWriteReg n v) ∧
    (11 < m → s.hostReadReg m = 0)) ∧
  (∀ (s : State) (n : Nat) (v : Word32) (ms : List HostMove), (s.port = [] ∨ s.faulted = true) →
    s.host = .writeReg n v :: ms →
    ∃ t, step s = .next t ∧ t = ({ s with host := ms } : State).hostWriteReg n v ∧
      (∀ m, t.hostReadReg m =
        if m = n ∧ (n = 10 ∨ n = 11 ∨ n = 9 ∧ v.toNat ≤ Config.rcap) then v else s.hostReadReg m) ∧
      t.save = s.save ∧ t.raster = s.raster ∧ t.responses = s.responses ∧ t.port = s.port ∧ t.host = ms ∧
      t.freeCount = s.freeCount ∧ t.sig = s.sig)

/-- A host load inside a buffer's memory puts its bytes there and changes nothing else (R68, R213, R20, R21). -/
def Obligations.HostLoadWritesItsBytesAlone : Prop :=
  ∀ (s : State) (b : Buf) (a : Nat) (bytes : List Byte) (ms : List HostMove),
    (s.port = [] ∨ s.faulted = true) → s.host = .load b a bytes :: ms → a + bytes.length ≤ hostLen b →
    ∃ t, step s = .next t ∧ t.host = ms ∧ (∀ n, t.hostReadReg n = s.hostReadReg n) ∧ t.port = s.port ∧
      t.responses = s.responses ∧ t.freeCount = s.freeCount ∧ t.sig = s.sig ∧
      (∀ k v, bytes[k]? = some v → t.readByte b (a + k) = v) ∧
      (∀ c x, (c ≠ b ∨ x < a ∨ a + bytes.length ≤ x) → t.readByte c x = s.readByte c x)

/-- The reset move zeroes every register, empties the port, answers nothing and keeps both buffers (R210, R211, R37).
-/
def Obligations.ResetClearsRegistersKeepsBuffers : Prop :=
  ∀ (s : State) (ms : List HostMove), (s.port = [] ∨ s.faulted = true) → s.host = .reset :: ms →
    ∃ t, step s = .next t ∧ (∀ n, t.hostReadReg n = 0) ∧ t.faulted = false ∧ t.port = [] ∧ t.host = ms ∧
      t.responses = s.responses ∧ t.save = s.save ∧ t.raster = s.raster ∧ t.sig = s.sig

/-- A reset that strikes during a command leaves every byte the command may not write as it was, and is otherwise a
reset (which bytes those are: log 13) (R210, R211, R58, R185, R114, R121, R134, R159, R160). -/
def Obligations.InterruptedCommandLosesOnlyItsBytes : Prop :=
  (∀ (s : State) (c : Command) (ms : List HostMove), (s.port = [] ∨ s.faulted = true) →
    s.host = .resetDuring c :: ms →
    ∃ t, step s = .next t ∧ (∀ n, t.hostReadReg n = 0) ∧ t.faulted = false ∧ t.port = [] ∧ t.host = ms ∧
      t.responses = s.responses ∧ t.sig = s.sig ∧
      ∀ b a, (∀ blk ∈ s.abandoned c, ¬ (b = blk.1 ∧ blk.2.1 ≤ a ∧ a < blk.2.1 + blk.2.2)) →
        t.readByte b a = s.readByte b a) ∧
  (∀ (s : State) (c : Command),
    s.faulted = true ∨ (∃ e, decode c = .error e) ∨ (∃ buf off w, decode c = .ok (.rdbits buf off w)) →
      s.abandoned c = []) ∧
  (∀ (s : State) (c : Command), s.faulted = false →
    (∀ buf off w val b, decode c = .ok (.wrbits buf off w val) → (buf = 0 ∧ b = .save ∨ buf = 1 ∧ b = .raster) →
      if 1 ≤ w.toNat ∧ w.toNat ≤ 32 ∧ off.toNat + w.toNat ≤ 8 * s.len b then
        ∃ n, s.abandoned c = [(b, off.toNat / 8, n)] ∧ off.toNat / 8 + n = (off.toNat + w.toNat - 1) / 8 + 1
      else s.abandoned c = []) ∧
    (∀ sel, decode c = .ok (.embed sel) →
      ((sel.toNat = 1 ∨ sel.toNat = 2) ∧ s.RasterOK →
        s.abandoned c = [(.save, sel.toNat * 0x8000 + 0x10E0, 11200)]) ∧
      (¬ ((sel.toNat = 1 ∨ sel.toNat = 2) ∧ s.RasterOK) → s.abandoned c = [])) ∧
    (∀ sel, decode c = .ok (.ckfix sel) →
      (∀ r : Fin 8, r.val = sel.toNat → s.abandoned c = [(.save, (Config.region r).start + 0x100A, 2)]) ∧
      (8 ≤ sel.toNat → s.abandoned c = [])) ∧
    (decode c = .ok .ckfixall →
      s.abandoned c =
        ([0, 1, 2, 3, 4, 5, 6, 7] : List (Fin 8)).map (fun r => (.save, (Config.region r).start + 0x100A, 2))))

/-- A run of n commands ends normally after n steps with n OK responses, or by fault after k + 1 steps with k OK
responses and one FAULT, never both (R215, R26, R34, R65, R185, R186, R220). -/
def Obligations.RunEndsNormallyOrByFault : Prop :=
  ∀ (s : State) (cs : List Command), s.NoFault →
    ((∃ t, s.EndedNormally cs t ∧ t.host = s.host) ∨ (∃ t, s.EndedByFault cs t ∧ t.host = s.host)) ∧
      ∀ t u, s.EndedNormally cs t → ¬ s.EndedByFault cs u

/-- A submitted run stands whole at the command port, in its order, and nothing else changes (R215, R222). -/
def Obligations.SubmittedRunIsLaunched : Prop :=
  (∀ (s : State) (cs : List Command) (ms : List HostMove), s.port = [] → s.host = .submit cs :: ms →
    step s = .next (({ s with host := ms } : State).launch cs)) ∧
  (∀ (s : State) (cs : List Command) (ms : List HostMove), s.faulted = true → s.host = .submit cs :: ms →
    step s = .next { s with host := ms, port := s.port ++ cs })

/-- Every command, with any operands and from any state, completes or takes its fault: no meaning stops (terms with
BUF above 1: log 14) (R26, R34, R185, R220). -/
def Obligations.EveryInstructionAnswersANextState : Prop :=
  ∀ (i : Instr) (s : State), ∃ t, exec i s = .next t ∧
    (s.CompletedWith t t.result ∨ ∃ cause, t = s.raise cause (encode i))

/-- RUN slot on a good raster leaves the image in place and every signed region with a right checksum, and changes no
other byte (R96, R134, R160, R165, R217, R140, R62). -/
def Obligations.PipelineEmbedsAndRepairs : Prop :=
  ∀ (s : State) (sel : BitVec 8), (sel.toNat = 1 ∨ sel.toNat = 2) → s.RasterOK →
    ∃ is t u, (Asm.run sel).expand = some is ∧ is = [.embed sel, .ckfixall] ∧
      exec (.embed sel) s = .next t ∧ exec .ckfixall t = .next u ∧ execAll is s = .next u ∧
      (∀ r : Fin 8, u.result.getLsbD r.val = true ↔ (t.hasSig r = true ∧ t.stored r ≠ t.sum16 r)) ∧
      u.result.toNat < 256 ∧ u.fixlog = s.fixlog ||| u.result.setWidth 8 ∧
      (∀ r, u.hasSig r = true → u.stored r = u.sum16 r) ∧ (∀ r, u.hasSig r = s.hasSig r) ∧
      (∀ i j, i < 112 → j < 160 →
        u.bitRead .save (sel.toNat * 262144 + 34560 + 800 * i + 5 * j) 5 =
          (s.readByte .raster (s.rlen.toNat - (i + 1) * 160 + j)).toNat % 32) ∧
      (∀ a, (a < sel.toNat * 0x8000 + 0x10E0 ∨ sel.toNat * 0x8000 + 0x10E0 + 11200 ≤ a) →
        (∀ r, s.hasSig r = true → a ≠ fieldAddr r ∧ a ≠ fieldAddr r + 1) →
        u.readByte .save a = s.readByte .save a) ∧
      u.raster = s.raster ∧ u.responses = s.responses ++ [⟨.ok, 0⟩, ⟨.ok, u.result⟩] ∧
      u.cmdcnt = s.cmdcnt + 2 ∧ u.faulted = s.faulted

/-- SIG is any six bytes: CKFIXALL repairs by the SIG of the state, no step of either agent changes it, and it is
ZELDA3 by default (R10, R38, R153, R160). -/
def Obligations.SignatureIsAParameter : Prop :=
  (∀ (s : State) (g : Config.Signature), s.sig = g →
    ∃ t, exec .ckfixall s = .next t ∧
      ∀ r : Fin 8, t.result.getLsbD r.val = true ↔
        ((∀ k, k < 6 → s.readByte .save ((Config.region r).start + 0x24 + k) = [g.b0, g.b1, g.b2, g.b3, g.b4, g.b5].getD k 0) ∧
          s.stored r ≠ s.sum16 r)) ∧
  (∀ s t : State, step s = .next t → t.sig = s.sig) ∧
  State.reset.sig.bytes = [0x5A, 0x45, 0x4C, 0x44, 0x41, 0x33]
end

