-- ==== Sys2Proof/Laws/Memory.lean ====
section
/-! SUPPORT. What the operations on one buffer's list of cells do, said once: what a lookup reads after each, and that each
keeps the canonical form. -/

namespace Sys2Proof.Machine

/-! ### Lookup after each operation -/

@[simp] theorem Memory.lookup_nil (a : Nat) : Memory.lookup [] a = none := rfl

theorem Memory.lookup_cons (k : Nat) (v : Byte) (m : Memory) (a : Nat) :
    Memory.lookup ((k, v) :: m) a = if a < k then none else if a = k then some v else Memory.lookup m a := rfl

/-- A write is read back at its address and nowhere else. -/
theorem Memory.lookup_write (m : Memory) (a b : Nat) (v : Byte) :
    Memory.lookup (Memory.write m a v) b = if b = a then some v else Memory.lookup m b := by
  induction m with
  | nil => simp only [Memory.write, Memory.lookup]; split_ifs <;> first | rfl | omega
  | cons c m ih =>
    obtain ⟨k, x⟩ := c
    simp only [Memory.write]
    split_ifs <;> simp only [Memory.lookup_cons, ih] <;> split_ifs <;> first | rfl | omega

theorem Memory.lookup_cells (a b : Nat) (vs : List Byte) :
    Memory.lookup (Memory.cells a vs) b = if a ≤ b then vs[b - a]? else none := by
  induction vs generalizing a with
  | nil => simp [Memory.cells]
  | cons v vs ih =>
    simp only [Memory.cells, Memory.lookup_cons, ih]
    rcases Nat.lt_trichotomy b a with h | h | h
    · simp [h, Nat.not_le.2 h]
    · simp [h]
    · obtain ⟨d, rfl⟩ : ∃ d, b = a + 1 + d := ⟨b - (a + 1), by omega⟩
      have h1 : a + 1 + d - a = d + 1 := by omega
      simp [h1, show ¬ (a + 1 + d < a) by omega, show a + 1 + d ≠ a by omega, show a ≤ a + 1 + d by omega]

/-- Cells below the address do not matter to a lookup. -/
theorem Memory.lookup_dropWhile (m : Memory) (a b : Nat) (h : a ≤ b) :
    Memory.lookup (m.dropWhile (fun c => decide (c.1 < a))) b = Memory.lookup m b := by
  induction m with
  | nil => rfl
  | cons c m ih =>
    obtain ⟨k, x⟩ := c
    rw [List.dropWhile_cons]
    split_ifs with hk
    · simp only [decide_eq_true_eq] at hk
      rw [ih, Memory.lookup_cons, if_neg (by omega), if_neg (by omega)]
    · rfl

/-- Below `a`, the leading cells under `a` decide a lookup, if what follows them starts no lower than `a`. -/
theorem Memory.lookup_takeWhile_append_lt (m t : Memory) (a b : Nat) (h : b < a)
    (ht : Memory.lookup t b = none) :
    Memory.lookup (m.takeWhile (fun c => decide (c.1 < a)) ++ t) b = Memory.lookup m b := by
  induction m with
  | nil => simpa using ht
  | cons c m ih =>
    obtain ⟨k, x⟩ := c
    rw [List.takeWhile_cons]
    split_ifs with hk
    · simp only [List.cons_append, Memory.lookup_cons, ih]
    · simp only [decide_eq_true_eq] at hk
      rw [Memory.lookup_cons, if_pos (by omega)]
      simpa using ht

/-- From `a` on, the leading cells under `a` do not matter. -/
theorem Memory.lookup_takeWhile_append_ge (m t : Memory) (a b : Nat) (h : a ≤ b) :
    Memory.lookup (m.takeWhile (fun c => decide (c.1 < a)) ++ t) b = Memory.lookup t b := by
  induction m with
  | nil => rfl
  | cons c m ih =>
    obtain ⟨k, x⟩ := c
    rw [List.takeWhile_cons]
    split_ifs with hk
    · simp only [decide_eq_true_eq] at hk
      rw [List.cons_append, Memory.lookup_cons, if_neg (by omega), if_neg (by omega), ih]
    · rfl

theorem Memory.lookup_cells_append (a b : Nat) (vs : List Byte) (t : Memory) :
    Memory.lookup (Memory.cells a vs ++ t) b =
      if b < a then (if vs = [] then Memory.lookup t b else none)
      else if h : b - a < vs.length then some vs[b - a] else Memory.lookup t b := by
  induction vs generalizing a with
  | nil => simp [Memory.cells]
  | cons v vs ih =>
    simp only [Memory.cells, List.cons_append, Memory.lookup_cons, ih]
    rcases Nat.lt_trichotomy b a with h | h | h
    · simp [h]
    · simp [h]
    · obtain ⟨d, rfl⟩ : ∃ d, b = a + 1 + d := ⟨b - (a + 1), by omega⟩
      have h1 : a + 1 + d - a = d + 1 := by omega
      simp [h1, show ¬ (a + 1 + d < a) by omega, show a + 1 + d ≠ a by omega, show ¬ (a + 1 + d ≤ a) by omega]

/-- A block write is read back in its range and nowhere else. -/
theorem Memory.lookup_splice (m : Memory) (a b : Nat) (vs : List Byte) :
    Memory.lookup (Memory.splice m a vs) b =
      if h : a ≤ b ∧ b - a < vs.length then some vs[b - a] else Memory.lookup m b := by
  unfold Memory.splice
  by_cases hlt : b < a
  · rw [dif_neg (by omega), Memory.lookup_takeWhile_append_lt _ _ _ _ hlt]
    rw [Memory.lookup_cells_append, if_pos hlt]
    split_ifs with hv
    · subst hv
      simp only [List.length_nil, Nat.add_zero]
      induction m with
      | nil => rfl
      | cons c m ih =>
        obtain ⟨k, x⟩ := c
        rw [List.dropWhile_cons]
        split_ifs with hk
        · exact ih
        · simp only [decide_eq_true_eq] at hk
          rw [Memory.lookup_cons, if_pos (by omega)]
    · rfl
  · rw [Memory.lookup_takeWhile_append_ge _ _ _ _ (by omega), Memory.lookup_cells_append, if_neg hlt]
    by_cases hin : b - a < vs.length
    · rw [dif_pos hin, dif_pos ⟨by omega, hin⟩]
    · rw [dif_neg hin, dif_neg (by tauto), Memory.lookup_dropWhile _ _ _ (by omega)]

/-! ### Reading bytes -/

/-- What one byte reads as after a write. -/
theorem Memory.read_write (b : Buf) (m : Memory) (a x : Nat) (v : Byte) :
    Memory.read b (Memory.write m a v) x = if x = a then v else Memory.read b m x := by
  simp only [Memory.read, Memory.lookup_write]
  split_ifs <;> rfl

/-- What one byte reads as after a block write. -/
theorem Memory.read_splice (b : Buf) (m : Memory) (a x : Nat) (vs : List Byte) :
    Memory.read b (Memory.splice m a vs) x =
      if h : a ≤ x ∧ x - a < vs.length then vs[x - a] else Memory.read b m x := by
  simp only [Memory.read, Memory.lookup_splice]
  split_ifs <;> rfl

theorem Memory.lookup_dropTo (m : Memory) (a x : Nat) (h : a < x) :
    Memory.lookup (Memory.dropTo m a) x = Memory.lookup m x := by
  cases m with
  | nil => rfl
  | cons c m =>
    obtain ⟨k, v⟩ := c
    simp only [Memory.dropTo]
    split_ifs with hk
    · rw [Memory.lookup_cons, if_neg (by omega), if_neg (by omega)]
    · rfl

@[simp] theorem Memory.length_scan (b : Buf) (m : Memory) (a n : Nat) : (Memory.scan b m a n).length = n := by
  induction n generalizing m a with
  | zero => rfl
  | succ n ih => simp [Memory.scan, ih]

/-- The one pass reads what `n` single reads give. -/
theorem Memory.scan_eq_map (b : Buf) (m : Memory) (a n : Nat) :
    Memory.scan b m a n = (List.range n).map (fun k => Memory.read b m (a + k)) := by
  induction n generalizing m a with
  | zero => rfl
  | succ n ih =>
    rw [Memory.scan, ih, List.range_succ_eq_map, List.map_cons, List.map_map]
    refine congrArg₂ _ rfl (List.map_congr_left fun k _ => ?_)
    simp only [Memory.read, Function.comp]
    rw [Memory.lookup_dropTo _ _ _ (by omega), show a + 1 + k = a + k.succ by omega]

/-- A slice is the bytes read one by one. -/
theorem Memory.slice_eq_map (b : Buf) (m : Memory) (a n : Nat) :
    Memory.slice b m a n = (List.range n).map (fun k => Memory.read b m (a + k)) := by
  rw [Memory.slice, Memory.scan_eq_map]
  refine List.map_congr_left fun k _ => ?_
  simp only [Memory.read]
  rw [Memory.lookup_dropWhile _ _ _ (by omega)]

@[simp] theorem Memory.length_slice (b : Buf) (m : Memory) (a n : Nat) : (Memory.slice b m a n).length = n := by
  simp [Memory.slice]

/-! ### The canonical form -/

theorem Memory.mem_write {m : Memory} {a : Nat} {v : Byte} {c : Host.Cell} (h : c ∈ Memory.write m a v) :
    c = (a, v) ∨ c ∈ m := by
  induction m with
  | nil => simpa [Memory.write] using h
  | cons d m ih =>
    obtain ⟨k, x⟩ := d
    simp only [Memory.write] at h
    split_ifs at h <;> simp only [List.mem_cons] at h ⊢
    · tauto
    · tauto
    · rcases h with h | h
      · exact .inr (.inl h)
      · exact (ih h).imp_right .inr

/-- A write keeps the canonical form. -/
theorem Memory.wf_write {m : Memory} (h : Memory.wf m) (a : Nat) (v : Byte) : Memory.wf (Memory.write m a v) := by
  induction m with
  | nil => exact List.pairwise_singleton _ _
  | cons d m ih =>
    obtain ⟨k, x⟩ := d
    have hk : ∀ c ∈ m, k < c.1 := (List.pairwise_cons.1 h).1
    have hm : Memory.wf m := (List.pairwise_cons.1 h).2
    simp only [Memory.write]
    split_ifs with h1 h2
    · refine List.pairwise_cons.2 ⟨fun c hc => ?_, h⟩
      rcases List.mem_cons.1 hc with rfl | hc
      · exact h1
      · exact h1.trans (hk c hc)
    · exact List.pairwise_cons.2 ⟨fun c hc => h2 ▸ hk c hc, hm⟩
    · refine List.pairwise_cons.2 ⟨fun c hc => ?_, ih hm⟩
      rcases Memory.mem_write hc with rfl | hc
      · show k < a; omega
      · exact hk c hc

theorem Memory.below_write {m : Memory} {n : Nat} (h : Memory.below n m) {a : Nat} (ha : a < n) (v : Byte) :
    Memory.below n (Memory.write m a v) := fun c hc => by
  rcases Memory.mem_write hc with rfl | hc
  · exact ha
  · exact h c hc

theorem Memory.mem_cells {a : Nat} {vs : List Byte} {c : Host.Cell} (h : c ∈ Memory.cells a vs) :
    a ≤ c.1 ∧ c.1 < a + vs.length := by
  induction vs generalizing a with
  | nil => simp [Memory.cells] at h
  | cons v vs ih =>
    rcases List.mem_cons.1 h with rfl | h
    · simp
    · have := ih h
      simp only [List.length_cons]
      omega

theorem Memory.wf_cells (a : Nat) (vs : List Byte) : Memory.wf (Memory.cells a vs) := by
  induction vs generalizing a with
  | nil => exact List.Pairwise.nil
  | cons v vs ih => exact List.pairwise_cons.2 ⟨fun c hc => (Memory.mem_cells hc).1, ih (a + 1)⟩

theorem Memory.wf_dropWhile_ge {m : Memory} (h : Memory.wf m) (a : Nat) :
    ∀ c ∈ m.dropWhile (fun c => decide (c.1 < a)), a ≤ c.1 := by
  induction m with
  | nil => simp
  | cons d m ih =>
    rw [List.dropWhile_cons]
    split_ifs with hd
    · exact ih (List.pairwise_cons.1 h).2
    · simp only [decide_eq_true_eq] at hd
      intro c hc
      rcases List.mem_cons.1 hc with rfl | hc
      · omega
      · have := (List.pairwise_cons.1 h).1 c hc
        omega

/-- A block write keeps the canonical form. -/
theorem Memory.wf_splice {m : Memory} (h : Memory.wf m) (a : Nat) (vs : List Byte) :
    Memory.wf (Memory.splice m a vs) := by
  have hd := Memory.wf_dropWhile_ge h (a + vs.length)
  refine List.pairwise_append.2 ⟨h.sublist (List.takeWhile_sublist _), List.pairwise_append.2
    ⟨Memory.wf_cells a vs, h.sublist (List.dropWhile_sublist _), fun c hc e he => ?_⟩, fun c hc e he => ?_⟩
  · exact lt_of_lt_of_le (Memory.mem_cells hc).2 (hd e he)
  · have hc' : c.1 < a := by simpa using List.mem_takeWhile_imp hc
    rcases List.mem_append.1 he with he | he
    · exact lt_of_lt_of_le hc' (Memory.mem_cells he).1
    · have := hd e he
      omega

theorem Memory.below_splice {m : Memory} {n : Nat} (h : Memory.below n m) {a : Nat} {vs : List Byte}
    (ha : a + vs.length ≤ n) : Memory.below n (Memory.splice m a vs) := fun c hc => by
  rcases List.mem_append.1 hc with hc | hc
  · exact h c ((List.takeWhile_sublist _).subset hc)
  · rcases List.mem_append.1 hc with hc | hc
    · exact lt_of_lt_of_le (Memory.mem_cells hc).2 ha
    · exact h c ((List.dropWhile_sublist _).subset hc)

/-! ### Equal contents are equal lists -/

theorem Memory.lookup_eq_none_of_lt {m : Memory} {a : Nat} (h : ∀ c ∈ m, a < c.1) : Memory.lookup m a = none := by
  cases m with
  | nil => rfl
  | cons d m =>
    obtain ⟨k, x⟩ := d
    rw [Memory.lookup_cons, if_pos (h (k, x) List.mem_cons_self)]

/-- In canonical form a list of cells is determined by its lookups. -/
theorem Memory.ext {m n : Memory} (hm : Memory.wf m) (hn : Memory.wf n)
    (h : ∀ a, Memory.lookup m a = Memory.lookup n a) : m = n := by
  induction m generalizing n with
  | nil =>
    cases n with
    | nil => rfl
    | cons e n =>
      obtain ⟨k, x⟩ := e
      have := h k
      simp [Memory.lookup_cons] at this
  | cons d m ih =>
    obtain ⟨j, v⟩ := d
    cases n with
    | nil =>
      have := h j
      simp [Memory.lookup_cons] at this
    | cons e n =>
      obtain ⟨k, x⟩ := e
      have hj := h j
      have hk := h k
      have hjk : j = k := by
        simp only [Memory.lookup_cons] at hj hk
        rcases Nat.lt_trichotomy j k with g | g | g
        · simp [g] at hj
        · exact g
        · simp [g] at hk
      subst hjk
      have hvx : v = x := by simpa [Memory.lookup_cons] using hj
      subst hvx
      refine congrArg _ (ih (List.pairwise_cons.1 hm).2 (List.pairwise_cons.1 hn).2 fun a => ?_)
      have ha := h a
      simp only [Memory.lookup_cons] at ha
      rcases Nat.lt_trichotomy a j with g | g | g
      · rw [Memory.lookup_eq_none_of_lt fun c hc => g.trans ((List.pairwise_cons.1 hm).1 c hc),
          Memory.lookup_eq_none_of_lt fun c hc => g.trans ((List.pairwise_cons.1 hn).1 c hc)]
      · subst g
        rw [Memory.lookup_eq_none_of_lt (List.pairwise_cons.1 hm).1,
          Memory.lookup_eq_none_of_lt (List.pairwise_cons.1 hn).1]
      · simpa [Nat.not_lt.2 g.le, g.ne'] using ha

/-- Two writes to one address: the later one stands. -/
theorem Memory.write_write_same (m : Memory) (a : Nat) (u v : Byte) :
    Memory.write (Memory.write m a u) a v = Memory.write m a v := by
  induction m with
  | nil => simp [Memory.write]
  | cons d m ih =>
    obtain ⟨k, x⟩ := d
    simp only [Memory.write]
    split_ifs with h1 h2
    · simp [Memory.write]
    · simp [Memory.write]
    · simp [Memory.write, h1, h2, ih]

/-- Writes to two addresses commute, in any list. -/
theorem Memory.write_comm (m : Memory) {a b : Nat} (h : a ≠ b) (u v : Byte) :
    Memory.write (Memory.write m a u) b v = Memory.write (Memory.write m b v) a u := by
  induction m with
  | nil =>
    rcases Nat.lt_or_gt_of_ne h with g | g
    · simp [Memory.write, g, Nat.not_lt.2 g.le, g.ne']
    · simp [Memory.write, g, Nat.not_lt.2 g.le, g.ne']
  | cons d m ih =>
    obtain ⟨k, x⟩ := d
    simp only [Memory.write]
    split_ifs <;> simp only [Memory.write] <;> split_ifs <;> first | rfl | omega | (simp only [ih])

end Sys2Proof.Machine
end

