-- ==== Sys2Proof/Laws/State.lean ====
section
/-! SUPPORT. One lemma per field per state update, so that no later proof unfolds a record update. -/

namespace Sys2Proof.Machine

variable (s : State)

/-! ### Fault bit and log -/

@[simp] theorem State.setFaulted_save : (s.setFaulted).save = s.save := rfl
@[simp] theorem State.setFaulted_raster : (s.setFaulted).raster = s.raster := rfl
@[simp] theorem State.setFaulted_status : (s.setFaulted).status = s.status ||| 1#2 := rfl
@[simp] theorem State.setFaulted_fcause : (s.setFaulted).fcause = s.fcause := rfl
@[simp] theorem State.setFaulted_fidx : (s.setFaulted).fidx = s.fidx := rfl
@[simp] theorem State.setFaulted_fcmd0 : (s.setFaulted).fcmd0 = s.fcmd0 := rfl
@[simp] theorem State.setFaulted_fcmd1 : (s.setFaulted).fcmd1 = s.fcmd1 := rfl
@[simp] theorem State.setFaulted_fcmd2 : (s.setFaulted).fcmd2 = s.fcmd2 := rfl
@[simp] theorem State.setFaulted_result : (s.setFaulted).result = s.result := rfl
@[simp] theorem State.setFaulted_fixlog : (s.setFaulted).fixlog = s.fixlog := rfl
@[simp] theorem State.setFaulted_cmdcnt : (s.setFaulted).cmdcnt = s.cmdcnt := rfl
@[simp] theorem State.setFaulted_rlen : (s.setFaulted).rlen = s.rlen := rfl
@[simp] theorem State.setFaulted_rw : (s.setFaulted).rw = s.rw := rfl
@[simp] theorem State.setFaulted_rh : (s.setFaulted).rh = s.rh := rfl
@[simp] theorem State.setFaulted_port : (s.setFaulted).port = s.port := rfl
@[simp] theorem State.setFaulted_responses : (s.setFaulted).responses = s.responses := rfl
@[simp] theorem State.setFaulted_host : (s.setFaulted).host = s.host := rfl
@[simp] theorem State.setFaulted_freeCount : (s.setFaulted).freeCount = s.freeCount := rfl
@[simp] theorem State.setFaulted_sig : (s.setFaulted).sig = s.sig := rfl
@[simp] theorem State.orFixlog_save (m : BitVec 8) : (s.orFixlog m).save = s.save := rfl
@[simp] theorem State.orFixlog_raster (m : BitVec 8) : (s.orFixlog m).raster = s.raster := rfl
@[simp] theorem State.orFixlog_status (m : BitVec 8) : (s.orFixlog m).status = s.status := rfl
@[simp] theorem State.orFixlog_fcause (m : BitVec 8) : (s.orFixlog m).fcause = s.fcause := rfl
@[simp] theorem State.orFixlog_fidx (m : BitVec 8) : (s.orFixlog m).fidx = s.fidx := rfl
@[simp] theorem State.orFixlog_fcmd0 (m : BitVec 8) : (s.orFixlog m).fcmd0 = s.fcmd0 := rfl
@[simp] theorem State.orFixlog_fcmd1 (m : BitVec 8) : (s.orFixlog m).fcmd1 = s.fcmd1 := rfl
@[simp] theorem State.orFixlog_fcmd2 (m : BitVec 8) : (s.orFixlog m).fcmd2 = s.fcmd2 := rfl
@[simp] theorem State.orFixlog_result (m : BitVec 8) : (s.orFixlog m).result = s.result := rfl
@[simp] theorem State.orFixlog_fixlog (m : BitVec 8) : (s.orFixlog m).fixlog = s.fixlog ||| m := rfl
@[simp] theorem State.orFixlog_cmdcnt (m : BitVec 8) : (s.orFixlog m).cmdcnt = s.cmdcnt := rfl
@[simp] theorem State.orFixlog_rlen (m : BitVec 8) : (s.orFixlog m).rlen = s.rlen := rfl
@[simp] theorem State.orFixlog_rw (m : BitVec 8) : (s.orFixlog m).rw = s.rw := rfl
@[simp] theorem State.orFixlog_rh (m : BitVec 8) : (s.orFixlog m).rh = s.rh := rfl
@[simp] theorem State.orFixlog_port (m : BitVec 8) : (s.orFixlog m).port = s.port := rfl
@[simp] theorem State.orFixlog_responses (m : BitVec 8) : (s.orFixlog m).responses = s.responses := rfl
@[simp] theorem State.orFixlog_host (m : BitVec 8) : (s.orFixlog m).host = s.host := rfl
@[simp] theorem State.orFixlog_freeCount (m : BitVec 8) : (s.orFixlog m).freeCount = s.freeCount := rfl
@[simp] theorem State.orFixlog_sig (m : BitVec 8) : (s.orFixlog m).sig = s.sig := rfl

/-! ### The end of a command -/

@[simp] theorem State.complete_save (d : Word32) : (s.complete d).save = s.save := rfl
@[simp] theorem State.complete_raster (d : Word32) : (s.complete d).raster = s.raster := rfl
@[simp] theorem State.complete_status (d : Word32) : (s.complete d).status = s.status := rfl
@[simp] theorem State.complete_fcause (d : Word32) : (s.complete d).fcause = s.fcause := rfl
@[simp] theorem State.complete_fidx (d : Word32) : (s.complete d).fidx = s.fidx := rfl
@[simp] theorem State.complete_fcmd0 (d : Word32) : (s.complete d).fcmd0 = s.fcmd0 := rfl
@[simp] theorem State.complete_fcmd1 (d : Word32) : (s.complete d).fcmd1 = s.fcmd1 := rfl
@[simp] theorem State.complete_fcmd2 (d : Word32) : (s.complete d).fcmd2 = s.fcmd2 := rfl
@[simp] theorem State.complete_result (d : Word32) : (s.complete d).result = d := rfl
@[simp] theorem State.complete_fixlog (d : Word32) : (s.complete d).fixlog = s.fixlog := rfl
@[simp] theorem State.complete_cmdcnt (d : Word32) : (s.complete d).cmdcnt = s.cmdcnt + 1 := rfl
@[simp] theorem State.complete_rlen (d : Word32) : (s.complete d).rlen = s.rlen := rfl
@[simp] theorem State.complete_rw (d : Word32) : (s.complete d).rw = s.rw := rfl
@[simp] theorem State.complete_rh (d : Word32) : (s.complete d).rh = s.rh := rfl
@[simp] theorem State.complete_port (d : Word32) : (s.complete d).port = s.port := rfl
@[simp] theorem State.complete_responses (d : Word32) : (s.complete d).responses = s.responses ++ [⟨.ok, d⟩] := rfl
@[simp] theorem State.complete_host (d : Word32) : (s.complete d).host = s.host := rfl
@[simp] theorem State.complete_freeCount (d : Word32) : (s.complete d).freeCount = s.freeCount := rfl
@[simp] theorem State.complete_sig (d : Word32) : (s.complete d).sig = s.sig := rfl
@[simp] theorem State.raise_save (cause : Cause) (c : Command) : (s.raise cause c).save = s.save := rfl
@[simp] theorem State.raise_raster (cause : Cause) (c : Command) : (s.raise cause c).raster = s.raster := rfl
@[simp] theorem State.raise_status (cause : Cause) (c : Command) : (s.raise cause c).status = s.status ||| 1#2 := rfl
@[simp] theorem State.raise_fcause (cause : Cause) (c : Command) : (s.raise cause c).fcause = cause.code := rfl
@[simp] theorem State.raise_fidx (cause : Cause) (c : Command) : (s.raise cause c).fidx = s.cmdcnt := rfl
@[simp] theorem State.raise_fcmd0 (cause : Cause) (c : Command) : (s.raise cause c).fcmd0 = Command.cw0 c := rfl
@[simp] theorem State.raise_fcmd1 (cause : Cause) (c : Command) : (s.raise cause c).fcmd1 = Command.cw1 c := rfl
@[simp] theorem State.raise_fcmd2 (cause : Cause) (c : Command) : (s.raise cause c).fcmd2 = Command.cw2 c := rfl
@[simp] theorem State.raise_result (cause : Cause) (c : Command) : (s.raise cause c).result = s.result := rfl
@[simp] theorem State.raise_fixlog (cause : Cause) (c : Command) : (s.raise cause c).fixlog = s.fixlog := rfl
@[simp] theorem State.raise_cmdcnt (cause : Cause) (c : Command) : (s.raise cause c).cmdcnt = s.cmdcnt := rfl
@[simp] theorem State.raise_rlen (cause : Cause) (c : Command) : (s.raise cause c).rlen = s.rlen := rfl
@[simp] theorem State.raise_rw (cause : Cause) (c : Command) : (s.raise cause c).rw = s.rw := rfl
@[simp] theorem State.raise_rh (cause : Cause) (c : Command) : (s.raise cause c).rh = s.rh := rfl
@[simp] theorem State.raise_port (cause : Cause) (c : Command) : (s.raise cause c).port = s.port := rfl
@[simp] theorem State.raise_responses (cause : Cause) (c : Command) : (s.raise cause c).responses = s.responses ++ [⟨.fault, cause.code.setWidth 32⟩] := rfl
@[simp] theorem State.raise_host (cause : Cause) (c : Command) : (s.raise cause c).host = s.host := rfl
@[simp] theorem State.raise_freeCount (cause : Cause) (c : Command) : (s.raise cause c).freeCount = s.freeCount := rfl
@[simp] theorem State.raise_sig (cause : Cause) (c : Command) : (s.raise cause c).sig = s.sig := rfl
@[simp] theorem State.applyReset_save : (s.applyReset).save = s.save := rfl
@[simp] theorem State.applyReset_raster : (s.applyReset).raster = s.raster := rfl
@[simp] theorem State.applyReset_status : (s.applyReset).status = 0 := rfl
@[simp] theorem State.applyReset_fcause : (s.applyReset).fcause = 0 := rfl
@[simp] theorem State.applyReset_fidx : (s.applyReset).fidx = 0 := rfl
@[simp] theorem State.applyReset_fcmd0 : (s.applyReset).fcmd0 = 0 := rfl
@[simp] theorem State.applyReset_fcmd1 : (s.applyReset).fcmd1 = 0 := rfl
@[simp] theorem State.applyReset_fcmd2 : (s.applyReset).fcmd2 = 0 := rfl
@[simp] theorem State.applyReset_result : (s.applyReset).result = 0 := rfl
@[simp] theorem State.applyReset_fixlog : (s.applyReset).fixlog = 0 := rfl
@[simp] theorem State.applyReset_cmdcnt : (s.applyReset).cmdcnt = 0 := rfl
@[simp] theorem State.applyReset_rlen : (s.applyReset).rlen = 0 := rfl
@[simp] theorem State.applyReset_rw : (s.applyReset).rw = 0 := rfl
@[simp] theorem State.applyReset_rh : (s.applyReset).rh = 0 := rfl
@[simp] theorem State.applyReset_port : (s.applyReset).port = [] := rfl
@[simp] theorem State.applyReset_responses : (s.applyReset).responses = s.responses := rfl
@[simp] theorem State.applyReset_host : (s.applyReset).host = s.host := rfl
@[simp] theorem State.applyReset_freeCount : (s.applyReset).freeCount = s.freeCount := rfl
@[simp] theorem State.applyReset_sig : (s.applyReset).sig = s.sig := rfl

/-! ### Writing a buffer -/

@[simp] theorem State.setMem_mem (b : Buf) (m : Memory) : (s.setMem b m).mem b = m := by cases b <;> rfl
theorem State.setMem_mem_of_ne {b c : Buf} (h : c ≠ b) (m : Memory) : (s.setMem b m).mem c = s.mem c := by
  cases b <;> cases c <;> first | rfl | exact absurd rfl h
theorem State.setMem_mem_eq (b c : Buf) (m : Memory) : (s.setMem b m).mem c = if c = b then m else s.mem c := by
  split_ifs with h
  · subst h; simp
  · exact s.setMem_mem_of_ne h m
@[simp] theorem State.setMem_save_save (m : Memory) : (s.setMem .save m).save = m := rfl
@[simp] theorem State.setMem_save_raster (m : Memory) : (s.setMem .save m).raster = s.raster := rfl
@[simp] theorem State.setMem_raster_raster (m : Memory) : (s.setMem .raster m).raster = m := rfl
@[simp] theorem State.setMem_raster_save (m : Memory) : (s.setMem .raster m).save = s.save := rfl
@[simp] theorem State.setMem_setMem (b : Buf) (m n : Memory) : (s.setMem b m).setMem b n = s.setMem b n := by
  cases b <;> rfl
theorem State.setMem_comm {b c : Buf} (h : b ≠ c) (m n : Memory) :
    (s.setMem b m).setMem c n = (s.setMem c n).setMem b m := by
  cases b <;> cases c <;> first | rfl | exact absurd rfl h
@[simp] theorem State.setMem_self (b : Buf) : s.setMem b (s.mem b) = s := by cases b <;> rfl

@[simp] theorem State.setMem_status (b : Buf) (m : Memory) : (s.setMem b m).status = s.status := by cases b <;> rfl
@[simp] theorem State.setMem_fcause (b : Buf) (m : Memory) : (s.setMem b m).fcause = s.fcause := by cases b <;> rfl
@[simp] theorem State.setMem_fidx (b : Buf) (m : Memory) : (s.setMem b m).fidx = s.fidx := by cases b <;> rfl
@[simp] theorem State.setMem_fcmd0 (b : Buf) (m : Memory) : (s.setMem b m).fcmd0 = s.fcmd0 := by cases b <;> rfl
@[simp] theorem State.setMem_fcmd1 (b : Buf) (m : Memory) : (s.setMem b m).fcmd1 = s.fcmd1 := by cases b <;> rfl
@[simp] theorem State.setMem_fcmd2 (b : Buf) (m : Memory) : (s.setMem b m).fcmd2 = s.fcmd2 := by cases b <;> rfl
@[simp] theorem State.setMem_result (b : Buf) (m : Memory) : (s.setMem b m).result = s.result := by cases b <;> rfl
@[simp] theorem State.setMem_fixlog (b : Buf) (m : Memory) : (s.setMem b m).fixlog = s.fixlog := by cases b <;> rfl
@[simp] theorem State.setMem_cmdcnt (b : Buf) (m : Memory) : (s.setMem b m).cmdcnt = s.cmdcnt := by cases b <;> rfl
@[simp] theorem State.setMem_rlen (b : Buf) (m : Memory) : (s.setMem b m).rlen = s.rlen := by cases b <;> rfl
@[simp] theorem State.setMem_rw (b : Buf) (m : Memory) : (s.setMem b m).rw = s.rw := by cases b <;> rfl
@[simp] theorem State.setMem_rh (b : Buf) (m : Memory) : (s.setMem b m).rh = s.rh := by cases b <;> rfl
@[simp] theorem State.setMem_port (b : Buf) (m : Memory) : (s.setMem b m).port = s.port := by cases b <;> rfl
@[simp] theorem State.setMem_responses (b : Buf) (m : Memory) : (s.setMem b m).responses = s.responses := by cases b <;> rfl
@[simp] theorem State.setMem_host (b : Buf) (m : Memory) : (s.setMem b m).host = s.host := by cases b <;> rfl
@[simp] theorem State.setMem_freeCount (b : Buf) (m : Memory) : (s.setMem b m).freeCount = s.freeCount := by cases b <;> rfl
@[simp] theorem State.setMem_sig (b : Buf) (m : Memory) : (s.setMem b m).sig = s.sig := by cases b <;> rfl
@[simp] theorem State.writeByte_status (b : Buf) (a : Nat) (v : Byte) : (s.writeByte b a v).status = s.status :=
  s.setMem_status _ _
@[simp] theorem State.writeByte_fcause (b : Buf) (a : Nat) (v : Byte) : (s.writeByte b a v).fcause = s.fcause :=
  s.setMem_fcause _ _
@[simp] theorem State.writeByte_fidx (b : Buf) (a : Nat) (v : Byte) : (s.writeByte b a v).fidx = s.fidx :=
  s.setMem_fidx _ _
@[simp] theorem State.writeByte_fcmd0 (b : Buf) (a : Nat) (v : Byte) : (s.writeByte b a v).fcmd0 = s.fcmd0 :=
  s.setMem_fcmd0 _ _
@[simp] theorem State.writeByte_fcmd1 (b : Buf) (a : Nat) (v : Byte) : (s.writeByte b a v).fcmd1 = s.fcmd1 :=
  s.setMem_fcmd1 _ _
@[simp] theorem State.writeByte_fcmd2 (b : Buf) (a : Nat) (v : Byte) : (s.writeByte b a v).fcmd2 = s.fcmd2 :=
  s.setMem_fcmd2 _ _
@[simp] theorem State.writeByte_result (b : Buf) (a : Nat) (v : Byte) : (s.writeByte b a v).result = s.result :=
  s.setMem_result _ _
@[simp] theorem State.writeByte_fixlog (b : Buf) (a : Nat) (v : Byte) : (s.writeByte b a v).fixlog = s.fixlog :=
  s.setMem_fixlog _ _
@[simp] theorem State.writeByte_cmdcnt (b : Buf) (a : Nat) (v : Byte) : (s.writeByte b a v).cmdcnt = s.cmdcnt :=
  s.setMem_cmdcnt _ _
@[simp] theorem State.writeByte_rlen (b : Buf) (a : Nat) (v : Byte) : (s.writeByte b a v).rlen = s.rlen :=
  s.setMem_rlen _ _
@[simp] theorem State.writeByte_rw (b : Buf) (a : Nat) (v : Byte) : (s.writeByte b a v).rw = s.rw :=
  s.setMem_rw _ _
@[simp] theorem State.writeByte_rh (b : Buf) (a : Nat) (v : Byte) : (s.writeByte b a v).rh = s.rh :=
  s.setMem_rh _ _
@[simp] theorem State.writeByte_port (b : Buf) (a : Nat) (v : Byte) : (s.writeByte b a v).port = s.port :=
  s.setMem_port _ _
@[simp] theorem State.writeByte_responses (b : Buf) (a : Nat) (v : Byte) : (s.writeByte b a v).responses = s.responses :=
  s.setMem_responses _ _
@[simp] theorem State.writeByte_host (b : Buf) (a : Nat) (v : Byte) : (s.writeByte b a v).host = s.host :=
  s.setMem_host _ _
@[simp] theorem State.writeByte_freeCount (b : Buf) (a : Nat) (v : Byte) : (s.writeByte b a v).freeCount = s.freeCount :=
  s.setMem_freeCount _ _
@[simp] theorem State.writeByte_sig (b : Buf) (a : Nat) (v : Byte) : (s.writeByte b a v).sig = s.sig :=
  s.setMem_sig _ _
@[simp] theorem State.writeBytes_status (b : Buf) (a : Nat) (vs : List Byte) : (s.writeBytes b a vs).status = s.status :=
  s.setMem_status _ _
@[simp] theorem State.writeBytes_fcause (b : Buf) (a : Nat) (vs : List Byte) : (s.writeBytes b a vs).fcause = s.fcause :=
  s.setMem_fcause _ _
@[simp] theorem State.writeBytes_fidx (b : Buf) (a : Nat) (vs : List Byte) : (s.writeBytes b a vs).fidx = s.fidx :=
  s.setMem_fidx _ _
@[simp] theorem State.writeBytes_fcmd0 (b : Buf) (a : Nat) (vs : List Byte) : (s.writeBytes b a vs).fcmd0 = s.fcmd0 :=
  s.setMem_fcmd0 _ _
@[simp] theorem State.writeBytes_fcmd1 (b : Buf) (a : Nat) (vs : List Byte) : (s.writeBytes b a vs).fcmd1 = s.fcmd1 :=
  s.setMem_fcmd1 _ _
@[simp] theorem State.writeBytes_fcmd2 (b : Buf) (a : Nat) (vs : List Byte) : (s.writeBytes b a vs).fcmd2 = s.fcmd2 :=
  s.setMem_fcmd2 _ _
@[simp] theorem State.writeBytes_result (b : Buf) (a : Nat) (vs : List Byte) : (s.writeBytes b a vs).result = s.result :=
  s.setMem_result _ _
@[simp] theorem State.writeBytes_fixlog (b : Buf) (a : Nat) (vs : List Byte) : (s.writeBytes b a vs).fixlog = s.fixlog :=
  s.setMem_fixlog _ _
@[simp] theorem State.writeBytes_cmdcnt (b : Buf) (a : Nat) (vs : List Byte) : (s.writeBytes b a vs).cmdcnt = s.cmdcnt :=
  s.setMem_cmdcnt _ _
@[simp] theorem State.writeBytes_rlen (b : Buf) (a : Nat) (vs : List Byte) : (s.writeBytes b a vs).rlen = s.rlen :=
  s.setMem_rlen _ _
@[simp] theorem State.writeBytes_rw (b : Buf) (a : Nat) (vs : List Byte) : (s.writeBytes b a vs).rw = s.rw :=
  s.setMem_rw _ _
@[simp] theorem State.writeBytes_rh (b : Buf) (a : Nat) (vs : List Byte) : (s.writeBytes b a vs).rh = s.rh :=
  s.setMem_rh _ _
@[simp] theorem State.writeBytes_port (b : Buf) (a : Nat) (vs : List Byte) : (s.writeBytes b a vs).port = s.port :=
  s.setMem_port _ _
@[simp] theorem State.writeBytes_responses (b : Buf) (a : Nat) (vs : List Byte) : (s.writeBytes b a vs).responses = s.responses :=
  s.setMem_responses _ _
@[simp] theorem State.writeBytes_host (b : Buf) (a : Nat) (vs : List Byte) : (s.writeBytes b a vs).host = s.host :=
  s.setMem_host _ _
@[simp] theorem State.writeBytes_freeCount (b : Buf) (a : Nat) (vs : List Byte) : (s.writeBytes b a vs).freeCount = s.freeCount :=
  s.setMem_freeCount _ _
@[simp] theorem State.writeBytes_sig (b : Buf) (a : Nat) (vs : List Byte) : (s.writeBytes b a vs).sig = s.sig :=
  s.setMem_sig _ _
@[simp] theorem State.setBit_status (b : Buf) (p : Nat) (v : Bool) : (s.setBit b p v).status = s.status :=
  s.setMem_status _ _
@[simp] theorem State.setBit_fcause (b : Buf) (p : Nat) (v : Bool) : (s.setBit b p v).fcause = s.fcause :=
  s.setMem_fcause _ _
@[simp] theorem State.setBit_fidx (b : Buf) (p : Nat) (v : Bool) : (s.setBit b p v).fidx = s.fidx :=
  s.setMem_fidx _ _
@[simp] theorem State.setBit_fcmd0 (b : Buf) (p : Nat) (v : Bool) : (s.setBit b p v).fcmd0 = s.fcmd0 :=
  s.setMem_fcmd0 _ _
@[simp] theorem State.setBit_fcmd1 (b : Buf) (p : Nat) (v : Bool) : (s.setBit b p v).fcmd1 = s.fcmd1 :=
  s.setMem_fcmd1 _ _
@[simp] theorem State.setBit_fcmd2 (b : Buf) (p : Nat) (v : Bool) : (s.setBit b p v).fcmd2 = s.fcmd2 :=
  s.setMem_fcmd2 _ _
@[simp] theorem State.setBit_result (b : Buf) (p : Nat) (v : Bool) : (s.setBit b p v).result = s.result :=
  s.setMem_result _ _
@[simp] theorem State.setBit_fixlog (b : Buf) (p : Nat) (v : Bool) : (s.setBit b p v).fixlog = s.fixlog :=
  s.setMem_fixlog _ _
@[simp] theorem State.setBit_cmdcnt (b : Buf) (p : Nat) (v : Bool) : (s.setBit b p v).cmdcnt = s.cmdcnt :=
  s.setMem_cmdcnt _ _
@[simp] theorem State.setBit_rlen (b : Buf) (p : Nat) (v : Bool) : (s.setBit b p v).rlen = s.rlen :=
  s.setMem_rlen _ _
@[simp] theorem State.setBit_rw (b : Buf) (p : Nat) (v : Bool) : (s.setBit b p v).rw = s.rw :=
  s.setMem_rw _ _
@[simp] theorem State.setBit_rh (b : Buf) (p : Nat) (v : Bool) : (s.setBit b p v).rh = s.rh :=
  s.setMem_rh _ _
@[simp] theorem State.setBit_port (b : Buf) (p : Nat) (v : Bool) : (s.setBit b p v).port = s.port :=
  s.setMem_port _ _
@[simp] theorem State.setBit_responses (b : Buf) (p : Nat) (v : Bool) : (s.setBit b p v).responses = s.responses :=
  s.setMem_responses _ _
@[simp] theorem State.setBit_host (b : Buf) (p : Nat) (v : Bool) : (s.setBit b p v).host = s.host :=
  s.setMem_host _ _
@[simp] theorem State.setBit_freeCount (b : Buf) (p : Nat) (v : Bool) : (s.setBit b p v).freeCount = s.freeCount :=
  s.setMem_freeCount _ _
@[simp] theorem State.setBit_sig (b : Buf) (p : Nat) (v : Bool) : (s.setBit b p v).sig = s.sig :=
  s.setMem_sig _ _
@[simp] theorem State.writeField16_status (a : Nat) (v : BitVec 16) : (s.writeField16 a v).status = s.status := by
  simp [State.writeField16]
@[simp] theorem State.writeField16_fcause (a : Nat) (v : BitVec 16) : (s.writeField16 a v).fcause = s.fcause := by
  simp [State.writeField16]
@[simp] theorem State.writeField16_fidx (a : Nat) (v : BitVec 16) : (s.writeField16 a v).fidx = s.fidx := by
  simp [State.writeField16]
@[simp] theorem State.writeField16_fcmd0 (a : Nat) (v : BitVec 16) : (s.writeField16 a v).fcmd0 = s.fcmd0 := by
  simp [State.writeField16]
@[simp] theorem State.writeField16_fcmd1 (a : Nat) (v : BitVec 16) : (s.writeField16 a v).fcmd1 = s.fcmd1 := by
  simp [State.writeField16]
@[simp] theorem State.writeField16_fcmd2 (a : Nat) (v : BitVec 16) : (s.writeField16 a v).fcmd2 = s.fcmd2 := by
  simp [State.writeField16]
@[simp] theorem State.writeField16_result (a : Nat) (v : BitVec 16) : (s.writeField16 a v).result = s.result := by
  simp [State.writeField16]
@[simp] theorem State.writeField16_fixlog (a : Nat) (v : BitVec 16) : (s.writeField16 a v).fixlog = s.fixlog := by
  simp [State.writeField16]
@[simp] theorem State.writeField16_cmdcnt (a : Nat) (v : BitVec 16) : (s.writeField16 a v).cmdcnt = s.cmdcnt := by
  simp [State.writeField16]
@[simp] theorem State.writeField16_rlen (a : Nat) (v : BitVec 16) : (s.writeField16 a v).rlen = s.rlen := by
  simp [State.writeField16]
@[simp] theorem State.writeField16_rw (a : Nat) (v : BitVec 16) : (s.writeField16 a v).rw = s.rw := by
  simp [State.writeField16]
@[simp] theorem State.writeField16_rh (a : Nat) (v : BitVec 16) : (s.writeField16 a v).rh = s.rh := by
  simp [State.writeField16]
@[simp] theorem State.writeField16_port (a : Nat) (v : BitVec 16) : (s.writeField16 a v).port = s.port := by
  simp [State.writeField16]
@[simp] theorem State.writeField16_responses (a : Nat) (v : BitVec 16) : (s.writeField16 a v).responses = s.responses := by
  simp [State.writeField16]
@[simp] theorem State.writeField16_host (a : Nat) (v : BitVec 16) : (s.writeField16 a v).host = s.host := by
  simp [State.writeField16]
@[simp] theorem State.writeField16_freeCount (a : Nat) (v : BitVec 16) : (s.writeField16 a v).freeCount = s.freeCount := by
  simp [State.writeField16]
@[simp] theorem State.writeField16_sig (a : Nat) (v : BitVec 16) : (s.writeField16 a v).sig = s.sig := by
  simp [State.writeField16]

/-- What every single-bit write keeps, a field write keeps. -/
theorem State.bitWrite_keeps {α : Type} (f : State → α) (b : Buf) (h : ∀ t p v, f (State.setBit t b p v) = f t)
    (off w : Nat) (v : Word32) : f (s.bitWrite b off w v) = f s := by
  unfold State.bitWrite
  induction List.range w generalizing s with
  | nil => rfl
  | cons i l ih => rw [List.foldl_cons, ih, h]

@[simp] theorem State.bitWrite_status (b : Buf) (off w : Nat) (v : Word32) : (s.bitWrite b off w v).status = s.status :=
  s.bitWrite_keeps (·.status) b (fun _ _ _ => by simp) off w v
@[simp] theorem State.bitWrite_fcause (b : Buf) (off w : Nat) (v : Word32) : (s.bitWrite b off w v).fcause = s.fcause :=
  s.bitWrite_keeps (·.fcause) b (fun _ _ _ => by simp) off w v
@[simp] theorem State.bitWrite_fidx (b : Buf) (off w : Nat) (v : Word32) : (s.bitWrite b off w v).fidx = s.fidx :=
  s.bitWrite_keeps (·.fidx) b (fun _ _ _ => by simp) off w v
@[simp] theorem State.bitWrite_fcmd0 (b : Buf) (off w : Nat) (v : Word32) : (s.bitWrite b off w v).fcmd0 = s.fcmd0 :=
  s.bitWrite_keeps (·.fcmd0) b (fun _ _ _ => by simp) off w v
@[simp] theorem State.bitWrite_fcmd1 (b : Buf) (off w : Nat) (v : Word32) : (s.bitWrite b off w v).fcmd1 = s.fcmd1 :=
  s.bitWrite_keeps (·.fcmd1) b (fun _ _ _ => by simp) off w v
@[simp] theorem State.bitWrite_fcmd2 (b : Buf) (off w : Nat) (v : Word32) : (s.bitWrite b off w v).fcmd2 = s.fcmd2 :=
  s.bitWrite_keeps (·.fcmd2) b (fun _ _ _ => by simp) off w v
@[simp] theorem State.bitWrite_result (b : Buf) (off w : Nat) (v : Word32) : (s.bitWrite b off w v).result = s.result :=
  s.bitWrite_keeps (·.result) b (fun _ _ _ => by simp) off w v
@[simp] theorem State.bitWrite_fixlog (b : Buf) (off w : Nat) (v : Word32) : (s.bitWrite b off w v).fixlog = s.fixlog :=
  s.bitWrite_keeps (·.fixlog) b (fun _ _ _ => by simp) off w v
@[simp] theorem State.bitWrite_cmdcnt (b : Buf) (off w : Nat) (v : Word32) : (s.bitWrite b off w v).cmdcnt = s.cmdcnt :=
  s.bitWrite_keeps (·.cmdcnt) b (fun _ _ _ => by simp) off w v
@[simp] theorem State.bitWrite_rlen (b : Buf) (off w : Nat) (v : Word32) : (s.bitWrite b off w v).rlen = s.rlen :=
  s.bitWrite_keeps (·.rlen) b (fun _ _ _ => by simp) off w v
@[simp] theorem State.bitWrite_rw (b : Buf) (off w : Nat) (v : Word32) : (s.bitWrite b off w v).rw = s.rw :=
  s.bitWrite_keeps (·.rw) b (fun _ _ _ => by simp) off w v
@[simp] theorem State.bitWrite_rh (b : Buf) (off w : Nat) (v : Word32) : (s.bitWrite b off w v).rh = s.rh :=
  s.bitWrite_keeps (·.rh) b (fun _ _ _ => by simp) off w v
@[simp] theorem State.bitWrite_port (b : Buf) (off w : Nat) (v : Word32) : (s.bitWrite b off w v).port = s.port :=
  s.bitWrite_keeps (·.port) b (fun _ _ _ => by simp) off w v
@[simp] theorem State.bitWrite_responses (b : Buf) (off w : Nat) (v : Word32) : (s.bitWrite b off w v).responses = s.responses :=
  s.bitWrite_keeps (·.responses) b (fun _ _ _ => by simp) off w v
@[simp] theorem State.bitWrite_host (b : Buf) (off w : Nat) (v : Word32) : (s.bitWrite b off w v).host = s.host :=
  s.bitWrite_keeps (·.host) b (fun _ _ _ => by simp) off w v
@[simp] theorem State.bitWrite_freeCount (b : Buf) (off w : Nat) (v : Word32) : (s.bitWrite b off w v).freeCount = s.freeCount :=
  s.bitWrite_keeps (·.freeCount) b (fun _ _ _ => by simp) off w v
@[simp] theorem State.bitWrite_sig (b : Buf) (off w : Nat) (v : Word32) : (s.bitWrite b off w v).sig = s.sig :=
  s.bitWrite_keeps (·.sig) b (fun _ _ _ => by simp) off w v

/-! ### The other buffer -/

@[simp] theorem State.writeByte_save_raster (a : Nat) (v : Byte) : (s.writeByte .save a v).raster = s.raster := rfl
@[simp] theorem State.writeByte_raster_save (a : Nat) (v : Byte) : (s.writeByte .raster a v).save = s.save := rfl
@[simp] theorem State.writeBytes_save_raster (a : Nat) (vs : List Byte) : (s.writeBytes .save a vs).raster = s.raster := rfl
@[simp] theorem State.writeBytes_raster_save (a : Nat) (vs : List Byte) : (s.writeBytes .raster a vs).save = s.save := rfl
@[simp] theorem State.setBit_save_raster (p : Nat) (v : Bool) : (s.setBit .save p v).raster = s.raster := rfl
@[simp] theorem State.setBit_raster_save (p : Nat) (v : Bool) : (s.setBit .raster p v).save = s.save := rfl
@[simp] theorem State.writeField16_raster (a : Nat) (v : BitVec 16) : (s.writeField16 a v).raster = s.raster := rfl
@[simp] theorem State.bitWrite_save_raster (off w : Nat) (v : Word32) : (s.bitWrite .save off w v).raster = s.raster :=
  s.bitWrite_keeps (·.raster) .save (fun _ _ _ => by simp) off w v
@[simp] theorem State.bitWrite_raster_save (off w : Nat) (v : Word32) : (s.bitWrite .raster off w v).save = s.save :=
  s.bitWrite_keeps (·.save) .raster (fun _ _ _ => by simp) off w v

/-! ### The image and the repairs -/

@[simp] theorem State.embedImage_status (slot : Nat) : (s.embedImage slot).status = s.status := by
  simp [State.embedImage]
@[simp] theorem State.embedImage_fcause (slot : Nat) : (s.embedImage slot).fcause = s.fcause := by
  simp [State.embedImage]
@[simp] theorem State.embedImage_fidx (slot : Nat) : (s.embedImage slot).fidx = s.fidx := by
  simp [State.embedImage]
@[simp] theorem State.embedImage_fcmd0 (slot : Nat) : (s.embedImage slot).fcmd0 = s.fcmd0 := by
  simp [State.embedImage]
@[simp] theorem State.embedImage_fcmd1 (slot : Nat) : (s.embedImage slot).fcmd1 = s.fcmd1 := by
  simp [State.embedImage]
@[simp] theorem State.embedImage_fcmd2 (slot : Nat) : (s.embedImage slot).fcmd2 = s.fcmd2 := by
  simp [State.embedImage]
@[simp] theorem State.embedImage_result (slot : Nat) : (s.embedImage slot).result = s.result := by
  simp [State.embedImage]
@[simp] theorem State.embedImage_fixlog (slot : Nat) : (s.embedImage slot).fixlog = s.fixlog := by
  simp [State.embedImage]
@[simp] theorem State.embedImage_cmdcnt (slot : Nat) : (s.embedImage slot).cmdcnt = s.cmdcnt := by
  simp [State.embedImage]
@[simp] theorem State.embedImage_rlen (slot : Nat) : (s.embedImage slot).rlen = s.rlen := by
  simp [State.embedImage]
@[simp] theorem State.embedImage_rw (slot : Nat) : (s.embedImage slot).rw = s.rw := by
  simp [State.embedImage]
@[simp] theorem State.embedImage_rh (slot : Nat) : (s.embedImage slot).rh = s.rh := by
  simp [State.embedImage]
@[simp] theorem State.embedImage_port (slot : Nat) : (s.embedImage slot).port = s.port := by
  simp [State.embedImage]
@[simp] theorem State.embedImage_responses (slot : Nat) : (s.embedImage slot).responses = s.responses := by
  simp [State.embedImage]
@[simp] theorem State.embedImage_host (slot : Nat) : (s.embedImage slot).host = s.host := by
  simp [State.embedImage]
@[simp] theorem State.embedImage_freeCount (slot : Nat) : (s.embedImage slot).freeCount = s.freeCount := by
  simp [State.embedImage]
@[simp] theorem State.embedImage_sig (slot : Nat) : (s.embedImage slot).sig = s.sig := by
  simp [State.embedImage]
@[simp] theorem State.embedImage_raster (slot : Nat) : (s.embedImage slot).raster = s.raster := by
  simp [State.embedImage]
@[simp] theorem State.repairRegion_status (r : Fin 8) : (s.repairRegion r).status = s.status := by
  unfold State.repairRegion; split <;> simp
@[simp] theorem State.repairRegion_fcause (r : Fin 8) : (s.repairRegion r).fcause = s.fcause := by
  unfold State.repairRegion; split <;> simp
@[simp] theorem State.repairRegion_fidx (r : Fin 8) : (s.repairRegion r).fidx = s.fidx := by
  unfold State.repairRegion; split <;> simp
@[simp] theorem State.repairRegion_fcmd0 (r : Fin 8) : (s.repairRegion r).fcmd0 = s.fcmd0 := by
  unfold State.repairRegion; split <;> simp
@[simp] theorem State.repairRegion_fcmd1 (r : Fin 8) : (s.repairRegion r).fcmd1 = s.fcmd1 := by
  unfold State.repairRegion; split <;> simp
@[simp] theorem State.repairRegion_fcmd2 (r : Fin 8) : (s.repairRegion r).fcmd2 = s.fcmd2 := by
  unfold State.repairRegion; split <;> simp
@[simp] theorem State.repairRegion_result (r : Fin 8) : (s.repairRegion r).result = s.result := by
  unfold State.repairRegion; split <;> simp
@[simp] theorem State.repairRegion_fixlog (r : Fin 8) : (s.repairRegion r).fixlog = s.fixlog := by
  unfold State.repairRegion; split <;> simp
@[simp] theorem State.repairRegion_cmdcnt (r : Fin 8) : (s.repairRegion r).cmdcnt = s.cmdcnt := by
  unfold State.repairRegion; split <;> simp
@[simp] theorem State.repairRegion_rlen (r : Fin 8) : (s.repairRegion r).rlen = s.rlen := by
  unfold State.repairRegion; split <;> simp
@[simp] theorem State.repairRegion_rw (r : Fin 8) : (s.repairRegion r).rw = s.rw := by
  unfold State.repairRegion; split <;> simp
@[simp] theorem State.repairRegion_rh (r : Fin 8) : (s.repairRegion r).rh = s.rh := by
  unfold State.repairRegion; split <;> simp
@[simp] theorem State.repairRegion_port (r : Fin 8) : (s.repairRegion r).port = s.port := by
  unfold State.repairRegion; split <;> simp
@[simp] theorem State.repairRegion_responses (r : Fin 8) : (s.repairRegion r).responses = s.responses := by
  unfold State.repairRegion; split <;> simp
@[simp] theorem State.repairRegion_host (r : Fin 8) : (s.repairRegion r).host = s.host := by
  unfold State.repairRegion; split <;> simp
@[simp] theorem State.repairRegion_freeCount (r : Fin 8) : (s.repairRegion r).freeCount = s.freeCount := by
  unfold State.repairRegion; split <;> simp
@[simp] theorem State.repairRegion_sig (r : Fin 8) : (s.repairRegion r).sig = s.sig := by
  unfold State.repairRegion; split <;> simp
@[simp] theorem State.repairRegion_raster (r : Fin 8) : (s.repairRegion r).raster = s.raster := by
  unfold State.repairRegion; split <;> simp

/-- What every repair keeps, a list of repairs keeps. -/
theorem State.repairAll_keeps {α : Type} (f : State → α) (h : ∀ t r, f (State.repairRegion t r) = f t) (m : BitVec 8)
    (rs : List (Fin 8)) : f (s.repairAll m rs).1 = f s := by
  induction rs generalizing s m with
  | nil => rfl
  | cons r rs ih => rw [State.repairAll, ih, h]

@[simp] theorem State.repairAll_status (m : BitVec 8) (rs : List (Fin 8)) : (s.repairAll m rs).1.status = s.status :=
  s.repairAll_keeps (·.status) (fun _ _ => by simp) m rs
@[simp] theorem State.repairAll_fcause (m : BitVec 8) (rs : List (Fin 8)) : (s.repairAll m rs).1.fcause = s.fcause :=
  s.repairAll_keeps (·.fcause) (fun _ _ => by simp) m rs
@[simp] theorem State.repairAll_fidx (m : BitVec 8) (rs : List (Fin 8)) : (s.repairAll m rs).1.fidx = s.fidx :=
  s.repairAll_keeps (·.fidx) (fun _ _ => by simp) m rs
@[simp] theorem State.repairAll_fcmd0 (m : BitVec 8) (rs : List (Fin 8)) : (s.repairAll m rs).1.fcmd0 = s.fcmd0 :=
  s.repairAll_keeps (·.fcmd0) (fun _ _ => by simp) m rs
@[simp] theorem State.repairAll_fcmd1 (m : BitVec 8) (rs : List (Fin 8)) : (s.repairAll m rs).1.fcmd1 = s.fcmd1 :=
  s.repairAll_keeps (·.fcmd1) (fun _ _ => by simp) m rs
@[simp] theorem State.repairAll_fcmd2 (m : BitVec 8) (rs : List (Fin 8)) : (s.repairAll m rs).1.fcmd2 = s.fcmd2 :=
  s.repairAll_keeps (·.fcmd2) (fun _ _ => by simp) m rs
@[simp] theorem State.repairAll_result (m : BitVec 8) (rs : List (Fin 8)) : (s.repairAll m rs).1.result = s.result :=
  s.repairAll_keeps (·.result) (fun _ _ => by simp) m rs
@[simp] theorem State.repairAll_fixlog (m : BitVec 8) (rs : List (Fin 8)) : (s.repairAll m rs).1.fixlog = s.fixlog :=
  s.repairAll_keeps (·.fixlog) (fun _ _ => by simp) m rs
@[simp] theorem State.repairAll_cmdcnt (m : BitVec 8) (rs : List (Fin 8)) : (s.repairAll m rs).1.cmdcnt = s.cmdcnt :=
  s.repairAll_keeps (·.cmdcnt) (fun _ _ => by simp) m rs
@[simp] theorem State.repairAll_rlen (m : BitVec 8) (rs : List (Fin 8)) : (s.repairAll m rs).1.rlen = s.rlen :=
  s.repairAll_keeps (·.rlen) (fun _ _ => by simp) m rs
@[simp] theorem State.repairAll_rw (m : BitVec 8) (rs : List (Fin 8)) : (s.repairAll m rs).1.rw = s.rw :=
  s.repairAll_keeps (·.rw) (fun _ _ => by simp) m rs
@[simp] theorem State.repairAll_rh (m : BitVec 8) (rs : List (Fin 8)) : (s.repairAll m rs).1.rh = s.rh :=
  s.repairAll_keeps (·.rh) (fun _ _ => by simp) m rs
@[simp] theorem State.repairAll_port (m : BitVec 8) (rs : List (Fin 8)) : (s.repairAll m rs).1.port = s.port :=
  s.repairAll_keeps (·.port) (fun _ _ => by simp) m rs
@[simp] theorem State.repairAll_responses (m : BitVec 8) (rs : List (Fin 8)) : (s.repairAll m rs).1.responses = s.responses :=
  s.repairAll_keeps (·.responses) (fun _ _ => by simp) m rs
@[simp] theorem State.repairAll_host (m : BitVec 8) (rs : List (Fin 8)) : (s.repairAll m rs).1.host = s.host :=
  s.repairAll_keeps (·.host) (fun _ _ => by simp) m rs
@[simp] theorem State.repairAll_freeCount (m : BitVec 8) (rs : List (Fin 8)) : (s.repairAll m rs).1.freeCount = s.freeCount :=
  s.repairAll_keeps (·.freeCount) (fun _ _ => by simp) m rs
@[simp] theorem State.repairAll_sig (m : BitVec 8) (rs : List (Fin 8)) : (s.repairAll m rs).1.sig = s.sig :=
  s.repairAll_keeps (·.sig) (fun _ _ => by simp) m rs
@[simp] theorem State.repairAll_raster (m : BitVec 8) (rs : List (Fin 8)) : (s.repairAll m rs).1.raster = s.raster :=
  s.repairAll_keeps (·.raster) (fun _ _ => by simp) m rs

/-! ### Mode and length through the updates -/

@[simp] theorem State.complete_faulted (d : Word32) : (s.complete d).faulted = s.faulted := rfl
@[simp] theorem State.complete_busy (d : Word32) : (s.complete d).busy = s.busy := rfl
@[simp] theorem State.orFixlog_faulted (m : BitVec 8) : (s.orFixlog m).faulted = s.faulted := rfl
@[simp] theorem State.raise_faulted (cause : Cause) (c : Command) : (s.raise cause c).faulted = true := by
  simp [State.faulted]
@[simp] theorem State.raise_busy (cause : Cause) (c : Command) : (s.raise cause c).busy = s.busy := by
  simp [State.busy]
@[simp] theorem State.applyReset_faulted : s.applyReset.faulted = false := by simp [State.faulted]
@[simp] theorem State.applyReset_busy : s.applyReset.busy = false := by simp [State.busy]
@[simp] theorem State.setMem_len (b c : Buf) (m : Memory) : (s.setMem b m).len c = s.len c := by
  cases b <;> cases c <;> rfl

end Sys2Proof.Machine
end

