-- ==== Sys2Proof/Laws/BitIO.lean ====
section
/-! SUPPORT. What byte, block, bit and field access do to what the two buffers read as, each said once. -/

namespace Sys2Proof.Machine

variable (s : State)

/-! ### Bytes -/

theorem State.readByte_setMem (b c : Buf) (m : Memory) (x : Nat) :
    (s.setMem b m).readByte c x = if c = b then Memory.read b m x else s.readByte c x := by
  unfold State.readByte
  rw [State.setMem_mem_eq]
  split_ifs with h
  · rw [h]
  · rfl

/-- A byte write is read back at its address and nowhere else. -/
theorem State.readByte_writeByte (b c : Buf) (a x : Nat) (v : Byte) :
    (s.writeByte b a v).readByte c x = if c = b ∧ x = a then v else s.readByte c x := by
  rw [State.writeByte, State.readByte_setMem]
  by_cases h : c = b
  · subst h
    simp only [true_and, if_true, Memory.read_write]
    rfl
  · simp [h]

/-- A block write is read back in its range and nowhere else. -/
theorem State.readByte_writeBytes (b c : Buf) (a x : Nat) (vs : List Byte) :
    (s.writeBytes b a vs).readByte c x =
      if h : c = b ∧ a ≤ x ∧ x - a < vs.length then vs[x - a]'h.2.2 else s.readByte c x := by
  rw [State.writeBytes, State.readByte_setMem]
  by_cases h : c = b
  · subst h
    simp only [true_and, if_true, Memory.read_splice]
    rfl
  · simp [h]

/-- A block read is its bytes read one by one. -/
theorem State.readBytes_eq_map (b : Buf) (a n : Nat) :
    s.readBytes b a n = (List.range n).map (fun k => s.readByte b (a + k)) :=
  Memory.slice_eq_map b (s.mem b) a n

@[simp] theorem State.length_readBytes (b : Buf) (a n : Nat) : (s.readBytes b a n).length = n :=
  Memory.length_slice _ _ _ _

@[simp] theorem State.getElem_readBytes (b : Buf) (a n k : Nat) (h : k < (s.readBytes b a n).length) :
    (s.readBytes b a n)[k] = s.readByte b (a + k) := by
  simp [State.readBytes_eq_map]

/-- Block reads agree where their bytes do. -/
theorem State.readBytes_congr {t : State} {b : Buf} {a n : Nat}
    (h : ∀ x, a ≤ x → x < a + n → t.readByte b x = s.readByte b x) : t.readBytes b a n = s.readBytes b a n := by
  rw [State.readBytes_eq_map, State.readBytes_eq_map]
  exact List.map_congr_left fun k hk => h _ (by omega) (by have := List.mem_range.1 hk; omega)

/-- A block written is read back whole. -/
theorem State.readBytes_writeBytes (b : Buf) (a : Nat) (vs : List Byte) :
    (s.writeBytes b a vs).readBytes b a vs.length = vs := by
  refine List.ext_getElem (by simp) fun k _ hk => ?_
  rw [State.getElem_readBytes, State.readByte_writeBytes, dif_pos ⟨rfl, by omega, by omega⟩]
  simp

/-! ### What leaves the buffers alone -/

@[simp] theorem State.readByte_complete (d : Word32) (b : Buf) (a : Nat) : (s.complete d).readByte b a = s.readByte b a := by
  cases b <;> rfl

@[simp] theorem State.readByte_orFixlog (m : BitVec 8) (b : Buf) (a : Nat) :
    (s.orFixlog m).readByte b a = s.readByte b a := by
  cases b <;> rfl

@[simp] theorem State.readByte_raise (cause : Cause) (c : Command) (b : Buf) (a : Nat) :
    (s.raise cause c).readByte b a = s.readByte b a := by
  cases b <;> rfl

@[simp] theorem State.readByte_applyReset (b : Buf) (a : Nat) : (s.applyReset).readByte b a = s.readByte b a := by
  cases b <;> rfl

/-! ### Bits -/

theorem bitMask_getLsbD (p k : Nat) (hk : k < 8) : (bitMask p).getLsbD k = decide (k = 7 - p % 8) := by
  have hp : p % 8 < 8 := Nat.mod_lt _ (by omega)
  unfold bitMask
  generalize p % 8 = q at hp
  interval_cases q <;> interval_cases k <;> rfl

/-- The byte SetBit writes: one bit set to `v`, the other seven as before (20_memory R53). -/
theorem setBit_byte (x : Byte) (p k : Nat) (v : Bool) (hk : k < 8) :
    ((x &&& ~~~(bitMask p)) ||| (if v then bitMask p else 0#8)).getLsbD k =
      if k = 7 - p % 8 then v else x.getLsbD k := by
  rw [BitVec.getLsbD_or, BitVec.getLsbD_and, BitVec.getLsbD_not, bitMask_getLsbD _ _ hk]
  have hv : (if v then bitMask p else 0#8).getLsbD k = (v && decide (k = 7 - p % 8)) := by
    cases v <;> simp [bitMask_getLsbD _ _ hk]
  rw [hv]
  by_cases h : k = 7 - p % 8 <;> cases v <;> simp [h, hk]

/-- A bit write is read back at its address and nowhere else (20_memory R52, R53). -/
theorem State.getBit_setBit (b c : Buf) (p q : Nat) (v : Bool) :
    (s.setBit b p v).getBit c q = if c = b ∧ q = p then v else s.getBit c q := by
  unfold State.getBit State.setBit
  rw [State.readByte_writeByte]
  by_cases hb : c = b ∧ q / 8 = p / 8
  · rw [if_pos hb, setBit_byte _ _ _ _ (by omega), hb.1, hb.2]
    by_cases hpq : q = p
    · rw [if_pos (by rw [hpq]), if_pos ⟨rfl, hpq⟩]
    · have := hb.2
      rw [if_neg (by omega), if_neg (by tauto)]
  · rw [if_neg hb, if_neg (by rintro ⟨rfl, rfl⟩; exact hb ⟨rfl, rfl⟩)]

/-- A fold of bit writes over the first `n` indices of a field of width `w`. -/
theorem State.getBit_foldl_setBit (b c : Buf) (off w n q : Nat) (v : Word32) :
    ((List.range n).foldl (fun t i => t.setBit b (off + i) (v.getLsbD (w - 1 - i))) s).getBit c q =
      if c = b ∧ off ≤ q ∧ q < off + n then v.getLsbD (w - 1 - (q - off)) else s.getBit c q := by
  induction n with
  | zero => rw [if_neg (by omega)]; rfl
  | succ n ih =>
    rw [List.range_succ, List.foldl_append]
    simp only [List.foldl_cons, List.foldl_nil]
    rw [State.getBit_setBit, ih]
    by_cases h : c = b ∧ q = off + n
    · obtain ⟨rfl, rfl⟩ := h
      rw [if_pos ⟨rfl, rfl⟩, if_pos ⟨rfl, by omega, by omega⟩, Nat.add_sub_cancel_left]
    · rw [if_neg h]
      by_cases h2 : c = b ∧ off ≤ q ∧ q < off + n
      · rw [if_pos h2, if_pos ⟨h2.1, h2.2.1, by omega⟩]
      · rw [if_neg h2, if_neg]
        rintro ⟨rfl, h3, h4⟩
        exact h2 ⟨rfl, h3, by
          have : q ≠ off + n := fun e => h ⟨rfl, e⟩
          omega⟩

/-- WHAT A FIELD WRITE DOES: bit `w-1-(q-off)` of the value at each bit address `q` of the field, nothing elsewhere
(40_bitio R113). -/
theorem State.getBit_bitWrite (b c : Buf) (off w q : Nat) (v : Word32) :
    (s.bitWrite b off w v).getBit c q =
      if c = b ∧ off ≤ q ∧ q < off + w then v.getLsbD (w - 1 - (q - off)) else s.getBit c q :=
  s.getBit_foldl_setBit b c off w w q v

/-- Two bytes with the same eight bits are the same byte. -/
theorem State.readByte_congr {t : State} {b c : Buf} {a x : Nat}
    (h : ∀ k, k < 8 → t.getBit b (8 * a + k) = s.getBit c (8 * x + k)) : t.readByte b a = s.readByte c x := by
  refine BitVec.eq_of_getLsbD_eq fun i hi => ?_
  have := h (7 - i) (by omega)
  unfold State.getBit at this
  rwa [show (8 * a + (7 - i)) / 8 = a by omega, show (8 * x + (7 - i)) / 8 = x by omega,
    show 7 - (8 * a + (7 - i)) % 8 = i by omega, show 7 - (8 * x + (7 - i)) % 8 = i by omega] at this

/-- Bytes a field write does not touch. -/
theorem State.readByte_bitWrite_of_outside (b c : Buf) (off w a : Nat) (v : Word32)
    (h : c ≠ b ∨ 8 * a + 8 ≤ off ∨ off + w ≤ 8 * a) : (s.bitWrite b off w v).readByte c a = s.readByte c a := by
  refine s.readByte_congr fun k hk => ?_
  rw [State.getBit_bitWrite, if_neg]
  rintro ⟨rfl, h1, h2⟩
  rcases h with h | h | h
  · exact h rfl
  · omega
  · omega

/-! ### Fields -/

@[simp] theorem State.bitRead_zero (b : Buf) (off : Nat) : s.bitRead b off 0 = 0 := rfl

/-- One more bit at the end of a field: twice what stands before it, plus the bit. -/
theorem State.bitRead_succ (b : Buf) (off w : Nat) :
    s.bitRead b off (w + 1) = 2 * s.bitRead b off w + (s.getBit b (off + w)).toNat := by
  unfold State.bitRead
  rw [List.range_succ, List.map_append, List.sum_append]
  simp only [List.map_cons, List.map_nil, List.sum_cons, List.sum_nil, Nat.add_zero, Nat.add_sub_cancel, Nat.sub_self,
    Nat.pow_zero, Nat.mul_one]
  congr 1
  rw [← List.sum_map_mul_left]
  refine congrArg _ (List.map_congr_left fun i hi => ?_)
  have := List.mem_range.1 hi
  rw [show w - i = (w - 1 - i) + 1 by omega, Nat.pow_succ]
  ring

/-- The result of a field read fits the field (40_bitio R111). -/
theorem State.bitRead_lt (b : Buf) (off w : Nat) : s.bitRead b off w < 2 ^ w := by
  induction w with
  | zero => simp
  | succ w ih =>
    rw [State.bitRead_succ, Nat.pow_succ]
    have : (s.getBit b (off + w)).toNat ≤ 1 := Bool.toNat_le _
    omega

/-- Every bit of a field read: bit `w-1-i` of the result is the bit at bit address `off + i` (20_memory R54). -/
theorem State.testBit_bitRead (b : Buf) (off w k : Nat) :
    (s.bitRead b off w).testBit k = (decide (k < w) && s.getBit b (off + (w - 1 - k))) := by
  induction w generalizing k with
  | zero => simp
  | succ w ih =>
    rw [State.bitRead_succ]
    cases k with
    | zero =>
      cases h : s.getBit b (off + w) <;> simp [Nat.testBit_zero, Nat.add_mod, h]
    | succ k =>
      have h2 : (2 * s.bitRead b off w + (s.getBit b (off + w)).toNat) / 2 = s.bitRead b off w := by
        have : (s.getBit b (off + w)).toNat ≤ 1 := Bool.toNat_le _
        omega
      rw [Nat.testBit_succ, h2, ih]
      by_cases hk : k < w
      · simp [hk, show w - (k + 1) = w - 1 - k by omega]
      · simp [hk]

/-- Field reads agree where their bits do. -/
theorem State.bitRead_congr {t : State} {b : Buf} {off w : Nat}
    (h : ∀ q, off ≤ q → q < off + w → t.getBit b q = s.getBit b q) : t.bitRead b off w = s.bitRead b off w := by
  unfold State.bitRead
  refine congrArg _ (List.map_congr_left fun i hi => ?_)
  have := List.mem_range.1 hi
  rw [h _ (by omega) (by omega)]

/-! ### The memory operations keep the canonical form -/

/-- What a single-byte write at an address below `n` keeps, a field write inside `n` bytes keeps. -/
theorem State.bitWrite_mem_induction {P : Memory → Prop} {b : Buf} {n : Nat}
    (hP : ∀ m a v, a < n → P m → P (Memory.write m a v)) (off w : Nat) (v : Word32) (hn : off + w ≤ 8 * n)
    (h : P (s.mem b)) : P ((s.bitWrite b off w v).mem b) := by
  unfold State.bitWrite
  suffices ∀ l : List Nat, (∀ i ∈ l, i < w) →
      P ((l.foldl (fun t i => t.setBit b (off + i) (v.getLsbD (w - 1 - i))) s).mem b) from
    this _ fun i hi => List.mem_range.1 hi
  intro l hl
  induction l generalizing s with
  | nil => exact h
  | cons i l ih =>
    have hi := hl i List.mem_cons_self
    refine ih _ ?_ fun j hj => hl j (List.mem_cons_of_mem _ hj)
    show P ((s.setMem b _).mem b)
    rw [State.setMem_mem]
    exact hP _ _ _ (by omega) h

theorem State.wf_bitWrite (b : Buf) (off w : Nat) (v : Word32) (h : Memory.wf (s.mem b)) :
    Memory.wf ((s.bitWrite b off w v).mem b) :=
  s.bitWrite_mem_induction (P := Memory.wf) (n := off + w) (fun _ a v _ hm => Memory.wf_write hm a v) off w v (by omega) h

theorem State.below_bitWrite (b : Buf) (n off w : Nat) (v : Word32) (hn : off + w ≤ 8 * n)
    (h : Memory.below n (s.mem b)) : Memory.below n ((s.bitWrite b off w v).mem b) :=
  s.bitWrite_mem_induction (P := Memory.below n) (fun _ _ v ha hm => Memory.below_write hm ha v) off w v hn h

/-! ### The commands -/

/-- WHAT THE SHARED CHECKS CAN ANSWER (40_bitio R115, R116; 60_exceptions R183). -/
theorem bitIOCheck_ok_iff {buf : BitVec 8} {off : Word32} {w : BitVec 8} {b : Buf} :
    bitIOCheck buf off w s = .ok b ↔
      bufOf buf = some b ∧ 1 ≤ w.toNat ∧ w.toNat ≤ 32 ∧ off.toNat + w.toNat ≤ 8 * s.len b := by
  unfold bitIOCheck
  cases h : bufOf buf with
  | none => simp
  | some c =>
    simp only [Config.wMax, Option.some.injEq]
    split_ifs with h1 h2
    · exact iff_of_false (by simp) (by omega)
    · exact iff_of_false (by simp) (by rintro ⟨rfl, h⟩; omega)
    · simp only [Except.ok.injEq]
      exact ⟨by rintro rfl; exact ⟨rfl, by omega, by omega, by omega⟩, fun h => h.1⟩

/-- What RDBITS can do. -/
theorem execRdbits_cases {buf : BitVec 8} {off : Word32} {w : BitVec 8} {t : State}
    (h : execRdbits buf off w s = .next t) :
    (∃ cause, bitIOCheck buf off w s = .error cause ∧ t = s.raise cause (encode (.rdbits buf off w))) ∨
    (∃ b, bitIOCheck buf off w s = .ok b ∧ t = s.complete (BitVec.ofNat 32 (s.bitRead b off.toNat w.toNat))) := by
  unfold execRdbits at h
  split at h <;> rename_i hc <;> cases h
  · exact .inl ⟨_, hc, rfl⟩
  · exact .inr ⟨_, hc, rfl⟩

/-- What WRBITS can do. -/
theorem execWrbits_cases {buf : BitVec 8} {off : Word32} {w : BitVec 8} {val : Word32} {t : State}
    (h : execWrbits buf off w val s = .next t) :
    (∃ cause, bitIOCheck buf off w s = .error cause ∧ t = s.raise cause (encode (.wrbits buf off w val))) ∨
    (∃ b, bitIOCheck buf off w s = .ok b ∧ t = (s.bitWrite b off.toNat w.toNat val).complete 0) := by
  unfold execWrbits at h
  split at h <;> rename_i hc <;> cases h
  · exact .inl ⟨_, hc, rfl⟩
  · exact .inr ⟨_, hc, rfl⟩

end Sys2Proof.Machine
end

