-- ==== Sys2Proof/Laws/Checksum.lean ====
section
/-! SUPPORT. What the repair of a region reads and writes (42_checksum R151 to R158). -/

namespace Sys2Proof.Machine

variable (s : State)

/-! ### The 16-bit field -/

/-- A 16-bit write: the high byte at `a`, the low byte at `a + 1`, nothing elsewhere (20_memory R55). -/
theorem State.readByte_writeField16 (a x : Nat) (c : Buf) (v : BitVec 16) :
    (s.writeField16 a v).readByte c x =
      if c = .save ∧ x = a then v.extractLsb' 8 8 else if c = .save ∧ x = a + 1 then v.extractLsb' 0 8
      else s.readByte c x := by
  unfold State.writeField16
  rw [State.readByte_writeByte, State.readByte_writeByte]
  split_ifs <;> first | rfl | omega

/-- A 16-bit write is read back (20_memory R55). -/
theorem State.readField16_writeField16 (a : Nat) (v : BitVec 16) : (s.writeField16 a v).readField16 a = v := by
  unfold State.readField16
  rw [State.readByte_writeField16, State.readByte_writeField16, if_pos ⟨rfl, rfl⟩, if_neg (by simp), if_pos ⟨rfl, rfl⟩]
  refine BitVec.eq_of_getLsbD_eq fun i hi => ?_
  rw [BitVec.getLsbD_append]
  split_ifs with h
  · simp [h]
  · simp [show i - 8 < 8 by omega, show 8 + (i - 8) = i by omega]

/-! ### What a region's functions depend on -/

/-- HasSig reads the six signature bytes and the parameter SIG (42_checksum R153). -/
theorem State.hasSig_congr {t : State} {r : Fin 8} (hsig : t.sig = s.sig)
    (h : ∀ x, sigAddr r ≤ x → x < sigAddr r + 6 → t.readByte .save x = s.readByte .save x) : t.hasSig r = s.hasSig r := by
  unfold State.hasSig
  rw [hsig, s.readBytes_congr h]

/-- HasSig, byte by byte (42_checksum R153). -/
theorem State.hasSig_iff (r : Fin 8) :
    s.hasSig r = true ↔ ∀ k, k < 6 → s.readByte .save (sigAddr r + k) = s.sig.bytes.getD k 0 := by
  unfold State.hasSig
  rw [beq_iff_eq, State.readBytes_eq_map]
  constructor
  · intro h k hk
    rw [← h]
    simp [hk]
  · intro h
    refine List.ext_getElem (by simp [Config.Signature.bytes]) fun k h1 h2 => ?_
    have hk : k < 6 := by simpa using h1
    rw [List.getElem_map, List.getElem_range, h k hk]
    simp [List.getD_eq_getElem?_getD, List.getElem?_eq_getElem h2]

/-- Stored reads the two field bytes (42_checksum R155). -/
theorem State.stored_congr {t : State} {r : Fin 8} (h0 : t.readByte .save (fieldAddr r) = s.readByte .save (fieldAddr r))
    (h1 : t.readByte .save (fieldAddr r + 1) = s.readByte .save (fieldAddr r + 1)) : t.stored r = s.stored r := by
  unfold State.stored State.readField16
  rw [h0, h1]

theorem sumBytes_append (l m : List Byte) : sumBytes (l ++ m) = sumBytes l + sumBytes m := by
  suffices ∀ (m : List Byte) (acc : BitVec 16),
      m.foldl (fun acc x => acc + x.setWidth 16) acc = acc + sumBytes m by
    unfold sumBytes
    rw [List.foldl_append, this, sumBytes]
  intro m
  induction m with
  | nil => intro acc; simp [sumBytes]
  | cons x m ih =>
    intro acc
    rw [sumBytes, List.foldl_cons, List.foldl_cons, ih, ih, BitVec.add_assoc]
    simp

@[simp] theorem sumBytes_nil : sumBytes [] = 0#16 := rfl

theorem sumBytes_cons (x : Byte) (l : List Byte) : sumBytes (x :: l) = x.setWidth 16 + sumBytes l := by
  have := sumBytes_append [x] l
  simpa [sumBytes] using this

theorem sumBytes_replicate_zero (n : Nat) : sumBytes (List.replicate n 0#8) = 0#16 := by
  induction n with
  | zero => rfl
  | succ n ih => rw [List.replicate_succ, sumBytes_cons, ih]; rfl

/-- The accumulator reduces once at the end as well as at every step (42_checksum R163). -/
theorem sumBytes_toNat (l : List Byte) : (sumBytes l).toNat = (l.map BitVec.toNat).sum % 65536 := by
  induction l with
  | nil => rfl
  | cons x l ih =>
    rw [sumBytes_cons, BitVec.toNat_add, ih, List.map_cons, List.sum_cons, BitVec.toNat_setWidth]
    have := x.isLt
    omega

/-- Sum16 reads the region's bytes (42_checksum R154, R161). -/
theorem State.sum16_congr {t : State} {r : Fin 8}
    (h : ∀ x, (Config.region r).start ≤ x → x < (Config.region r).start + (Config.region r).len →
      t.readByte .save x = s.readByte .save x)
    (h0 : t.readByte .save (fieldAddr r) = s.readByte .save (fieldAddr r))
    (h1 : t.readByte .save (fieldAddr r + 1) = s.readByte .save (fieldAddr r + 1)) : t.sum16 r = s.sum16 r := by
  unfold State.sum16
  rw [s.readBytes_congr h, h0, h1]

/-! ### The table of regions -/

/-- The signature and the field lie inside their region, the signature below the field (42_checksum R151, R152). -/
theorem region_layout (r : Fin 8) :
    (Config.region r).start ≤ sigAddr r ∧ sigAddr r + 6 ≤ fieldAddr r ∧
      fieldAddr r + 2 ≤ (Config.region r).start + (Config.region r).len ∧
      (Config.region r).start + (Config.region r).len ≤ 0x18000 := by
  revert r; decide

/-- The regions are disjoint and rise with the index (42_checksum R150). -/
theorem region_disjoint (r q : Fin 8) (h : r < q) :
    (Config.region r).start + (Config.region r).len ≤ (Config.region q).start := by
  revert r q; decide

/-! ### Repair -/

theorem State.needsRepair_iff (r : Fin 8) : s.needsRepair r = true ↔ s.hasSig r = true ∧ s.stored r ≠ s.sum16 r := by
  simp [State.needsRepair]

/-- WHAT A REPAIR DOES to one byte: the two field bytes of a region that needs it, nothing else
(42_checksum R157, R158). -/
theorem State.readByte_repairRegion (r : Fin 8) (c : Buf) (x : Nat) :
    (s.repairRegion r).readByte c x =
      if s.needsRepair r = true ∧ c = .save ∧ x = fieldAddr r then (s.sum16 r).extractLsb' 8 8
      else if s.needsRepair r = true ∧ c = .save ∧ x = fieldAddr r + 1 then (s.sum16 r).extractLsb' 0 8
      else s.readByte c x := by
  unfold State.repairRegion
  by_cases h : s.needsRepair r = true
  · simp only [h, true_and, if_true, State.readByte_writeField16]
  · simp only [h, false_and, if_false, Bool.false_eq_true]

/-- A repair touches only its region's field bytes. -/
theorem State.readByte_repairRegion_of_outside (r : Fin 8) (c : Buf) (x : Nat)
    (h : c ≠ .save ∨ x < fieldAddr r ∨ fieldAddr r + 2 ≤ x) : (s.repairRegion r).readByte c x = s.readByte c x := by
  rw [State.readByte_repairRegion, if_neg, if_neg]
  · rintro ⟨-, rfl, rfl⟩
    rcases h with h | h | h
    · exact h rfl
    · omega
    · omega
  · rintro ⟨-, rfl, rfl⟩
    rcases h with h | h | h
    · exact h rfl
    · omega
    · omega

/-- A region that needs no repair is left alone (42_checksum R158). -/
theorem State.repairRegion_of_not {r : Fin 8} (h : s.needsRepair r = false) : s.repairRegion r = s := by
  unfold State.repairRegion
  rw [h]
  rfl

/-- A pass over regions none of which has the signature does nothing (42_checksum R164). -/
theorem State.repairAll_of_unsigned (m : BitVec 8) (rs : List (Fin 8)) (h : ∀ r ∈ rs, s.hasSig r = false) :
    s.repairAll m rs = (s, m) := by
  induction rs with
  | nil => rfl
  | cons r rs ih =>
    have hn : s.needsRepair r = false := by rw [State.needsRepair, h r List.mem_cons_self, Bool.false_and]
    rw [State.repairAll, s.repairRegion_of_not hn, hn, show m ||| correctionBit r false = m from BitVec.or_zero]
    exact ih fun q hq => h q (List.mem_cons_of_mem _ hq)

theorem State.wf_repairRegion (r : Fin 8) (h : Memory.wf s.save) : Memory.wf (s.repairRegion r).save := by
  unfold State.repairRegion
  split_ifs
  · exact Memory.wf_write (Memory.wf_write h _ _) _ _
  · exact h

theorem State.below_repairRegion (r : Fin 8) (h : Memory.below Config.saveLen s.save) :
    Memory.below Config.saveLen (s.repairRegion r).save := by
  have := region_layout r
  unfold State.repairRegion
  split_ifs
  · exact Memory.below_write (Memory.below_write h (by simp only [Config.saveLen]; omega) _)
      (by simp only [Config.saveLen]; omega) _
  · exact h

/-! ### The commands -/

theorem ckfixCheck_ok_iff {sel : BitVec 8} {r : Fin 8} : ckfixCheck sel = .ok r ↔ sel.toNat = r.val := by
  unfold ckfixCheck
  split_ifs with h
  · simp only [Except.ok.injEq, Fin.ext_iff]
  · exact iff_of_false (by simp) (by omega)

/-- What CKFIX can do. -/
theorem execCkfix_cases {sel : BitVec 8} {t : State} (h : execCkfix sel s = .next t) :
    (ckfixCheck sel = .error .badRegion ∧ t = s.raise .badRegion (encode (.ckfix sel))) ∨
    (∃ r, ckfixCheck sel = .ok r ∧ t = ((s.repairRegion r).orFixlog (correctionBit r (s.needsRepair r))).complete
      ((correctionBit r (s.needsRepair r)).setWidth 32)) := by
  unfold execCkfix at h
  split at h <;> rename_i hc <;> cases h
  · refine .inl ?_
    unfold ckfixCheck at hc ⊢
    split_ifs at hc with h8
    cases hc
    exact ⟨by rw [dif_neg h8], rfl⟩
  · exact .inr ⟨_, hc, rfl⟩

/-- CKFIX of a region of the table (42_checksum R159). -/
theorem execCkfix_of_region {sel : BitVec 8} {r : Fin 8} (h : sel.toNat = r.val) :
    execCkfix sel s = .next (((s.repairRegion r).orFixlog (correctionBit r (s.needsRepair r))).complete
      ((correctionBit r (s.needsRepair r)).setWidth 32)) := by
  rw [execCkfix, ckfixCheck_ok_iff.2 h]

/-- What CKFIXALL does. -/
theorem execCkfixall_eq : execCkfixall s =
    .next (((s.repairAll 0 Config.regionOrder).1.orFixlog (s.repairAll 0 Config.regionOrder).2).complete
      ((s.repairAll 0 Config.regionOrder).2.setWidth 32)) := rfl

end Sys2Proof.Machine
end

