-- ==== Sys2Proof/Laws/Decode.lean ====
section
/-! SUPPORT. The fields of a command word, each read back from the word its six fields make (30_encoding R81). -/

namespace Sys2Proof

variable (op buf sel w : BitVec 8) (off val : Word32)

/-- One bit of a word of six fields. -/
theorem Command.getLsbD_ofFields (i : Nat) :
    (Command.ofFields op buf sel w off val).getLsbD i =
      if i < 32 then val.getLsbD i else if i < 64 then off.getLsbD (i - 32) else if i < 72 then w.getLsbD (i - 64)
      else if i < 80 then sel.getLsbD (i - 72) else if i < 88 then buf.getLsbD (i - 80) else op.getLsbD (i - 88) := by
  unfold Command.ofFields
  simp only [BitVec.getLsbD_append]
  split_ifs <;> first | rfl | omega

@[simp] theorem Command.op_ofFields : Command.op (Command.ofFields op buf sel w off val) = op := by
  refine BitVec.eq_of_getLsbD_eq fun i hi => ?_
  simp only [Command.op, BitVec.getLsbD_extractLsb', hi, decide_true, Bool.true_and, Command.getLsbD_ofFields]
  split_ifs <;> first | omega | (congr 1; omega)

@[simp] theorem Command.buf_ofFields : Command.buf (Command.ofFields op buf sel w off val) = buf := by
  refine BitVec.eq_of_getLsbD_eq fun i hi => ?_
  simp only [Command.buf, BitVec.getLsbD_extractLsb', hi, decide_true, Bool.true_and, Command.getLsbD_ofFields]
  split_ifs <;> first | omega | (congr 1; omega)

@[simp] theorem Command.sel_ofFields : Command.sel (Command.ofFields op buf sel w off val) = sel := by
  refine BitVec.eq_of_getLsbD_eq fun i hi => ?_
  simp only [Command.sel, BitVec.getLsbD_extractLsb', hi, decide_true, Bool.true_and, Command.getLsbD_ofFields]
  split_ifs <;> first | omega | (congr 1; omega)

@[simp] theorem Command.w_ofFields : Command.w (Command.ofFields op buf sel w off val) = w := by
  refine BitVec.eq_of_getLsbD_eq fun i hi => ?_
  simp only [Command.w, BitVec.getLsbD_extractLsb', hi, decide_true, Bool.true_and, Command.getLsbD_ofFields]
  split_ifs <;> first | omega | (congr 1; omega)

@[simp] theorem Command.off_ofFields : Command.off (Command.ofFields op buf sel w off val) = off := by
  refine BitVec.eq_of_getLsbD_eq fun i hi => ?_
  simp only [Command.off, BitVec.getLsbD_extractLsb', hi, decide_true, Bool.true_and, Command.getLsbD_ofFields]
  split_ifs <;> first | omega | (congr 1; omega)

@[simp] theorem Command.val_ofFields : Command.val (Command.ofFields op buf sel w off val) = val := by
  refine BitVec.eq_of_getLsbD_eq fun i hi => ?_
  simp only [Command.val, BitVec.getLsbD_extractLsb', hi, decide_true, Bool.true_and, Command.getLsbD_ofFields]
  split_ifs <;> first | omega | (congr 1; omega)

/-- A word is made of its six fields. -/
theorem Command.ofFields_fields (c : Command) :
    Command.ofFields (Command.op c) (Command.buf c) (Command.sel c) (Command.w c) (Command.off c) (Command.val c) =
      c := by
  refine BitVec.eq_of_getLsbD_eq fun i hi => ?_
  rw [Command.getLsbD_ofFields]
  simp only [Command.op, Command.buf, Command.sel, Command.w, Command.off, Command.val, BitVec.getLsbD_extractLsb']
  split_ifs <;> rw [decide_eq_true (by omega), Bool.true_and] <;> congr 1 <;> omega

end Sys2Proof
end

