-- ==== Sys2Proof/Laws/Embed.lean ====
section
/-! SUPPORT. What EMBED's block write puts into each bit of SAVE (41_embed R131 to R136). -/

namespace Sys2Proof.Machine

/-! ### Packing -/

/-- Element `c * k + j` of lists of one length `c` laid end to end. -/
theorem getElem?_flatMap_const {α β : Type} (f : α → List β) (c : Nat) (hf : ∀ x, (f x).length = c) (l : List α)
    (k j : Nat) (hj : j < c) : (l.flatMap f)[c * k + j]? = (l[k]?).bind (fun x => (f x)[j]?) := by
  induction l generalizing k with
  | nil => simp
  | cons x l ih =>
    rw [List.flatMap_cons]
    cases k with
    | zero => rw [List.getElem?_append_left (by rw [hf]; omega)]; simp
    | succ k =>
      rw [List.getElem?_append_right (by rw [hf, Nat.mul_succ]; omega), hf,
        show c * (k + 1) + j - c = c * k + j by rw [Nat.mul_succ]; omega, ih]
      simp

theorem length_flatMap_const {α β : Type} (f : α → List β) (c : Nat) (hf : ∀ x, (f x).length = c) (l : List α) :
    (l.flatMap f).length = c * l.length := by
  induction l with
  | nil => simp
  | cons x l ih => rw [List.flatMap_cons, List.length_append, ih, hf, List.length_cons, Nat.mul_succ, Nat.add_comm]

/-- A list of at least eight elements, its first eight named. -/
theorem eq_cons8 {α : Type} {l : List α} {n : Nat} (h : l.length = 8 * (n + 1)) :
    ∃ a b c d e f g i m, l = a :: b :: c :: d :: e :: f :: g :: i :: m ∧ m.length = 8 * n := by
  match l, h with
  | a :: b :: c :: d :: e :: f :: g :: i :: m, h =>
    exact ⟨a, b, c, d, e, f, g, i, m, rfl, by simp only [List.length_cons] at h; omega⟩

theorem length_packBits (n : Nat) (l : List Bool) (h : l.length = 8 * n) : (packBits l).length = n := by
  induction n generalizing l with
  | zero => simp at h; subst h; rfl
  | succ n ih =>
    obtain ⟨a, b, c, d, e, f, g, i, m, rfl, hm⟩ := eq_cons8 h
    simp [packBits, ih m hm]

theorem byteOfBits_getLsbD (a b c d e f g i : Bool) (j : Nat) (hj : j < 8) :
    some ((byteOfBits a b c d e f g i).getLsbD (7 - j)) = [a, b, c, d, e, f, g, i][j]? := by
  interval_cases j <;> revert a b c d e f g i <;> decide

/-- Bit `j` of packed byte `k`, counted from the top, is bit `8 * k + j` of the string (20_memory R52). -/
theorem packBits_getLsbD (n : Nat) (l : List Bool) (h : l.length = 8 * n) (k j : Nat) (hk : k < n) (hj : j < 8) :
    ((packBits l)[k]?).map (fun x => x.getLsbD (7 - j)) = l[8 * k + j]? := by
  induction n generalizing l k with
  | zero => omega
  | succ n ih =>
    obtain ⟨a, b, c, d, e, f, g, i, m, rfl, hm⟩ := eq_cons8 h
    rw [packBits]
    cases k with
    | zero =>
      rw [List.getElem?_cons_zero, Option.map_some, byteOfBits_getLsbD _ _ _ _ _ _ _ _ _ hj]
      interval_cases j <;> rfl
    | succ k =>
      rw [List.getElem?_cons_succ, ih m hm k (by omega), show 8 * (k + 1) + j = 8 * k + j + 1 + 1 + 1 + 1 + 1 + 1 + 1 + 1 by omega]
      simp only [List.getElem?_cons_succ]

theorem pixelBits_getElem? (x : Byte) (j : Nat) (hj : j < 5) : (pixelBits x)[j]? = some ((pixelValue x).getLsbD (4 - j)) := by
  interval_cases j <;> rfl

/-! ### The image -/

variable (s : State)

theorem State.imagePixels_getElem? (i j : Nat) (hi : i < 112) (hj : j < 160) :
    s.imagePixels[160 * i + j]? = some (s.readByte .raster (pixelSrc s.rlen.toNat i 0 + j)) := by
  unfold State.imagePixels
  rw [getElem?_flatMap_const s.rasterRow 160 (fun i => by simp [State.rasterRow]) _ _ _ hj,
    List.getElem?_range hi, Option.bind_some]
  rw [List.getElem?_eq_getElem (by simp [State.rasterRow]; exact hj)]
  simp [State.rasterRow]

@[simp] theorem State.length_imagePixels : s.imagePixels.length = 17920 := by
  unfold State.imagePixels
  rw [length_flatMap_const s.rasterRow 160 (fun i => by simp [State.rasterRow]), List.length_range]
  rfl

theorem State.length_imageBits : (s.imagePixels.flatMap pixelBits).length = 8 * 11200 := by
  rw [length_flatMap_const pixelBits 5 (fun _ => rfl)]
  simp

@[simp] theorem State.length_imageBytes : s.imageBytes.length = 11200 :=
  length_packBits 11200 _ s.length_imageBits

/-- Bit `q` of the image: bit `4 - q mod 5` of pixel `q div 5` in row-major order (41_embed R131, R133). -/
def State.imageBit (q : Nat) : Bool :=
  (pixelValue (s.readByte .raster (pixelSrc s.rlen.toNat (q / 5 / 160) (q / 5 % 160)))).getLsbD (4 - q % 5)

theorem State.imageBytes_getLsbD (q : Nat) (hq : q < 89600) (h : q / 8 < s.imageBytes.length) :
    (s.imageBytes[q / 8]).getLsbD (7 - q % 8) = s.imageBit q := by
  have h1 := packBits_getLsbD 11200 _ s.length_imageBits (q / 8) (q % 8) (by omega) (by omega)
  rw [show 8 * (q / 8) + q % 8 = 5 * (q / 5) + q % 5 by omega,
    getElem?_flatMap_const pixelBits 5 (fun _ => rfl) _ _ _ (by omega : q % 5 < 5)] at h1
  have h2 := s.imagePixels_getElem? (q / 5 / 160) (q / 5 % 160) (by omega) (by omega)
  rw [show 160 * (q / 5 / 160) + q / 5 % 160 = q / 5 by omega] at h2
  rw [h2, Option.bind_some, pixelBits_getElem? _ _ (by omega : q % 5 < 5)] at h1
  have h3 : (packBits (s.imagePixels.flatMap pixelBits))[q / 8]? = some s.imageBytes[q / 8] :=
    List.getElem?_eq_getElem h
  rw [h3, Option.map_some, Option.some.injEq] at h1
  rw [h1, State.imageBit]
  rfl

/-- WHAT THE IMAGE WRITE DOES: image bit `p - base` at each bit address `p` of the image's range, nothing elsewhere
(41_embed R134, R136). -/
theorem State.getBit_embedImage (slot : Nat) (c : Buf) (p : Nat) :
    (s.embedImage slot).getBit c p =
      if c = .save ∧ 8 * imageBase slot ≤ p ∧ p < 8 * imageBase slot + 89600 then s.imageBit (p - 8 * imageBase slot)
      else s.getBit c p := by
  unfold State.getBit State.embedImage
  rw [State.readByte_writeBytes]
  by_cases h : c = .save ∧ 8 * imageBase slot ≤ p ∧ p < 8 * imageBase slot + 89600
  · have hl := s.length_imageBytes
    obtain ⟨rfl, h1, h2⟩ := h
    obtain ⟨q, rfl⟩ : ∃ q, p = 8 * imageBase slot + q := ⟨p - 8 * imageBase slot, by omega⟩
    have e1 : (8 * imageBase slot + q) / 8 - imageBase slot = q / 8 := by omega
    have e2 : (8 * imageBase slot + q) % 8 = q % 8 := by omega
    rw [dif_pos ⟨rfl, by omega, by omega⟩, if_pos ⟨rfl, h1, h2⟩]
    simp only [e1, e2, Nat.add_sub_cancel_left]
    exact s.imageBytes_getLsbD q (by omega) (by omega)
  · have hl := s.length_imageBytes
    rw [if_neg h, dif_neg]
    rintro ⟨rfl, h1, h2⟩
    exact h ⟨rfl, by omega, by omega⟩

/-- Bytes the image write does not touch. -/
theorem State.readByte_embedImage_of_outside (slot : Nat) (c : Buf) (a : Nat)
    (h : c ≠ .save ∨ a < imageBase slot ∨ imageBase slot + 11200 ≤ a) :
    (s.embedImage slot).readByte c a = s.readByte c a := by
  unfold State.embedImage
  have hl := s.length_imageBytes
  rw [State.readByte_writeBytes, dif_neg]
  rintro ⟨rfl, h1, h2⟩
  rcases h with h | h | h
  · exact h rfl
  · omega
  · omega

/-- WHAT EMBED's CHECKS CAN ANSWER (41_embed R135). -/
theorem embedCheck_ok_iff {sel : BitVec 8} {slot : Nat} :
    embedCheck sel s = .ok slot ↔
      slot = sel.toNat ∧ (slot = 1 ∨ slot = 2) ∧ s.rw.toNat = 160 ∧ s.rh.toNat = 112 ∧ 17920 ≤ s.rlen.toNat := by
  unfold embedCheck
  simp only [Config.imgW, Config.imgH, Config.imgPixels]
  split_ifs with h1 h2 h3
  · exact iff_of_false (by simp) (by omega)
  · exact iff_of_false (by simp) (by omega)
  · exact iff_of_false (by simp) (by omega)
  · simp only [Except.ok.injEq]
    exact ⟨fun h => by omega, fun h => h.1.symm⟩

/-- What EMBED can do. -/
theorem execEmbed_cases {sel : BitVec 8} {t : State} (h : execEmbed sel s = .next t) :
    (∃ cause, embedCheck sel s = .error cause ∧ t = s.raise cause (encode (.embed sel))) ∨
    (∃ slot, embedCheck sel s = .ok slot ∧ t = (s.embedImage slot).complete 0) := by
  unfold execEmbed at h
  split at h <;> rename_i hc <;> cases h
  · exact .inl ⟨_, hc, rfl⟩
  · exact .inr ⟨_, hc, rfl⟩

end Sys2Proof.Machine
end

