-- ==== Sys2Proof/Laws/HostPort.lean ====
section
/-! SUPPORT. What each host move can do, said once (70_reset R222). -/

namespace Sys2Proof.Machine

variable (s : State)

/-- What a host move can do. -/
theorem hostMove_cases {m : HostMove} {t : State} (h : hostMove m s = .next t) :
    (∃ b a bytes, m = .load b a bytes ∧ a + bytes.length ≤ hostLen b ∧ t = s.writeBytes b a bytes) ∨
    (∃ n v, m = .writeReg n v ∧ t = s.hostWriteReg n v) ∨
    (∃ cs, m = .submit cs ∧ t = { s with port := s.port ++ cs }) ∨
    (m = .reset ∧ t = s.applyReset) ∨
    (∃ c, m = .resetDuring c ∧ t = s.resetDuring c) := by
  cases m with
  | load b a bytes =>
    simp only [hostMove] at h
    split at h <;> cases h
    exact .inl ⟨b, a, bytes, rfl, ‹_›, rfl⟩
  | writeReg n v => cases h; exact .inr (.inl ⟨n, v, rfl, rfl⟩)
  | submit cs => cases h; exact .inr (.inr (.inl ⟨cs, rfl, rfl⟩))
  | reset => cases h; exact .inr (.inr (.inr (.inl ⟨rfl, rfl⟩)))
  | resetDuring c => cases h; exact .inr (.inr (.inr (.inr ⟨c, rfl, rfl⟩)))

/-- What a host register write can do (10_state R22, R33). -/
theorem State.hostWriteReg_cases (n : Nat) (v : Word32) :
    s.hostWriteReg n v = s ∨ (n = 9 ∧ v.toNat ≤ Config.rcap ∧ s.hostWriteReg n v = { s with rlen := v }) ∨
      (n = 10 ∧ s.hostWriteReg n v = { s with rw := v }) ∨ (n = 11 ∧ s.hostWriteReg n v = { s with rh := v }) := by
  by_cases h9 : n = 9
  · subst h9
    by_cases hv : v.toNat ≤ Config.rcap
    · exact .inr (.inl ⟨rfl, hv, if_pos hv⟩)
    · exact .inl (if_neg hv)
  · by_cases h10 : n = 10
    · subst h10; exact .inr (.inr (.inl ⟨rfl, rfl⟩))
    · by_cases h11 : n = 11
      · subst h11; exact .inr (.inr (.inr ⟨rfl, rfl⟩))
      · refine .inl ?_
        unfold State.hostWriteReg
        split <;> first | rfl | contradiction

@[simp] theorem State.loseBlock_responses (blk : Buf × Nat × Nat) : (s.loseBlock blk).responses = s.responses :=
  s.writeBytes_responses _ _ _
@[simp] theorem State.loseBlock_host (blk : Buf × Nat × Nat) : (s.loseBlock blk).host = s.host :=
  s.writeBytes_host _ _ _
@[simp] theorem State.loseBlock_sig (blk : Buf × Nat × Nat) : (s.loseBlock blk).sig = s.sig :=
  s.writeBytes_sig _ _ _

/-- Losing a block changes no byte outside it. -/
theorem State.readByte_loseBlock_of_outside (blk : Buf × Nat × Nat) (c : Buf) (a : Nat)
    (h : ¬ (c = blk.1 ∧ blk.2.1 ≤ a ∧ a < blk.2.1 + blk.2.2)) : (s.loseBlock blk).readByte c a = s.readByte c a := by
  unfold State.loseBlock
  rw [State.readByte_writeBytes, dif_neg]
  rintro ⟨h1, h2, h3⟩
  simp only [List.length_map, List.length_range] at h3
  exact h ⟨h1, h2, by omega⟩

/-- What losing one block keeps, losing several keeps. -/
theorem State.loseBlocks_keeps {P : State → Prop} (l : List (Buf × Nat × Nat))
    (hP : ∀ blk ∈ l, ∀ t, P t → P (t.loseBlock blk)) (h : P s) : P (l.foldl State.loseBlock s) := by
  induction l generalizing s with
  | nil => exact h
  | cons blk l ih =>
    exact ih _ (fun x hx => hP x (List.mem_cons_of_mem _ hx)) (hP blk List.mem_cons_self s h)

end Sys2Proof.Machine
end

