-- ==== Sys2Proof/Laws/PerInstr.lean ====
section
/-! SUPPORT. Statements about every instruction as syntax, one lemma per constructor of `Instr`. -/

namespace Sys2Proof.Laws

/-- The opcode of an instruction (30_encoding R84). -/
def EncodesOpcode.opcode : Instr → BitVec 8
  | .rdbits _ _ _ => 0x10
  | .wrbits _ _ _ _ => 0x11
  | .embed _ => 0x20
  | .ckfix _ => 0x30
  | .ckfixall => 0x31

/-- The encoding of `i` carries its opcode in `cmd[95:88]`, so an encoded word is never the all-zero or all-ones word
(30_encoding R84, R90). -/
def EncodesOpcode.Statement (i : Instr) : Prop := Command.op (encode i) = EncodesOpcode.opcode i

theorem EncodesOpcode.rdbits (buf : BitVec 8) (off : Word32) (w : BitVec 8) : Statement (.rdbits buf off w) :=
  Command.op_ofFields _ _ _ _ _ _

theorem EncodesOpcode.wrbits (buf : BitVec 8) (off : Word32) (w : BitVec 8) (val : Word32) :
    Statement (.wrbits buf off w val) :=
  Command.op_ofFields _ _ _ _ _ _

theorem EncodesOpcode.embed (sel : BitVec 8) : Statement (.embed sel) := Command.op_ofFields _ _ _ _ _ _

theorem EncodesOpcode.ckfix (sel : BitVec 8) : Statement (.ckfix sel) := Command.op_ofFields _ _ _ _ _ _

theorem EncodesOpcode.ckfixall : Statement .ckfixall := Command.op_ofFields _ _ _ _ _ _

end Sys2Proof.Laws
end

