-- ==== Sys2Proof/Laws/Step.lean ====
section
/-! SUPPORT. What a command and a step can do, said once. -/

namespace Sys2Proof.Machine

variable (s : State)

/-- WHAT A COMMAND CAN DO: fault, or complete after changing the buffers and FIXLOG alone. -/
theorem exec_cases {i : Instr} {t : State} (h : exec i s = .next t) :
    (∃ cause, t = s.raise cause (encode i)) ∨
    (∃ b off w v, t = ((s.bitWrite b off w v).complete 0) ∧ off + w ≤ 8 * s.len b) ∨
    (∃ d, t = s.complete d) ∨
    (∃ slot, (slot = 1 ∨ slot = 2) ∧ t = (s.embedImage slot).complete 0) ∨
    (∃ rs m, t = ((s.repairAll 0 rs).1.orFixlog m).complete (m.setWidth 32)) := by
  cases i with
  | rdbits buf off w =>
    rcases execRdbits_cases s h with ⟨c, -, rfl⟩ | ⟨b, -, rfl⟩
    · exact .inl ⟨c, rfl⟩
    · exact .inr (.inr (.inl ⟨_, rfl⟩))
  | wrbits buf off w val =>
    rcases execWrbits_cases s h with ⟨c, -, rfl⟩ | ⟨b, hb, rfl⟩
    · exact .inl ⟨c, rfl⟩
    · exact .inr (.inl ⟨b, off.toNat, w.toNat, val, rfl, ((bitIOCheck_ok_iff s).1 hb).2.2.2⟩)
  | embed sel =>
    rcases execEmbed_cases s h with ⟨c, -, rfl⟩ | ⟨slot, hs, rfl⟩
    · exact .inl ⟨c, rfl⟩
    · exact .inr (.inr (.inr (.inl ⟨slot, ((embedCheck_ok_iff s).1 hs).2.1, rfl⟩)))
  | ckfix sel =>
    rcases execCkfix_cases s h with ⟨-, rfl⟩ | ⟨r, -, rfl⟩
    · exact .inl ⟨_, rfl⟩
    · exact .inr (.inr (.inr (.inr ⟨[r], correctionBit r (s.needsRepair r), rfl⟩)))
  | ckfixall =>
    have h' : execCkfixall s = .next t := h
    rw [execCkfixall_eq] at h'
    exact .inr (.inr (.inr (.inr ⟨_, _, (Host.Outcome.next.inj h').symm⟩)))

/-- What the engine can do with a command word. -/
theorem runCommand_cases {c : Command} {t : State} (h : runCommand c s = .next t) :
    (∃ e, decode c = .error e ∧ t = s.raise .illegalCmd c) ∨ (∃ i, decode c = .ok i ∧ exec i s = .next t) := by
  unfold runCommand at h
  split at h
  · rename_i e he
    cases h
    exact .inl ⟨e, he, rfl⟩
  · rename_i i hi
    exact .inr ⟨i, hi, h⟩

/-- WHAT A STEP CAN DO: the engine runs the command at the head of the port, or the host makes its next move. -/
theorem step_cases {t : State} (h : step s = .next t) :
    (∃ c cs, s.port = c :: cs ∧ s.faulted = false ∧ runCommand c { s with port := cs } = .next t) ∨
    (∃ m ms, s.host = m :: ms ∧ (s.port = [] ∨ s.faulted = true) ∧ hostMove m { s with host := ms } = .next t) := by
  have host : runHost s = .next t → ∃ m ms, s.host = m :: ms ∧ hostMove m { s with host := ms } = .next t := by
    intro h
    unfold runHost at h
    split at h
    · rename_i m ms hm
      exact ⟨m, ms, hm, h⟩
    · split at h <;> cases h
  unfold step runNext at h
  split at h
  · rename_i c cs hp
    split at h
    · rename_i hf
      obtain ⟨m, ms, hm, h⟩ := host h
      exact .inr ⟨m, ms, hm, .inr hf, h⟩
    · rename_i hf
      exact .inl ⟨c, cs, hp, by simpa using hf, h⟩
  · rename_i hp
    obtain ⟨m, ms, hm, h⟩ := host h
    exact .inr ⟨m, ms, hm, .inl hp, h⟩

/-- With nothing for the engine to take, the step is the host's next move (10_state R36, 70_reset R222). -/
theorem step_eq_hostMove {m : HostMove} {ms : List HostMove} (hp : s.port = [] ∨ s.faulted = true)
    (hh : s.host = m :: ms) : step s = hostMove m { s with host := ms } := by
  have hrun : runHost s = hostMove m { s with host := ms } := by
    unfold runHost
    rw [hh]
  rw [← hrun, step]
  unfold runNext
  split
  · rename_i c cs hc
    exact if_pos (hp.resolve_left (by rw [hc]; exact List.cons_ne_nil _ _))
  · rfl

/-- A run of one step more begins with that step. -/
theorem runSteps_of_next {t : State} (k : Nat) (h : step s = .next t) : runSteps (k + 1) s = runSteps k t := by
  rw [runSteps, h]

/-- A run of one step more that answers a next state has a first step. -/
theorem runSteps_succ_cases {t : State} (k : Nat) (h : runSteps (k + 1) s = .next t) :
    ∃ u, step s = .next u ∧ runSteps k u = .next t := by
  rw [runSteps] at h
  split at h
  · exact ⟨_, ‹_›, h⟩
  · cases h
  · cases h

/-- The host's run of one step more, for any machine. -/
theorem host_run_succ (M : Host.Core) (k : Nat) (x : M.State) :
    (∀ y, M.step x = .next y → M.run (k + 1) x = M.run k y) ∧
      (∀ f, M.step x = .fault f → M.run (k + 1) x = .fault f) ∧
      (∀ r, M.step x = .refused r → M.run (k + 1) x = .refused r) := by
  refine ⟨fun y h => ?_, fun f h => ?_, fun r h => ?_⟩ <;> rw [Host.Core.run.eq_2, h]

/-- `runSteps` is the host's own run of the machine. -/
theorem runSteps_eq_core_run (k : Nat) : runSteps k s = Sys2Proof.core.run k s := by
  induction k generalizing s with
  | zero => rfl
  | succ k ih =>
    obtain ⟨hnext, hfault, hrefused⟩ := host_run_succ Sys2Proof.core k s
    rw [runSteps]
    rcases hs : step s with t | f | r
    · exact (ih t).trans (hnext t hs).symm
    · exact (hfault f hs).symm
    · exact (hrefused r hs).symm

end Sys2Proof.Machine
end

