-- ==== Sys2Proof/Tests/Slice0.lean ====
section
/-! SUPPORT. The model's own tests, each from a vector of spec/95_test_vectors.md or a rule, and one witness for the
hypotheses of each obligation that has some. -/

namespace Sys2Proof.Machine.Tests

open Sys2Proof Sys2Proof.Machine

/-! ### WellFormed smoke: the one check refuses an ill-formed term of each command it guards (30_encoding R91) -/

theorem test_wellFormed_rdbits_buf2_refused : ¬ (Instr.rdbits 2 0 8).WellFormed := by decide
theorem test_wellFormed_wrbits_buf255_refused : ¬ (Instr.wrbits 255 0 8 0).WellFormed := by decide
theorem test_wellFormed_accepts :
    (Instr.rdbits 1 0 0).WellFormed ∧ (Instr.wrbits 0 0 33 0).WellFormed ∧ (Instr.embed 3).WellFormed ∧
      (Instr.ckfix 9).WellFormed ∧ Instr.ckfixall.WellFormed := by decide

/-! ### Decoding, words written out from the vectors (RD3, WR5, EM2, CK9, CK3; DF5 to DF9, DF15 to DF17) -/

theorem test_decode_rdbits : decode 0x100000080000000400000000#96 = .ok (.rdbits 0 4 8) := by decide
theorem test_decode_rdbits_raster : decode 0x1001000800022FF800000000#96 = .ok (.rdbits 1 143352 8) := by decide
theorem test_decode_wrbits : decode 0x110000050000000600000015#96 = .ok (.wrbits 0 6 5 0x15) := by decide
theorem test_decode_embed : decode 0x200002000000000000000000#96 = .ok (.embed 2) := by decide
theorem test_decode_ckfix : decode 0x300007000000000000000000#96 = .ok (.ckfix 7) := by decide
theorem test_decode_ckfixall : decode 0x310000000000000000000000#96 = .ok .ckfixall := by decide

theorem test_decode_rejects :
    decode 0x100200080000000000000000#96 = .error .reservedBuf ∧
      decode 0x100001080000000000000000#96 = .error .unusedField ∧
      decode 0x100000080000000000000001#96 = .error .unusedField ∧
      decode 0x000000000000000000000000#96 = .error .reservedOp ∧
      decode 0x120000000000000000000000#96 = .error .reservedOp ∧
      decode 0x300000010000000000000000#96 = .error .unusedField ∧
      decode 0x310001000000000000000000#96 = .error .unusedField ∧
      decode 0x300009000000000100000000#96 = .error .unusedField := by decide

theorem test_decodeBytes_opFirst :
    decodeBytes [0x11, 0, 0, 5, 0, 0, 0, 6, 0, 0, 0, 0x15] = .ok (.wrbits 0 6 5 0x15) ∧
      decodeBytes [0x31, 0, 0, 0, 0, 0, 0, 0, 0, 0, 0] = .error .badLength := by decide

theorem test_decodeTableWord :
    decodeTableWord 96 0x100000080000000400000000 = some (.rdbits 0 4 8) ∧
      decodeTableWord 96 0x310000000000000000000000 = some .ckfixall ∧ decodeTableWord 96 0 = none := by decide

/-! ### Small states -/

/-- Reset with these bytes from the first byte of SAVE on. -/
def saveStart (bs : List Byte) : State := State.reset.writeBytes .save 0 bs

/-- A raster as EMBED wants it, every byte never written. -/
def goodRaster : State := { State.reset with rlen := 17920, rw := 160, rh := 112 }

/-- FAULTED after a width fault, with one command presented. -/
def faultedState : State :=
  { State.reset.raise .badWidth 0x100000000000000000000000#96 with port := [0x310000000000000000000000#96] }

/-- RUNNABLE with these commands presented. -/
def presented (cs : List Command) : State := { State.reset with port := cs }

/-- Reset with one host move to come. -/
def hosted (m : HostMove) : State := { State.reset with host := [m] }

theorem goodRaster_ok : goodRaster.RasterOK := by unfold State.RasterOK; decide

/-! ### RDBITS and WRBITS -/

/-- Vector RD7: the widest access, unaligned. -/
theorem test_rdbits_rd7 :
    ∃ t, exec (.rdbits 0 1 32) (saveStart [0xA5, 0x3C, 0xF0, 0x0F, 0x81, 0x7E]) = .next t ∧
      t.result = 0x4A79E01F ∧ t.cmdcnt = 1 ∧ t.responses = [⟨.ok, 0x4A79E01F⟩] :=
  ⟨_, rfl, by decide⟩

/-- Vector RD4: the first bit of a field is the most significant. -/
theorem test_rdbits_rd4 :
    ∃ t, exec (.rdbits 0 7 2) (saveStart [0xA5, 0x3C, 0xF0, 0x0F, 0x81, 0x7E]) = .next t ∧ t.result = 2 :=
  ⟨_, rfl, by decide⟩

/-- Vector WR7: five bytes touched, the bits around the field kept. -/
theorem test_wrbits_wr7 :
    ∃ t, exec (.wrbits 0 3 32 0xDEADBEEF) (saveStart [0xAA, 0xAA, 0xAA, 0xAA, 0xAA]) = .next t ∧
      t.readBytes .save 0 5 = [0xBB, 0xD5, 0xB7, 0xDD, 0xEA] ∧ t.result = 0 :=
  ⟨_, rfl, by decide⟩

/-- Vector WR6: zeros are written too. -/
theorem test_wrbits_wr6 :
    ∃ t, exec (.wrbits 0 6 5 0x15) (saveStart [0xFF, 0xFF, 0xFF]) = .next t ∧
      t.readBytes .save 0 3 = [0xFE, 0xBF, 0xFF] :=
  ⟨_, rfl, by decide⟩

/-! ### A step from the command port (vectors DF1, DF3, DF12, DF14, DF16, DF18 on a fresh engine) -/

theorem test_step_faults :
    step (State.reset.withFetchWord 96 0x100000000000000000000000) =
        .next (State.reset.raise .badWidth 0x100000000000000000000000#96) ∧
      step (State.reset.withFetchWord 96 0x10000001FFFFFFFF00000000) =
        .next (State.reset.raise .outOfRange 0x10000001FFFFFFFF00000000#96) ∧
      step (State.reset.withFetchWord 96 0x10000000FFFFFFFF00000000) =
        .next (State.reset.raise .badWidth 0x10000000FFFFFFFF00000000#96) ∧
      step (State.reset.withFetchWord 96 0x300008000000000000000000) =
        .next (State.reset.raise .badRegion 0x300008000000000000000000#96) ∧
      step (State.reset.withFetchWord 96 0x310001000000000000000000) =
        .next (State.reset.raise .illegalCmd 0x310001000000000000000000#96) ∧
      step (State.reset.withFetchWord 96 0x200000000000000000000000) =
        .next (State.reset.raise .badSlot 0x200000000000000000000000#96) :=
  ⟨rfl, rfl, rfl, rfl, rfl, rfl⟩

/-- The record a fault leaves (vector DF1). -/
theorem test_fault_record :
    let t := State.reset.raise .badWidth 0x100000210000000500000000#96
    t.faulted = true ∧ t.fcause = 2 ∧ t.fidx = 0 ∧ t.fcmd0 = 0x10000021 ∧ t.fcmd1 = 5 ∧ t.fcmd2 = 0 ∧
      t.responses = [⟨.fault, 2⟩] := by decide

/-- Each command is what the step runs on its word. -/
theorem test_step_runs_the_word :
    step (State.reset.withFetchWord 96 0x100000080000000000000000) = exec (.rdbits 0 0 8) State.reset ∧
      step (State.reset.withFetchWord 96 0x110000080000000000000001) = exec (.wrbits 0 0 8 1) State.reset ∧
      step (State.reset.withFetchWord 96 0x200001000000000000000000) = exec (.embed 1) State.reset ∧
      step (State.reset.withFetchWord 96 0x300003000000000000000000) = exec (.ckfix 3) State.reset ∧
      step (State.reset.withFetchWord 96 0x310000000000000000000000) = exec .ckfixall State.reset :=
  ⟨rfl, rfl, rfl, rfl, rfl⟩

/-! ### EMBED -/

/-- Vectors EM6, EM7, EM8 and EM10: the order of the checks. -/
theorem test_embed_faults :
    embedCheck 3 goodRaster = .error .badSlot ∧
      embedCheck 1 { goodRaster with rw := 112, rh := 160 } = .error .badDims ∧
      embedCheck 1 { goodRaster with rlen := 17919 } = .error .rasterShort ∧
      embedCheck 2 { goodRaster with rw := 1, rlen := 0 } = .error .badDims := by decide

/-- EMBED into slot 1 of a raster as EMBED wants it goes on to the image write. -/
theorem exec_embed_one {s : State} (h : s.RasterOK) : exec (.embed 1) s = .next ((s.embedImage 1).complete 0) := by
  show execEmbed 1 s = _
  rw [execEmbed, (embedCheck_ok_iff s).2 ⟨rfl, .inl rfl, h.1, h.2.1, h.2.2⟩]
  rfl

/-- The raster of source example S5: pixel (0, 0) at 1F, pixel (0, 1) at 0. -/
def s5Raster : State := goodRaster.writeBytes .raster 17760 [0x1F, 0x00]

theorem s5Raster_ok : s5Raster.RasterOK := ⟨rfl, rfl, goodRaster_ok.2.2⟩

theorem s5Raster_pixels : s5Raster.readByte .raster 17760 = 0x1F ∧ s5Raster.readByte .raster 17761 = 0 := by
  unfold s5Raster
  rw [State.readByte_writeBytes, State.readByte_writeBytes, dif_pos (by simp), dif_pos (by simp)]
  exact ⟨rfl, rfl⟩

/-- Source example S5: embedded into slot 1, byte 0x090E0 is F8. -/
theorem test_embed_s5 : ∃ t, exec (.embed 1) s5Raster = .next t ∧ t.readByte .save 0x090E0 = 0xF8 := by
  refine ⟨_, exec_embed_one s5Raster_ok, BitVec.eq_of_getLsbD_eq fun i hi => ?_⟩
  rw [State.readByte_complete]
  have h := s5Raster.getBit_embedImage 1 .save (8 * 0x090E0 + (7 - i))
  rw [if_pos ⟨rfl, by simp only [imageBase, Config.slotStride, Config.hdrSkip]; omega,
    by simp only [imageBase, Config.slotStride, Config.hdrSkip]; omega⟩, State.getBit,
    show (8 * 0x090E0 + (7 - i)) / 8 = 0x090E0 by omega, show 7 - (8 * 0x090E0 + (7 - i)) % 8 = i by omega,
    show 8 * 0x090E0 + (7 - i) - 8 * imageBase 1 = 7 - i by
      simp only [imageBase, Config.slotStride, Config.hdrSkip]; omega] at h
  rw [h, State.imageBit, show s5Raster.rlen.toNat = 17920 from rfl]
  obtain ⟨h0, h1⟩ := s5Raster_pixels
  interval_cases i <;> simp [pixelSrc, pixelValue, Config.imgW, h0, h1]

/-! ### CKFIX and CKFIXALL -/

/-- Region 0 of vector CK1: zeros but for the signature. -/
def ck1Bytes : List Byte := List.replicate 0x24 0#8 ++ (Config.defaultSig.bytes ++ List.replicate 0x1FD6 0#8)

/-- Vector CK1, and no signature in regions 1 to 7. -/
def ck1 : State :=
  ([1, 2, 3, 4, 5, 6, 7] : List (Fin 8)).foldl (fun t r => t.writeByte .save (sigAddr r) 0#8)
    (State.reset.writeBytes .save 0 ck1Bytes)

theorem ck1Bytes_length : ck1Bytes.length = 0x2000 := by
  rw [ck1Bytes, List.length_append, List.length_append, List.length_replicate, List.length_replicate]
  rfl

theorem ck1_low (x : Nat) (h : x < 0x2000) : ck1.readByte .save x = ck1Bytes.getD x 0#8 := by
  have hl := ck1Bytes_length
  simp only [ck1, List.foldl, State.readByte_writeByte, sigAddr, Config.region, Config.sigOff, true_and]
  rw [State.readByte_writeBytes, dif_pos ⟨rfl, by omega, by omega⟩]
  iterate 7 rw [if_neg (by omega)]
  simp [List.getD_eq_getElem?_getD, hl, h]

theorem ck1_zero (x : Nat) (h : x < 0x2000) (hx : x < 0x24 ∨ 0x2A ≤ x) : ck1.readByte .save x = 0 := by
  rw [ck1_low x h, ck1Bytes, List.getD_eq_getElem?_getD, List.getElem?_append, List.getElem?_append]
  simp only [List.length_replicate, Config.defaultSig, Config.Signature.bytes, List.length_cons, List.length_nil, List.getElem?_replicate]
  split_ifs <;> first | rfl | omega

theorem ck1_hasSig : ck1.hasSig 0 = true := by
  refine (ck1.hasSig_iff 0).2 fun k hk => ?_
  rw [show sigAddr 0 + k = 0x24 + k from rfl, ck1_low _ (by omega), ck1Bytes, List.getD_eq_getElem?_getD,
    List.getElem?_append_right (by simp), List.getElem?_append_left (by simp [Config.Signature.bytes]; omega)]
  simp [ck1, State.reset]

theorem ck1_unsigned (r : Fin 8) (hr : r ≠ 0) : ck1.hasSig r = false := by
  refine Bool.eq_false_iff.2 fun h => ?_
  have h0 := (ck1.hasSig_iff r).1 h 0 (by omega)
  have hz : ck1.readByte .save (sigAddr r + 0) = 0#8 := by
    simp only [ck1, List.foldl, State.readByte_writeByte, true_and]
    fin_cases r
    · exact absurd rfl hr
    all_goals simp [sigAddr, Config.region]
  rw [hz] at h0
  exact absurd h0 (by decide)

theorem ck1_sum : ck1.sum16 0 = 0x01A3 := by
  have hb : ck1.readBytes .save 0 0x2000 = ck1Bytes := by
    refine List.ext_getElem (by rw [State.length_readBytes, ck1Bytes_length]) fun k hk hk' => ?_
    rw [State.getElem_readBytes, Nat.zero_add, ck1_low k (by simpa using hk)]
    simp [List.getD_eq_getElem?_getD, hk']
  rw [State.sum16, show (Config.region 0).start = 0 from rfl, show (Config.region 0).len = 0x2000 from rfl, hb,
    show fieldAddr 0 = 0x100A from rfl, ck1_zero _ (by omega) (by omega), ck1_zero _ (by omega) (by omega), ck1Bytes,
    sumBytes_append, sumBytes_append, sumBytes_replicate_zero, sumBytes_replicate_zero]
  decide

theorem ck1_stored : ck1.stored 0 = 0 := by
  rw [State.stored, State.readField16, show fieldAddr 0 = 0x100A from rfl, ck1_zero _ (by omega) (by omega),
    ck1_zero _ (by omega) (by omega)]
  rfl

theorem ck1_needsRepair : ck1.needsRepair 0 = true :=
  (ck1.needsRepair_iff 0).2 ⟨ck1_hasSig, by rw [ck1_stored, ck1_sum]; decide⟩

/-- Vector CK1: OK(1), the field becomes 01 A3. -/
theorem test_ckfix_ck1 : ∃ t, exec (.ckfix 0) ck1 = .next t ∧ t.result = 1 ∧ t.fixlog = 1 ∧
    t.readByte .save 0x100A = 0x01 ∧ t.readByte .save 0x100B = 0xA3 := by
  refine ⟨_, execCkfix_of_region ck1 (sel := 0) (r := 0) rfl, ?_⟩
  rw [State.readByte_complete, State.readByte_complete, State.readByte_orFixlog, State.readByte_orFixlog,
    State.complete_result, State.complete_fixlog, State.orFixlog_fixlog, State.repairRegion_fixlog]
  rw [State.readByte_repairRegion, State.readByte_repairRegion,
    ck1_needsRepair, if_pos ⟨rfl, rfl, rfl⟩, if_neg (by decide), if_pos ⟨rfl, rfl, rfl⟩, ck1_sum]
  decide

/-- Vector CK7: five of the six signature bytes are not enough, SAVE is left as it is. -/
theorem test_ckfix_ck7 : ∃ t, exec (.ckfix 0) (ck1.writeByte .save 0x29 0x34) = .next t ∧ t.result = 0 ∧
    t.save = (ck1.writeByte .save 0x29 0x34).save := by
  have hs : (ck1.writeByte .save 0x29 0x34).hasSig 0 = false := by
    refine Bool.eq_false_iff.2 fun h => ?_
    have h5 := ((ck1.writeByte .save 0x29 0x34).hasSig_iff 0).1 h 5 (by omega)
    rw [State.readByte_writeByte, if_pos ⟨rfl, rfl⟩] at h5
    exact absurd h5 (by decide)
  have hn : (ck1.writeByte .save 0x29 0x34).needsRepair 0 = false := by rw [State.needsRepair, hs, Bool.false_and]
  refine ⟨_, execCkfix_of_region _ (sel := 0) (r := 0) rfl, ?_⟩
  rw [hn, State.repairRegion_of_not _ hn]
  exact ⟨rfl, rfl⟩

/-- CKFIXALL on vector CK1: mask 1, region 0 repaired, the unsigned regions left alone. -/
theorem test_ckfixall_ck1 : ∃ t, exec .ckfixall ck1 = .next t ∧ t.result = 1 ∧ t.readByte .save 0x100B = 0xA3 := by
  have hall : ck1.repairAll 0 Config.regionOrder = (ck1.repairRegion 0, 1) := by
    rw [Config.regionOrder, State.repairAll, ck1_needsRepair, State.repairAll_of_unsigned]
    · rfl
    · intro r hr
      have h0 : r ≠ 0 := fun h => by subst h; simp at hr
      have hl := region_layout r
      have hd := region_disjoint 0 r (Fin.pos_of_ne_zero h0)
      have hz := region_layout 0
      rw [← ck1_unsigned r h0]
      exact ck1.hasSig_congr (by simp) fun x h1 _ => ck1.readByte_repairRegion_of_outside 0 .save x (by omega)
  refine ⟨_, execCkfixall_eq ck1, ?_⟩
  rw [State.readByte_complete, State.readByte_orFixlog, hall, State.complete_result, State.readByte_repairRegion,
    ck1_needsRepair, if_neg (by decide), if_pos ⟨rfl, rfl, rfl⟩, ck1_sum]
  decide

/-! ### The host's side and the assembler -/

/-- 10_state R33: registers 10 and 11 take a host write, FIXLOG and an unknown number do not. -/
theorem test_hostWriteReg :
    (State.reset.hostWriteReg 10 160).hostReadReg 10 = 160 ∧ (State.reset.hostWriteReg 11 112).rh = 112 ∧
      State.reset.hostWriteReg 7 255 = State.reset ∧ State.reset.hostWriteReg 12 1 = State.reset ∧
      State.reset.hostReadReg 12 = 0 := by decide

/-- 70_reset R210, R211: a reset leaves FAULTED mode, discards the presented command and keeps SAVE. -/
theorem test_reset_move :
    step { faultedState with save := [(5, 0xA5)], host := [.reset] } =
      .next { State.reset with save := [(5, 0xA5)], responses := [⟨.fault, 2⟩] } := rfl

/-- The machine stops by name where nothing can move (93 U15). -/
theorem test_step_stops :
    step State.reset = .fault .idle ∧ step faultedState = .fault .stuckFaulted ∧
      step (hosted (.load .save 131071 [1, 2])) = .fault .noSuchAddress := ⟨rfl, rfl, rfl⟩

/-- 30_encoding R95, R96 and program P4: the assembler's lines. -/
theorem test_assemble :
    assembleLine "RDBITS SAVE, 4, 8".toList = some [.rdbits 0 4 8] ∧
      assembleLine "RUN 1 ; the pipeline".toList = some [.embed 1, .ckfixall] ∧
      assembleLine "WRBYTE SAVE, 0x100, 0x80".toList = some [.wrbits 0 0x800 8 0x80] ∧
      assembleLine "RDCK 0".toList = some [.rdbits 0 0x8050 16] ∧
      assembleLine "CKFIX 256".toList = none := by decide

/-! ### Witnesses: for each obligation with hypotheses, a state and operands that meet them -/

theorem reset_inv : State.reset.Inv := by
  simp [State.Inv, State.BuffersOK, State.reset, State.busy, State.FaultRegsOK, State.faulted]

/-- EveryStepKeepsTheInvariant: a command that faults is presented. -/
theorem witness_EveryStepKeepsTheInvariant :
    (presented [0#96]).Inv ∧ step (presented [0#96]) = .next (State.reset.raise .illegalCmd 0#96) := by
  refine ⟨?_, rfl⟩
  simp [presented, State.Inv, State.BuffersOK, State.reset, State.busy, State.FaultRegsOK, State.faulted]

theorem witness_DecodeOfEncode :
    (Instr.rdbits 1 0xFFFFFFFF 255).WellFormed ∧ (Instr.wrbits 0 0 0 0xFFFFFFFF).WellFormed ∧
      (Instr.embed 255).WellFormed ∧ (Instr.ckfix 0).WellFormed ∧ Instr.ckfixall.WellFormed := by decide

theorem witness_EncodeOfDecode : decode 0x100100FFFFFFFFFF00000000#96 = .ok (.rdbits 1 0xFFFFFFFF 255) := by decide

/-- LegalMasksDecideDecoding: a word that matches no mask. -/
theorem witness_LegalMasksDecideDecoding :
    0#96 &&& 0xFFFEFF0000000000FFFFFFFF#96 ≠ 0x100000000000000000000000#96 ∧
      0#96 &&& 0xFFFEFF000000000000000000#96 ≠ 0x110000000000000000000000#96 ∧
      0#96 &&& 0xFFFF00FFFFFFFFFFFFFFFFFF#96 ≠ 0x200000000000000000000000#96 ∧
      0#96 &&& 0xFFFF00FFFFFFFFFFFFFFFFFF#96 ≠ 0x300000000000000000000000#96 ∧
      0#96 &&& 0xFFFFFFFFFFFFFFFFFFFFFFFF#96 ≠ 0x310000000000000000000000#96 := by decide

theorem witness_OperandsAreTheFieldsAsTheyStand :
    decode 0x100100200000000700000000#96 = .ok (.rdbits 1 7 32) ∧
      decode 0x11000020FFFFFFFFFFFFFFFF#96 = .ok (.wrbits 0 0xFFFFFFFF 32 0xFFFFFFFF) ∧
      decode 0x2000FF000000000000000000#96 = .ok (.embed 255) ∧
      decode 0x300008000000000000000000#96 = .ok (.ckfix 8) ∧
      decode 0x310000000000000000000000#96 = .ok .ckfixall := by decide

theorem witness_HostBytesAreMostSignificantFirst : ([] : List Byte).length ≠ 12 := by decide

theorem witness_StepRunsTheDecodedCommand :
    (presented [0x310000000000000000000000#96, 0#96]).port = 0x310000000000000000000000#96 :: [0#96] ∧
      (presented [0x310000000000000000000000#96, 0#96]).faulted = false ∧
      decode 0x310000000000000000000000#96 = .ok .ckfixall := by decide

/-- UndecodableWordsFault: a word for each clause, the last of them presented to a RUNNABLE engine (vectors DF5 to DF9,
DF15, DF16). -/
theorem witness_UndecodableWordsFault :
    Command.op 0x120000000000000000000000#96 ∉ [0x10#8, 0x11#8, 0x20#8, 0x30#8, 0x31#8] ∧
      (Command.op 0x100000080000000000000001#96 = 0x10#8 ∧ Command.val 0x100000080000000000000001#96 ≠ 0) ∧
      (Command.op 0x110001080000000000000000#96 = 0x11#8 ∧ Command.sel 0x110001080000000000000000#96 ≠ 0) ∧
      (Command.op 0x300000010000000000000000#96 = 0x30#8 ∧ Command.w 0x300000010000000000000000#96 ≠ 0) ∧
      (Command.op 0x100200080000000000000000#96 = 0x10#8 ∧ Command.sel 0x100200080000000000000000#96 = 0 ∧
        Command.val 0x100200080000000000000000#96 = 0 ∧ 1 < (Command.buf 0x100200080000000000000000#96).toNat) ∧
      (Command.op 0x310001000000000000000000#96 = 0x31#8 ∧ Command.sel 0x310001000000000000000000#96 ≠ 0) ∧
      (presented [0x310001000000000000000000#96]).port = 0x310001000000000000000000#96 :: [] ∧
      (presented [0x310001000000000000000000#96]).faulted = false := by decide

theorem witness_FaultedEngineTakesNoCommand :
    faultedState.faulted = true ∧ faultedState.port ≠ [] ∧ faultedState.host = [] := by decide

/-- OnlyResetLeavesFaultedMode: a host move that is no reset, in FAULTED mode. -/
theorem witness_OnlyResetLeavesFaultedMode :
    { faultedState with host := [.writeReg 10 160] }.faulted = true ∧
      step { faultedState with host := [.writeReg 10 160] } = .next { faultedState with rw := 160 } := ⟨rfl, rfl⟩

theorem witness_HostNeverMovesInsideARun :
    { hosted .reset with port := [0#96] }.port = 0#96 :: [] ∧
      { hosted .reset with port := [0#96] }.faulted = false := by decide

/-- RdbitsReadsTheField, WrbitsWritesTheFieldAlone and FieldRoundTrip: the first bit and the last word of SAVE, a field
of two bytes, and the last bit of a RASTER of one byte. -/
theorem witness_admitted_fields :
    (0 + (1#8).toNat ≤ 8 * State.reset.len .save ∧ 1 ≤ (1#8).toNat) ∧
      ((1048544#32).toNat + (32#8).toNat ≤ 8 * State.reset.len .save ∧ (32#8).toNat ≤ 32) ∧
      (7#32).toNat + (2#8).toNat ≤ 8 * State.reset.len .save ∧
      (7#32).toNat + (1#8).toNat ≤ 8 * ({ State.reset with rlen := 1 } : State).len .raster := by decide

/-- The bits and bytes next to a field, which the frame clauses speak of. -/
theorem witness_WrbitsWritesTheFieldAlone :
    (1048543 < (1048544#32).toNat ∧ (0#32).toNat + (32#8).toNat ≤ 32) ∧
      (131067 < (1048544#32).toNat / 8 ∧ ((0#32).toNat + (32#8).toNat - 1) / 8 < 4) ∧ Buf.raster ≠ Buf.save := by decide

theorem witness_BadWidthFaults :
    (0#8).toNat = 0 ∧ 32 < (33#8).toNat ∧ 32 < (255#8).toNat ∧ ((1#8) = 0 ∨ (1#8) = 1) := by decide

/-- OutOfRangeFaults: one bit too far in SAVE, an empty RASTER, a sum above 32 bits. -/
theorem witness_OutOfRangeFaults :
    8 * State.reset.len .save < (1048545#32).toNat + (32#8).toNat ∧
      8 * State.reset.len .raster < (0#32).toNat + (1#8).toNat ∧
      8 * State.reset.len .save < (0xFFFFFFE0#32).toNat + (32#8).toNat ∧ State.reset.rlen = 0 := by decide

/-- FieldWritesCommute: two fields that share a byte, two that meet in one, and two that intersect. -/
theorem witness_FieldWritesCommute :
    (0 + 5 ≤ 5 ∧ 5 + 5 ≤ 8 * State.reset.len .save) ∧ (1048544 + 32 ≤ 8 * State.reset.len .save ∧ 0 + 32 ≤ 1048544) ∧
      ¬ (0 + 5 ≤ 4 ∨ 4 + 32 ≤ 0) := by decide

/-- BitAccessClosedForm: one bit of one byte, and five bytes. -/
theorem witness_BitAccessClosedForm :
    1048575 + 1 ≤ 8 * State.reset.len .save ∧ (7 + 32 + 7) / 8 = 5 ∧ 7 + 32 ≤ 8 * State.reset.len .save := by decide

theorem witness_SixteenBitFieldIsBigEndian : 131070 + 2 ≤ 131072 ∧ 131069 ≠ 131070 ∧ 131069 ≠ 131070 + 1 := by decide

/-- EmbedChecksInOrder: each arm is reached. -/
theorem witness_EmbedChecksInOrder :
    ((0#8).toNat ≠ 1 ∧ (3#8).toNat ≠ 2) ∧ ({ goodRaster with rw := 112 } : State).rw.toNat ≠ 160 ∧
      ({ goodRaster with rlen := 17919 } : State).rlen.toNat < 17920 ∧ ¬ goodRaster.rlen.toNat < 17920 := by decide

/-- EmbedStoresEveryPixel, EmbedIsThePixelLoop, EmbedTwiceIsEmbedOnce and PipelineEmbedsAndRepairs: both slots, a raster
of exactly 17920 bytes and a longer one. -/
theorem witness_good_raster :
    ((1#8).toNat = 1 ∧ (2#8).toNat = 2) ∧ goodRaster.RasterOK ∧ ({ goodRaster with rlen := 17974 } : State).RasterOK ∧
      Memory.wf goodRaster.save := by
  unfold State.RasterOK
  decide

theorem witness_EmbedLeavesSignaturesAndFieldsAlone :
    exec (.embed 1) goodRaster = .next ((goodRaster.embedImage 1).complete 0) ∧
      (6 : Fin 8).val ≠ 2 + 2 * (1#8).toNat ∧ (4 : Fin 8).val = 2 + 2 * (1#8).toNat :=
  ⟨exec_embed_one goodRaster_ok, by decide⟩

/-- EmbedReadsOnlyThePixelArray: two states that differ in a raster byte before the pixel array. -/
theorem witness_EmbedReadsOnlyThePixelArray :
    let s : State := { goodRaster with rlen := 17921 }
    let s' : State := { s with raster := [(0, 0xFF)] }
    s.LaunchKept s' ∧ s.BufferKept s' .save ∧
      (∀ a, s.rlen.toNat - 17920 ≤ a → a < s.rlen.toNat → s'.readByte .raster a = s.readByte .raster a) ∧
      exec (.embed 1) s = .next ((s.embedImage 1).complete 0) ∧
      exec (.embed 1) s' = .next ((s'.embedImage 1).complete 0) := by
  refine ⟨⟨rfl, rfl, rfl⟩, fun _ => rfl, fun a ha _ => ?_, exec_embed_one ⟨rfl, rfl, by decide⟩,
    exec_embed_one ⟨rfl, rfl, by decide⟩⟩
  have ha : 1 ≤ a := ha
  show Memory.read .raster [(0, 0xFF)] a = Memory.read .raster [] a
  rw [Memory.read, Memory.read, Memory.lookup_cons, if_neg (by omega), if_neg (by omega)]

theorem witness_RegionsTileTheirPartOfSave : (1 : Fin 8).val = (0 : Fin 8).val + 1 ∧ (7 : Fin 8).val = (6 : Fin 8).val + 1 := by
  decide

/-- ComputedSumLeavesOutTheField: two states that differ in the field alone. -/
theorem witness_ComputedSumLeavesOutTheField :
    ∀ k, k < (Config.region 0).len → k ≠ 0x100A → k ≠ 0x100B →
      (State.reset.writeField16 0x100A 0xFFFF).readByte .save ((Config.region 0).start + k) =
        State.reset.readByte .save ((Config.region 0).start + k) := by
  intro k _ h1 h2
  rw [show (Config.region 0).start + k = k from Nat.zero_add k, State.readByte_writeField16, if_neg (by omega),
    if_neg (by omega)]

/-- CkfixRepairsItsRegion, CkfixallRepairsEveryRegion and CkfixallTwiceFindsNothing: a signed region with a wrong field,
and regions without the signature, up to the last. -/
theorem witness_regions_to_repair :
    (ck1.hasSig 0 = true ∧ ck1.stored 0 ≠ ck1.sum16 0 ∧ (0#8).toNat = (0 : Fin 8).val) ∧
      (ck1.hasSig 7 = false ∧ (7#8).toNat = (7 : Fin 8).val) :=
  ⟨⟨ck1_hasSig, by rw [ck1_stored, ck1_sum]; decide, rfl⟩, ck1_unsigned 7 (by decide), rfl⟩

theorem witness_CkfixOfNoRegionFaults : 8 ≤ (8#8).toNat ∧ 8 ≤ (255#8).toNat := by decide

/-- RepairsAreIndependent: states that differ just outside region 1, two regions, and another order. -/
theorem witness_RepairsAreIndependent :
    (∀ a, (Config.region 1).start ≤ a → a < (Config.region 1).start + (Config.region 1).len →
      (State.reset.writeByte .save 0x1FFF 0xFF).readByte .save a = State.reset.readByte .save a) ∧
      0x1FFF < (Config.region 1).start ∧ (Config.region 1).start + (Config.region 1).len ≤ 0x4000 ∧
      (0 : Fin 8) ≠ 1 ∧ [7, 6, 5, 4, 3, 2, 1, 0].Perm ([0, 1, 2, 3, 4, 5, 6, 7] : List (Fin 8)) := by
  refine ⟨fun a ha _ => ?_, by decide, by decide, by decide, by decide⟩
  rw [show (Config.region 1).start = 0x2000 from rfl] at ha
  rw [State.readByte_writeByte, if_neg (by omega)]

/-- UnsignedRegionIsUntouched: CKFIX 0 and CKFIXALL where region 1 starts its signature with a zero. -/
theorem witness_UnsignedRegionIsUntouched :
    (0 < 6 ∧ ck1.readByte .save ((Config.region 1).start + 0x24 + 0) ≠ ck1.sig.bytes.getD 0 0) ∧
      (∃ t, exec (.ckfix 0) ck1 = .next t ∧ ck1.faulted = false ∧ t.faulted = false) ∧
      (∃ t, exec .ckfixall ck1 = .next t ∧ ck1.faulted = false ∧ t.faulted = false) := by
  refine ⟨⟨by decide, ?_⟩, ⟨_, execCkfix_of_region ck1 (sel := 0) (r := 0) rfl, rfl, ?_⟩, ⟨_, execCkfixall_eq ck1, rfl, ?_⟩⟩
  · simp only [ck1, List.foldl, State.readByte_writeByte, true_and]
    simp [sigAddr, Config.region, State.reset, Config.defaultSig, Config.Signature.bytes, Config.sigOff]
  · rw [State.faulted, State.complete_status, State.orFixlog_status, State.repairRegion_status]
    rfl
  · rw [State.faulted, State.complete_status, State.orFixlog_status, State.repairAll_status]
    rfl

/-- TailOfSaveIsUntouched: each of the three commands answers a next state; the first byte of the tail. -/
theorem witness_TailOfSaveIsUntouched :
    (∃ t, exec .ckfixall ck1 = .next t) ∧ (∃ t, exec (.ckfix 0) ck1 = .next t) ∧
      (∃ t, exec (.embed 1) goodRaster = .next t) ∧ 0x18000 ≤ 0x18000 :=
  ⟨⟨_, rfl⟩, ⟨_, rfl⟩, ⟨_, exec_embed_one goodRaster_ok⟩, Nat.le_refl _⟩

/-- CommandsRaiseExactlyTheirCauses: a word and a state for each of the seven causes, and CKFIXALL on a RUNNABLE state. -/
theorem witness_CommandsRaiseExactlyTheirCauses :
    runCommand 0#96 State.reset = .next (State.reset.raise .illegalCmd 0#96) ∧
      runCommand 0x100000000000000000000000#96 State.reset =
        .next (State.reset.raise .badWidth 0x100000000000000000000000#96) ∧
      runCommand 0x110100010000000000000000#96 State.reset =
        .next (State.reset.raise .outOfRange 0x110100010000000000000000#96) ∧
      runCommand 0x200000000000000000000000#96 State.reset =
        .next (State.reset.raise .badSlot 0x200000000000000000000000#96) ∧
      runCommand 0x200002000000000000000000#96 State.reset =
        .next (State.reset.raise .badDims 0x200002000000000000000000#96) ∧
      runCommand 0x200002000000000000000000#96 { goodRaster with rlen := 17919 } =
        .next (({ goodRaster with rlen := 17919 } : State).raise .rasterShort 0x200002000000000000000000#96) ∧
      runCommand 0x3000FF000000000000000000#96 State.reset =
        .next (State.reset.raise .badRegion 0x3000FF000000000000000000#96) ∧
      ∃ t, exec .ckfixall ck1 = .next t ∧ ck1.faulted = false :=
  ⟨rfl, rfl, rfl, rfl, rfl, rfl, rfl, _, rfl, rfl⟩

/-- FirstFailingCheckIsReported, CmdcntCountsCompletedCommands, OneResponsePerCommand, RunEndsNormallyOrByFault and
CommandsKeepLaunchRegistersAndFixlogBits: a command that completes, at the last value of CMDCNT and with a bit of FIXLOG
set, and one that faults. -/
theorem witness_commands_taken :
    (∃ t, runCommand 0x110000010000000000000001#96 { State.reset with cmdcnt := 0xFFFFFFFF, fixlog := 0x80 } = .next t ∧
      t.faulted = false ∧ t.cmdcnt = 0 ∧ ({ State.reset with fixlog := 0x80 } : State).fixlog.getLsbD 7 = true) ∧
      (∃ t, runCommand 0#96 State.reset = .next t ∧ t.faulted = true) ∧ State.reset.faulted = false :=
  ⟨⟨_, rfl, by decide⟩, ⟨_, rfl, by decide⟩, by decide⟩

/-- CommandsKeepLaunchRegistersAndFixlogBits, CmdcntCountsCompletedCommands, OneResponsePerCommand: CKFIX completes too. -/
theorem witness_ckfix_taken :
    ∃ t, runCommand 0x300000000000000000000000#96 ck1 = .next t ∧ ck1.faulted = false :=
  ⟨_, execCkfix_of_region ck1 (sel := 0) (r := 0) rfl, rfl⟩

/-- HostWritesReachOnlyLaunchRegisters: a host write to come, idle and in FAULTED mode with a command presented. -/
theorem witness_HostWritesReachOnlyLaunchRegisters :
    (11 < 12 ∧ (0#32).toNat ≤ Config.rcap) ∧
      ((hosted (.writeReg 9 0)).port = [] ∧ (hosted (.writeReg 9 0)).host = .writeReg 9 0 :: []) ∧
      ({ faultedState with host := [.writeReg 11 112] }.faulted = true ∧
        { faultedState with host := [.writeReg 11 112] }.host = .writeReg 11 112 :: []) :=
  ⟨⟨by decide, Nat.zero_le _⟩, by decide⟩

/-- HostLoadWritesItsBytesAlone: the last two bytes of SAVE, and the byte before them. -/
theorem witness_HostLoadWritesItsBytesAlone :
    (hosted (.load .save 131070 [1, 2])).port = [] ∧
      (hosted (.load .save 131070 [1, 2])).host = .load .save 131070 [1, 2] :: [] ∧
      131070 + ([1, 2] : List Byte).length ≤ hostLen .save ∧ ([1, 2] : List Byte)[1]? = some 2 ∧ 131069 < 131070 := by
  decide

/-- ResetClearsRegistersKeepsBuffers: in FAULTED mode with a command presented, and when idle. -/
theorem witness_ResetClearsRegistersKeepsBuffers :
    ({ faultedState with host := [.reset] }.faulted = true ∧ { faultedState with host := [.reset] }.host = .reset :: []) ∧
      (hosted .reset).port = [] ∧ (hosted .reset).host = .reset :: [] := by decide

/-- InterruptedCommandLosesOnlyItsBytes: a WRBITS of two bytes is interrupted; each kind of command has its clause, one
for a RASTER field and for operands that fail their checks among them. -/
theorem witness_InterruptedCommandLosesOnlyItsBytes :
    ((hosted (.resetDuring 0x110000020000000700000003#96)).port = [] ∧
      (hosted (.resetDuring 0x110000020000000700000003#96)).host = .resetDuring 0x110000020000000700000003#96 :: []) ∧
      State.reset.abandoned 0x110000020000000700000003#96 = [(.save, 0, 2)] ∧
      goodRaster.abandoned 0x1101000800022FF8000000FF#96 = [(.raster, 17919, 1)] ∧
      State.reset.abandoned 0x110100080000000000000000#96 = [] ∧
      goodRaster.abandoned 0x200001000000000000000000#96 = [(.save, 0x90E0, 11200)] ∧
      goodRaster.abandoned 0x200003000000000000000000#96 = [] ∧
      State.reset.abandoned 0x200001000000000000000000#96 = [] ∧
      State.reset.abandoned 0x300007000000000000000000#96 = [(.save, 0x1500A, 2)] ∧
      State.reset.abandoned 0x300008000000000000000000#96 = [] ∧
      (State.reset.abandoned 0x310000000000000000000000#96).length = 8 ∧
      State.reset.abandoned 0x100000080000000000000000#96 = [] ∧ State.reset.abandoned 0#96 = [] ∧
      faultedState.abandoned 0x310000000000000000000000#96 = [] := by decide

/-- RunEndsNormallyOrByFault: program P3 without its first command ends by fault at its first command; the run of no
command ends normally. -/
theorem witness_RunEndsNormallyOrByFault :
    State.reset.NoFault ∧ State.reset.EndedNormally [] State.reset ∧
      State.reset.EndedByFault [0x10000009000FFFF800000000#96, 0x1100000800000000000000FF#96]
        { State.reset.raise .outOfRange 0x10000009000FFFF800000000#96 with port := [0x1100000800000000000000FF#96] } :=
  ⟨rfl, ⟨rfl, rfl, rfl, rfl, [], rfl, rfl⟩, 0, by decide, rfl, rfl, rfl, rfl, rfl, [], rfl, rfl⟩

/-- What a faulted run and the reset after it leave: RUNNABLE with an empty port, yet no normal end, for there is no OK
response to the command (70_reset R215). -/
theorem test_reset_after_fault_is_no_normal_end :
    (State.reset.raise .illegalCmd 0#96).applyReset.NoFault ∧ (State.reset.raise .illegalCmd 0#96).applyReset.port = [] ∧
      ¬ State.reset.EndedNormally [0#96] (State.reset.raise .illegalCmd 0#96).applyReset := by
  refine ⟨rfl, rfl, ?_⟩
  rintro ⟨-, -, -, -, ds, -, hr⟩
  cases ds <;> simp [okResponses, State.reset] at hr

/-- SubmittedRunIsLaunched: a run is submitted to an idle engine, and to a FAULTED one. -/
theorem witness_SubmittedRunIsLaunched :
    ((hosted (.submit [0#96])).port = [] ∧ (hosted (.submit [0#96])).host = .submit [0#96] :: []) ∧
      ({ faultedState with host := [.submit [0#96]] }.faulted = true ∧
        { faultedState with host := [.submit [0#96]] }.host = .submit [0#96] :: []) := by decide

/-! ### SIG is a parameter -/

theorem readByte_with_sig (s : State) (g : Config.Signature) (b : Buf) (a : Nat) :
    ({ s with sig := g } : State).readByte b a = s.readByte b a := by
  cases b <;> rfl

/-- Under SIG = `ZELDA4` the region of vector CK7 is signed (42_checksum R153). -/
theorem test_sig_is_a_parameter :
    State.hasSig { ck1.writeByte .save 0x29 0x34 with sig := { b5 := 0x34 } } 0 = true := by
  refine (State.hasSig_iff _ 0).2 fun k hk => ?_
  have hs := (ck1.hasSig_iff 0).1 ck1_hasSig k hk
  rw [readByte_with_sig, State.readByte_writeByte, hs, show sigAddr 0 = 0x24 from rfl, show ck1.sig = {} from by
    simp [ck1, State.reset, Config.defaultSig]]
  interval_cases k <;> rfl

/-- SignatureIsAParameter: a state with another SIG, and a step. -/
theorem witness_SignatureIsAParameter :
    ({ ck1 with sig := { b5 := 0x34 } } : State).sig = { b5 := 0x34 } ∧
      step (presented [0#96]) = .next (State.reset.raise .illegalCmd 0#96) := ⟨rfl, rfl⟩

end Sys2Proof.Machine.Tests
end

/-! What every command answers and keeps, what every step keeps of the configuration, and the correction mask of CKFIXALL
bit by bit; with these the two statements on the scope of the model (spec/00_scope.md). -/

namespace Sys2Proof.Machine

variable (s : State)

/-! ### Every command answers, and keeps the launch registers and the queues -/

/-- No command stops the model: each answers a next state, its spec faults included. -/
theorem exec_total (i : Instr) : ∃ t, exec i s = .next t := by
  cases i with
  | rdbits buf off w => simp only [exec, execRdbits]; split <;> exact ⟨_, rfl⟩
  | wrbits buf off w val => simp only [exec, execWrbits]; split <;> exact ⟨_, rfl⟩
  | embed sel => simp only [exec, execEmbed]; split <;> exact ⟨_, rfl⟩
  | ckfix sel => simp only [exec, execCkfix]; split <;> exact ⟨_, rfl⟩
  | ckfixall => exact ⟨_, execCkfixall_eq s⟩

theorem runCommand_total (c : Command) : ∃ t, runCommand c s = .next t := by
  unfold runCommand
  split
  · exact ⟨_, rfl⟩
  · exact exec_total s _

/-- A fault changes neither the launch registers nor the queues (60_exceptions R184). -/
theorem State.raise_keeps (cause : Cause) (c : Command) :
    s.LaunchKept (s.raise cause c) ∧ s.QueuesKept (s.raise cause c) := ⟨⟨rfl, rfl, rfl⟩, rfl, rfl, rfl, rfl⟩

/-- No command writes RLEN, RW or RH, and none touches the port, the host's moves, the free-value counter or SIG
(10_state R22, R23, R38). -/
theorem exec_keeps {i : Instr} {t : State} (h : exec i s = .next t) : s.LaunchKept t ∧ s.QueuesKept t := by
  rcases exec_cases s h with ⟨cause, rfl⟩ | ⟨b, off, w, v, rfl, -⟩ | ⟨d, rfl⟩ | ⟨slot, -, rfl⟩ | ⟨rs, m, rfl⟩
  · exact s.raise_keeps cause _
  all_goals simp [State.LaunchKept, State.QueuesKept]

/-- The engine's turn with a command word keeps them too, whether or not the word names a command. -/
theorem runCommand_keeps {c : Command} {t : State} (h : runCommand c s = .next t) :
    s.LaunchKept t ∧ s.QueuesKept t := by
  rcases runCommand_cases s h with ⟨e, -, rfl⟩ | ⟨i, -, hi⟩
  · exact s.raise_keeps .illegalCmd c
  · exact exec_keeps s hi

/-! ### Who moves -/

/-- A RUNNABLE engine with a command presented takes that command (10_state R36). -/
theorem step_eq_runCommand {c : Command} {cs : List Command} (hp : s.port = c :: cs) (hf : s.faulted = false) :
    step s = runCommand c { s with port := cs } := by
  simp only [step, runNext, hp, hf, Bool.false_eq_true, if_false]

/-- Settles O15: the step is the engine's, and a command keeps the host's moves and the launch registers. -/
theorem hostNeverMovesInsideARun : Obligations.HostNeverMovesInsideARun := by
  intro s c cs hp hf
  obtain ⟨t, ht⟩ := runCommand_total { s with port := cs } c
  obtain ⟨hlaunch, hport, hhost, -, -⟩ := runCommand_keeps _ ht
  exact ⟨t, (step_eq_runCommand s hp hf).trans ht, hhost, hport, hlaunch⟩

/-! ### SIG is configuration -/

@[simp] theorem State.hostWriteReg_sig (n : Nat) (v : Word32) : (s.hostWriteReg n v).sig = s.sig := by
  rcases s.hostWriteReg_cases n v with h | ⟨-, -, h⟩ | ⟨-, h⟩ | ⟨-, h⟩ <;> rw [h]

@[simp] theorem State.resetDuring_sig (c : Command) : (s.resetDuring c).sig = s.sig :=
  s.loseBlocks_keeps (P := fun t => t.sig = s.sig) (s.abandoned c)
    (fun blk _ t ht => (t.loseBlock_sig blk).trans ht) rfl

/-- No host move changes SIG (10_state R38). -/
theorem hostMove_sig {m : HostMove} {t : State} (h : hostMove m s = .next t) : t.sig = s.sig := by
  rcases hostMove_cases s h with ⟨b, a, bytes, -, -, rfl⟩ | ⟨n, v, -, rfl⟩ | ⟨cs, -, rfl⟩ | ⟨-, rfl⟩ | ⟨c, -, rfl⟩
  · exact s.writeBytes_sig b a bytes
  · exact s.hostWriteReg_sig n v
  · rfl
  · exact s.applyReset_sig
  · exact s.resetDuring_sig c

/-- No step of either agent changes SIG (10_state R38). -/
theorem step_sig {t : State} (h : step s = .next t) : t.sig = s.sig := by
  rcases step_cases s h with ⟨c, cs, -, -, hrun⟩ | ⟨m, ms, -, -, hmove⟩
  · obtain ⟨-, -, -, -, hsig⟩ := runCommand_keeps _ hrun
    exact hsig
  · exact hostMove_sig { s with host := ms } hmove

/-! ### The repairs of different regions do not disturb each other -/

/-- A repair of one region changes no byte of another (42_checksum R161). -/
theorem State.readByte_repairRegion_of_ne {r q : Fin 8} (hne : q ≠ r) {x : Nat} (hlo : (Config.region q).start ≤ x)
    (hhi : x < (Config.region q).start + (Config.region q).len) :
    (s.repairRegion r).readByte .save x = s.readByte .save x := by
  have layout := region_layout r
  refine s.readByte_repairRegion_of_outside r .save x (.inr ?_)
  rcases lt_or_gt_of_ne hne with hlt | hgt
  · have := region_disjoint q r hlt
    omega
  · have := region_disjoint r q hgt
    omega

/-- Whether a region needs repair is its own business: the repair of another does not change it (42_checksum R161). -/
theorem State.needsRepair_repairRegion_of_ne {r q : Fin 8} (hne : q ≠ r) :
    (s.repairRegion r).needsRepair q = s.needsRepair q := by
  have layout := region_layout q
  have kept : ∀ x, (Config.region q).start ≤ x → x < (Config.region q).start + (Config.region q).len →
      (s.repairRegion r).readByte .save x = s.readByte .save x := fun x => s.readByte_repairRegion_of_ne hne
  have field0 := kept (fieldAddr q) (by omega) (by omega)
  have field1 := kept (fieldAddr q + 1) (by omega) (by omega)
  unfold State.needsRepair
  rw [s.hasSig_congr (s.repairRegion_sig r) fun x hlo hhi => kept x (by omega) (by omega),
    s.stored_congr field0 field1, s.sum16_congr kept field0 field1]

/-! ### The correction mask, bit by bit -/

theorem getLsbD_correctionBit (r q : Fin 8) (corrected : Bool) :
    (correctionBit r corrected).getLsbD q.val = (decide (q = r) && corrected) := by
  revert r q corrected; decide

/-- THE MASK OF A PASS: a bit set before stays, and the bit of a region of the list is set exactly when that region
needed repair BEFORE the pass (42_checksum R160, R161). -/
theorem State.getLsbD_repairAll_mask (m : BitVec 8) {rs : List (Fin 8)} (hrs : rs.Nodup) (q : Fin 8) :
    (s.repairAll m rs).2.getLsbD q.val = (m.getLsbD q.val || (decide (q ∈ rs) && s.needsRepair q)) := by
  induction rs generalizing s m with
  | nil => simp [State.repairAll]
  | cons r rs ih =>
    obtain ⟨hr, hrest⟩ := List.nodup_cons.1 hrs
    rw [State.repairAll, ih _ _ hrest, BitVec.getLsbD_or, getLsbD_correctionBit]
    by_cases hq : q = r
    · subst hq
      simp [hr]
    · simp [hq, s.needsRepair_repairRegion_of_ne hq]

/-- CKFIXALL answers a mask whose bit `q` says whether region `q` needed repair (42_checksum R160). -/
theorem State.getLsbD_ckfixall_mask (q : Fin 8) :
    ((s.repairAll 0 Config.regionOrder).2.setWidth 32).getLsbD q.val = s.needsRepair q := by
  have hmem : q ∈ Config.regionOrder := by revert q; decide
  have hq : q.val < 32 := by omega
  rw [BitVec.getLsbD_setWidth, s.getLsbD_repairAll_mask 0 (by decide) q]
  simp [hmem, hq]

/-- Settles O56: the mask bit is `needsRepair`, whose signature test reads the state's SIG, which every step keeps. -/
theorem signatureIsAParameter : Obligations.SignatureIsAParameter := by
  refine ⟨?_, fun s t => step_sig s, rfl⟩
  rintro s g rfl
  refine ⟨_, execCkfixall_eq s, fun r => ?_⟩
  rw [State.complete_result, s.getLsbD_ckfixall_mask, s.needsRepair_iff, s.hasSig_iff]
  rfl

end Sys2Proof.Machine

/-! The state as a whole (spec/10_state.md): what a command does to the registers, what a host move does to them, where a
step stops, and the machine's invariant, which holds at reset and which every step keeps. -/

namespace Sys2Proof.Machine

section

variable (s : State)

/-! ### A command's outcome: completed or faulted, nothing else -/

/-- EVERY COMMAND COMPLETES OR TAKES ITS FAULT (10_state R26, R34; 60_exceptions R184). -/
theorem exec_outcome {i : Instr} {t : State} (h : exec i s = .next t) :
    s.CompletedWith t t.result ∨ ∃ cause, t = s.raise cause (encode i) := by
  rcases exec_cases s h with ⟨cause, rfl⟩ | ⟨b, off, w, v, rfl, -⟩ | ⟨d, rfl⟩ | ⟨slot, -, rfl⟩ | ⟨rs, m, rfl⟩
  · exact .inr ⟨cause, rfl⟩
  all_goals
    exact .inl (by simp [State.CompletedWith, State.FaultRecordKept, State.LaunchKept, State.QueuesKept])

/-- The engine's turn with a command word has the same two outcomes, whether or not the word names a command. -/
theorem runCommand_outcome {c : Command} {t : State} (h : runCommand c s = .next t) :
    s.CompletedWith t t.result ∨ ∃ cause w, t = s.raise cause w := by
  rcases runCommand_cases s h with ⟨e, -, rfl⟩ | ⟨i, -, hi⟩
  · exact .inr ⟨.illegalCmd, c, rfl⟩
  · exact (exec_outcome s hi).imp_right fun ⟨cause, ht⟩ => ⟨cause, encode i, ht⟩

variable {s}

theorem State.FaultRecordKept.faulted {t : State} (h : s.FaultRecordKept t) : t.faulted = s.faulted := by
  unfold State.faulted
  rw [h.1]

theorem State.FaultRecordKept.busy {t : State} (h : s.FaultRecordKept t) : t.busy = s.busy := by
  unfold State.busy
  rw [h.1]

theorem State.CompletedWith.faulted {t : State} {d : Word32} (h : s.CompletedWith t d) : t.faulted = s.faulted := by
  obtain ⟨-, -, -, record, -, -⟩ := h
  exact record.faulted

/-- A command that leaves the engine RUNNABLE completed. -/
theorem completed_of_runnable {c : Command} {t : State} (h : runCommand c s = .next t) (ht : t.faulted = false) :
    s.CompletedWith t t.result := by
  rcases runCommand_outcome s h with done | ⟨cause, w, rfl⟩
  · exact done
  · simp at ht

/-- A command taken while RUNNABLE that leaves the engine FAULTED took a fault. -/
theorem raised_of_faulted {c : Command} {t : State} (hs : s.faulted = false) (h : runCommand c s = .next t)
    (ht : t.faulted = true) : ∃ cause w, t = s.raise cause w := by
  rcases runCommand_outcome s h with done | raised
  · rw [done.faulted, hs] at ht
    cases ht
  · exact raised

/-! ### What the opcode says of the outcome -/

/-- A word that decodes carries the opcode of the instruction it decodes to (30_encoding R82, R84). -/
theorem op_of_decode {c : Command} {i : Instr} (h : decode c = .ok i) :
    Command.op c = Laws.EncodesOpcode.opcode i := by
  unfold decode at h
  split_ifs at h with h10 _ _ h11 _ _ h20 _ h30 _ h31 _ <;> cases h <;> assumption

/-- WRBITS and EMBED answer 0 when they complete (40_bitio R114, 41_embed R134). -/
theorem exec_result_eq_zero {i : Instr} {t : State}
    (hop : Laws.EncodesOpcode.opcode i = 0x11#8 ∨ Laws.EncodesOpcode.opcode i = 0x20#8)
    (h : exec i s = .next t) (ht : t.faulted = false) : t.result = 0 := by
  cases i with
  | wrbits buf off w val =>
    rcases execWrbits_cases s h with ⟨cause, -, rfl⟩ | ⟨b, -, rfl⟩
    · simp at ht
    · rfl
  | embed sel =>
    rcases execEmbed_cases s h with ⟨cause, -, rfl⟩ | ⟨slot, -, rfl⟩
    · simp at ht
    · rfl
  | rdbits | ckfix | ckfixall => simp [Laws.EncodesOpcode.opcode] at hop

theorem toNat_setWidth_mask_lt (m : BitVec 8) : (m.setWidth 32).toNat < 256 := by
  have := m.isLt
  rw [BitVec.toNat_setWidth]
  omega

/-- CKFIX and CKFIXALL answer an 8-bit mask when they complete (42_checksum R165). -/
theorem exec_result_lt {i : Instr} {t : State}
    (hop : Laws.EncodesOpcode.opcode i = 0x30#8 ∨ Laws.EncodesOpcode.opcode i = 0x31#8)
    (h : exec i s = .next t) (ht : t.faulted = false) : t.result.toNat < 256 := by
  cases i with
  | ckfix sel =>
    rcases execCkfix_cases s h with ⟨-, rfl⟩ | ⟨r, -, rfl⟩
    · simp at ht
    · exact toNat_setWidth_mask_lt _
  | ckfixall =>
    obtain rfl := Host.Outcome.next.inj ((execCkfixall_eq s).symm.trans h)
    exact toNat_setWidth_mask_lt _
  | rdbits | wrbits | embed => simp [Laws.EncodesOpcode.opcode] at hop

/-- FIXLOG only gains bits, and only CKFIX and CKFIXALL give it any (10_state R29). -/
theorem exec_fixlog {i : Instr} {t : State} (h : exec i s = .next t) :
    ∃ m, t.fixlog = s.fixlog ||| m ∧
      (Laws.EncodesOpcode.opcode i ≠ 0x30#8 → Laws.EncodesOpcode.opcode i ≠ 0x31#8 → m = 0#8) := by
  cases i with
  | rdbits buf off w =>
    rcases execRdbits_cases s h with ⟨cause, -, rfl⟩ | ⟨b, -, rfl⟩ <;> exact ⟨0#8, by simp⟩
  | wrbits buf off w val =>
    rcases execWrbits_cases s h with ⟨cause, -, rfl⟩ | ⟨b, -, rfl⟩ <;> exact ⟨0#8, by simp⟩
  | embed sel =>
    rcases execEmbed_cases s h with ⟨cause, -, rfl⟩ | ⟨slot, -, rfl⟩ <;> exact ⟨0#8, by simp⟩
  | ckfix sel =>
    rcases execCkfix_cases s h with ⟨-, rfl⟩ | ⟨r, -, rfl⟩
    · exact ⟨0#8, by simp⟩
    · exact ⟨correctionBit r (s.needsRepair r), by simp, fun h30 => absurd rfl h30⟩
  | ckfixall =>
    obtain rfl := Host.Outcome.next.inj ((execCkfixall_eq s).symm.trans h)
    exact ⟨(s.repairAll 0 Config.regionOrder).2, by simp, fun _ h31 => absurd rfl h31⟩

/-! ### What a host register write changes -/

variable (s)

/-- What neither RLEN nor RW nor RH bears on, a host register write keeps (10_state R33). -/
theorem State.hostWriteReg_keeps {α : Type} (f : State → α) (n : Nat) (v : Word32)
    (hrlen : f { s with rlen := v } = f s) (hrw : f { s with rw := v } = f s) (hrh : f { s with rh := v } = f s) :
    f (s.hostWriteReg n v) = f s := by
  rcases s.hostWriteReg_cases n v with h | ⟨-, -, h⟩ | ⟨-, h⟩ | ⟨-, h⟩ <;> rw [h]
  · exact hrlen
  · exact hrw
  · exact hrh

@[simp] theorem State.hostWriteReg_mem (n : Nat) (v : Word32) : (s.hostWriteReg n v).mem = s.mem :=
  s.hostWriteReg_keeps (·.mem) n v (by funext b; cases b <;> rfl) (by funext b; cases b <;> rfl)
    (by funext b; cases b <;> rfl)
@[simp] theorem State.hostWriteReg_result (n : Nat) (v : Word32) : (s.hostWriteReg n v).result = s.result :=
  s.hostWriteReg_keeps (·.result) n v rfl rfl rfl
@[simp] theorem State.hostWriteReg_fixlog (n : Nat) (v : Word32) : (s.hostWriteReg n v).fixlog = s.fixlog :=
  s.hostWriteReg_keeps (·.fixlog) n v rfl rfl rfl
@[simp] theorem State.hostWriteReg_cmdcnt (n : Nat) (v : Word32) : (s.hostWriteReg n v).cmdcnt = s.cmdcnt :=
  s.hostWriteReg_keeps (·.cmdcnt) n v rfl rfl rfl
@[simp] theorem State.hostWriteReg_responses (n : Nat) (v : Word32) : (s.hostWriteReg n v).responses = s.responses :=
  s.hostWriteReg_keeps (·.responses) n v rfl rfl rfl

theorem State.hostWriteReg_save (n : Nat) (v : Word32) : (s.hostWriteReg n v).save = s.save :=
  congrFun (s.hostWriteReg_mem n v) .save
theorem State.hostWriteReg_raster (n : Nat) (v : Word32) : (s.hostWriteReg n v).raster = s.raster :=
  congrFun (s.hostWriteReg_mem n v) .raster

/-- A host register write keeps STATUS and the five fault registers (10_state R33). -/
theorem State.faultRecordKept_hostWriteReg (n : Nat) (v : Word32) : s.FaultRecordKept (s.hostWriteReg n v) :=
  (s.hostWriteReg_keeps s.FaultRecordKept n v rfl rfl rfl).mpr ⟨rfl, rfl, rfl, rfl, rfl, rfl⟩

/-- A host register write keeps the port, the host's later moves, the free-value counter and SIG. -/
theorem State.queuesKept_hostWriteReg (n : Nat) (v : Word32) : s.QueuesKept (s.hostWriteReg n v) :=
  (s.hostWriteReg_keeps s.QueuesKept n v rfl rfl rfl).mpr ⟨rfl, rfl, rfl, rfl⟩

/-! ### What a host register read sees -/

/-- Numbers above 11 name no register (10_state R33). -/
theorem State.hostReadReg_of_gt {m : Nat} (h : 11 < m) : s.hostReadReg m = 0 := by
  obtain ⟨k, rfl⟩ : ∃ k, m = k + 12 := ⟨m - 12, by omega⟩
  rfl

theorem State.hostReadReg_with_rlen (v : Word32) (m : Nat) :
    ({ s with rlen := v } : State).hostReadReg m = if m = 9 then v else s.hostReadReg m := by
  unfold State.hostReadReg
  split <;> simp_all

theorem State.hostReadReg_with_rw (v : Word32) (m : Nat) :
    ({ s with rw := v } : State).hostReadReg m = if m = 10 then v else s.hostReadReg m := by
  unfold State.hostReadReg
  split <;> simp_all

theorem State.hostReadReg_with_rh (v : Word32) (m : Nat) :
    ({ s with rh := v } : State).hostReadReg m = if m = 11 then v else s.hostReadReg m := by
  unfold State.hostReadReg
  split <;> simp_all

/-- WHAT A REGISTER WRITE DOES: the launch register it names reads the value, RLEN only up to RCAP, and every other
number reads as before (10_state R22, R33). -/
theorem State.hostReadReg_hostWriteReg (n m : Nat) (v : Word32) :
    (s.hostWriteReg n v).hostReadReg m =
      if m = n ∧ (n = 10 ∨ n = 11 ∨ n = 9 ∧ v.toNat ≤ Config.rcap) then v else s.hostReadReg m := by
  unfold State.hostWriteReg
  split
  · by_cases hv : v.toNat ≤ Config.rcap
    · rw [if_pos hv, State.hostReadReg_with_rlen]
      simp [hv]
    · rw [if_neg hv]
      simp [hv]
  · rw [State.hostReadReg_with_rw]
    simp
  · rw [State.hostReadReg_with_rh]
    simp
  · rename_i h9 h10 h11
    rw [if_neg]
    rintro ⟨-, rfl | rfl | ⟨rfl, -⟩⟩
    · exact h10 rfl
    · exact h11 rfl
    · exact h9 rfl

/-! ### Where a step stops -/

/-- A host move stops only at a load that ends past its memory (20_memory R50). -/
theorem hostMove_stop (m : HostMove) :
    (∃ t, hostMove m s = .next t) ∨
      ∃ b a bytes, m = .load b a bytes ∧ hostLen b < a + bytes.length ∧ hostMove m s = .fault .noSuchAddress := by
  cases m with
  | load b a bytes =>
    by_cases hfit : a + bytes.length ≤ hostLen b
    · exact .inl ⟨_, if_pos hfit⟩
    · exact .inr ⟨b, a, bytes, rfl, by omega, if_neg hfit⟩
  | writeReg | submit | reset | resetDuring => exact .inl ⟨_, rfl⟩

/-- With nothing for the engine to take and no host move left, the machine stops (60_exceptions R186, 70_reset R215). -/
theorem step_of_no_move (hp : s.port = [] ∨ s.faulted = true) (hh : s.host = []) :
    step s = .fault (if s.port = [] then .idle else .stuckFaulted) := by
  unfold step runNext runHost
  rw [hh]
  rcases hp with hp | hf
  · simp [hp]
  · cases hport : s.port <;> simp [hf]

/-! ### The buffers stay canonical and inside their memories -/

/-- The buffers' part of the invariant, said of either buffer by its name. -/
theorem State.buffersOK_iff :
    s.BuffersOK ↔
      (∀ b, Memory.wf (s.mem b) ∧ Memory.below (hostLen b) (s.mem b)) ∧ s.rlen.toNat ≤ Config.rcap := by
  constructor
  · rintro ⟨hsave, hsaveIn, hraster, hrasterIn, hrlen⟩
    refine ⟨fun b => ?_, hrlen⟩
    cases b with
    | save => exact ⟨hsave, hsaveIn⟩
    | raster => exact ⟨hraster, hrasterIn⟩
  · rintro ⟨hmem, hrlen⟩
    exact ⟨(hmem .save).1, (hmem .save).2, (hmem .raster).1, (hmem .raster).2, hrlen⟩

@[simp] theorem State.complete_buffersOK (d : Word32) : (s.complete d).BuffersOK ↔ s.BuffersOK := Iff.rfl
@[simp] theorem State.orFixlog_buffersOK (m : BitVec 8) : (s.orFixlog m).BuffersOK ↔ s.BuffersOK := Iff.rfl
@[simp] theorem State.raise_buffersOK (cause : Cause) (c : Command) : (s.raise cause c).BuffersOK ↔ s.BuffersOK :=
  Iff.rfl

variable {s}

/-- Commands reach no byte of a buffer that its memory does not have (10_state R22). -/
theorem State.BuffersOK.len_le (h : s.BuffersOK) (b : Buf) : s.len b ≤ hostLen b := by
  obtain ⟨-, hrlen⟩ := s.buffersOK_iff.1 h
  cases b with
  | save => exact Nat.le_refl _
  | raster => exact hrlen

/-- A change of one buffer keeps the buffers' part of the invariant when the new cells are canonical and inside. -/
theorem State.BuffersOK.of_mem {t : State} {b : Buf} (h : s.BuffersOK) (hrlen : t.rlen = s.rlen)
    (hother : ∀ c, c ≠ b → t.mem c = s.mem c) (hwf : Memory.wf (t.mem b)) (hin : Memory.below (hostLen b) (t.mem b)) :
    t.BuffersOK := by
  obtain ⟨hmem, hcap⟩ := s.buffersOK_iff.1 h
  refine t.buffersOK_iff.2 ⟨fun c => ?_, hrlen ▸ hcap⟩
  by_cases hc : c = b
  · exact hc ▸ ⟨hwf, hin⟩
  · exact hother c hc ▸ hmem c

theorem State.BuffersOK.writeBytes (h : s.BuffersOK) {b : Buf} {a : Nat} {vs : List Byte}
    (hfit : a + vs.length ≤ hostLen b) : (s.writeBytes b a vs).BuffersOK := by
  obtain ⟨hmem, -⟩ := s.buffersOK_iff.1 h
  obtain ⟨hwf, hin⟩ := hmem b
  refine h.of_mem (b := b) (by simp) (fun c hc => s.setMem_mem_of_ne hc _) ?_ ?_
  · rw [State.writeBytes, State.setMem_mem]
    exact Memory.wf_splice hwf a vs
  · rw [State.writeBytes, State.setMem_mem]
    exact Memory.below_splice hin hfit

theorem State.BuffersOK.bitWrite (h : s.BuffersOK) {b : Buf} {off w : Nat} (hfit : off + w ≤ 8 * s.len b)
    (v : Word32) : (s.bitWrite b off w v).BuffersOK := by
  obtain ⟨hmem, -⟩ := s.buffersOK_iff.1 h
  obtain ⟨hwf, hin⟩ := hmem b
  have hlen := h.len_le b
  exact h.of_mem (b := b) (by simp)
    (fun c hc => s.bitWrite_keeps (·.mem c) b (fun t p x => t.setMem_mem_of_ne hc _) off w v)
    (s.wf_bitWrite b off w v hwf) (s.below_bitWrite b (hostLen b) off w v (by omega) hin)

/-- The image of slot 1 or 2 lies inside SAVE (41_embed R136). -/
theorem imageBase_inside {slot : Nat} (h : slot = 1 ∨ slot = 2) :
    imageBase slot + Config.imgBytes ≤ hostLen .save := by
  rcases h with rfl | rfl <;> decide

theorem State.BuffersOK.embedImage (h : s.BuffersOK) {slot : Nat} (hslot : slot = 1 ∨ slot = 2) :
    (s.embedImage slot).BuffersOK :=
  h.writeBytes (by rw [s.length_imageBytes]; exact imageBase_inside hslot)

theorem State.BuffersOK.repairRegion (h : s.BuffersOK) (r : Fin 8) : (s.repairRegion r).BuffersOK := by
  obtain ⟨hwf, hin, hraster, hrasterIn, hrlen⟩ := h
  refine ⟨s.wf_repairRegion r hwf, s.below_repairRegion r hin, ?_⟩
  rw [s.repairRegion_raster, s.repairRegion_rlen]
  exact ⟨hraster, hrasterIn, hrlen⟩

theorem State.BuffersOK.repairAll (h : s.BuffersOK) (m : BitVec 8) (rs : List (Fin 8)) :
    (s.repairAll m rs).1.BuffersOK := by
  induction rs generalizing s m with
  | nil => exact h
  | cons r rs ih => exact ih (h.repairRegion r) _

/-- Every command keeps the buffers canonical and inside their memories. -/
theorem State.BuffersOK.exec (h : s.BuffersOK) {i : Instr} {t : State} (hi : exec i s = .next t) : t.BuffersOK := by
  rcases exec_cases s hi with ⟨cause, rfl⟩ | ⟨b, off, w, v, rfl, hfit⟩ | ⟨d, rfl⟩ | ⟨slot, hslot, rfl⟩ | ⟨rs, m, rfl⟩
  · simpa using h
  · simpa using h.bitWrite hfit v
  · simpa using h
  · simpa using h.embedImage hslot
  · simpa using h.repairAll 0 rs

theorem State.BuffersOK.runCommand (h : s.BuffersOK) {c : Command} {t : State} (hc : runCommand c s = .next t) :
    t.BuffersOK := by
  rcases runCommand_cases s hc with ⟨e, -, rfl⟩ | ⟨i, -, hi⟩
  · simpa using h
  · exact h.exec hi

/-! ### A reset during a command loses bytes inside the memories only -/

theorem fieldAddr_inside (r : Fin 8) : fieldAddr r + 2 ≤ hostLen .save := by
  have layout := region_layout r
  show fieldAddr r + 2 ≤ 0x20000
  omega

/-- The bytes a command may write lie inside their buffer's memory (20_memory R50). -/
theorem mayWrite_inside (h : s.BuffersOK) {i : Instr} {blk : Buf × Nat × Nat} (hblk : blk ∈ mayWrite i s) :
    blk.2.1 + blk.2.2 ≤ hostLen blk.1 := by
  cases i with
  | rdbits buf off w => simp [mayWrite] at hblk
  | wrbits buf off w val =>
    simp only [mayWrite] at hblk
    split at hblk
    · simp at hblk
    · rename_i b hb
      obtain ⟨-, -, -, hfit⟩ := (bitIOCheck_ok_iff s).1 hb
      have hlen := h.len_le b
      obtain rfl := List.mem_singleton.1 hblk
      show off.toNat / 8 + (off.toNat % 8 + w.toNat + 7) / 8 ≤ hostLen b
      omega
  | embed sel =>
    simp only [mayWrite] at hblk
    split at hblk
    · simp at hblk
    · rename_i slot hs
      obtain ⟨-, hslot, -⟩ := (embedCheck_ok_iff s).1 hs
      obtain rfl := List.mem_singleton.1 hblk
      exact imageBase_inside hslot
  | ckfix sel =>
    simp only [mayWrite] at hblk
    split at hblk
    · simp at hblk
    · obtain rfl := List.mem_singleton.1 hblk
      exact fieldAddr_inside _
  | ckfixall =>
    obtain ⟨r, -, rfl⟩ := List.mem_map.1 hblk
    exact fieldAddr_inside r

theorem State.BuffersOK.abandoned_inside (h : s.BuffersOK) {c : Command} {blk : Buf × Nat × Nat}
    (hblk : blk ∈ s.abandoned c) : blk.2.1 + blk.2.2 ≤ hostLen blk.1 := by
  unfold State.abandoned at hblk
  split at hblk
  · simp at hblk
  · split at hblk
    · simp at hblk
    · exact mayWrite_inside h hblk

theorem State.BuffersOK.loseBlocks (h : s.BuffersOK) (c : Command) :
    ((s.abandoned c).foldl State.loseBlock s).BuffersOK :=
  s.loseBlocks_keeps (P := State.BuffersOK) _
    (fun blk hblk t ht => ht.writeBytes (by simpa using h.abandoned_inside hblk)) h

/-! ### The fault registers keep their meaning -/

theorem Cause.code_range (cause : Cause) : 1 ≤ cause.code.toNat ∧ cause.code.toNat ≤ 7 := by
  cases cause <;> decide

theorem State.raise_faultRegsOK (cause : Cause) (c : Command) : (s.raise cause c).FaultRegsOK := by
  obtain ⟨hlo, hhi⟩ := cause.code_range
  rw [State.FaultRegsOK, if_pos (s.raise_faulted cause c)]
  exact ⟨hlo, hhi, rfl⟩

/-- What keeps the fault record, and CMDCNT while FAULTED, keeps the meaning of the fault registers. -/
theorem State.FaultRegsOK.of_kept {t : State} (h : s.FaultRegsOK) (record : s.FaultRecordKept t)
    (hcnt : s.faulted = true → t.cmdcnt = s.cmdcnt) : t.FaultRegsOK := by
  have hf := record.faulted
  obtain ⟨-, hcause, hidx, h0, h1, h2⟩ := record
  unfold State.FaultRegsOK at h ⊢
  rw [hf, hcause, hidx, h0, h1, h2]
  split_ifs at h ⊢ with hs
  · rwa [hcnt hs]
  · exact h

theorem State.applyReset_faultRegsOK : s.applyReset.FaultRegsOK := by simp [State.FaultRegsOK]

/-! ### The invariant, agent by agent -/

/-- Buffers that are in order and a kept fault record make the invariant. -/
theorem State.Inv.of_kept {t : State} (h : s.Inv) (hbuf : t.BuffersOK) (record : s.FaultRecordKept t)
    (hcnt : s.faulted = true → t.cmdcnt = s.cmdcnt) : t.Inv := by
  obtain ⟨-, hbusy, hregs⟩ := h
  exact ⟨hbuf, record.busy.trans hbusy, hregs.of_kept record hcnt⟩

/-- The engine's turn keeps the invariant: a command that completes moves CMDCNT only while RUNNABLE, and a fault writes
the whole record (10_state R26, R30 to R32). -/
theorem State.Inv.runCommand (h : s.Inv) (hs : s.faulted = false) {c : Command} {t : State}
    (hc : runCommand c s = .next t) : t.Inv := by
  have hbuf := h.1.runCommand hc
  rcases runCommand_outcome s hc with ⟨-, -, -, record, -, -⟩ | ⟨cause, w, rfl⟩
  · exact h.of_kept hbuf record fun hf => by rw [hs] at hf; cases hf
  · obtain ⟨-, hbusy, -⟩ := h
    exact ⟨hbuf, (s.raise_busy cause w).trans hbusy, s.raise_faultRegsOK cause w⟩

/-- A reset makes the invariant hold wherever the cells of both buffers are in order: RLEN is 0 after it, and so is every
fault register (60_exceptions R187). -/
theorem State.BuffersOK.inv_applyReset (h : s.BuffersOK) : s.applyReset.Inv := by
  obtain ⟨hsave, hsaveIn, hraster, hrasterIn, -⟩ := h
  exact ⟨⟨hsave, hsaveIn, hraster, hrasterIn, Nat.zero_le _⟩, s.applyReset_busy, s.applyReset_faultRegsOK⟩

theorem State.BuffersOK.hostWriteReg (h : s.BuffersOK) (n : Nat) (v : Word32) : (s.hostWriteReg n v).BuffersOK := by
  obtain ⟨hsave, hsaveIn, hraster, hrasterIn, hrlen⟩ := h
  rcases s.hostWriteReg_cases n v with e | ⟨-, hv, e⟩ | ⟨-, e⟩ | ⟨-, e⟩ <;> rw [e]
  · exact ⟨hsave, hsaveIn, hraster, hrasterIn, hrlen⟩
  · exact ⟨hsave, hsaveIn, hraster, hrasterIn, hv⟩
  · exact ⟨hsave, hsaveIn, hraster, hrasterIn, hrlen⟩
  · exact ⟨hsave, hsaveIn, hraster, hrasterIn, hrlen⟩

theorem State.faultRecordKept_writeBytes (b : Buf) (a : Nat) (vs : List Byte) :
    s.FaultRecordKept (s.writeBytes b a vs) := by
  simp [State.FaultRecordKept]

/-- Every host move keeps the invariant (20_memory R68, 70_reset R222). -/
theorem State.Inv.hostMove (h : s.Inv) {m : HostMove} {t : State} (hm : hostMove m s = .next t) : t.Inv := by
  have hbuf := h.1
  rcases hostMove_cases s hm with
    ⟨b, a, bytes, -, hfit, rfl⟩ | ⟨n, v, -, rfl⟩ | ⟨cs, -, rfl⟩ | ⟨-, rfl⟩ | ⟨c, -, rfl⟩
  · exact h.of_kept (hbuf.writeBytes hfit) (s.faultRecordKept_writeBytes b a bytes) fun _ => by simp
  · exact h.of_kept (hbuf.hostWriteReg n v) (s.faultRecordKept_hostWriteReg n v) fun _ => by simp
  · exact h
  · exact hbuf.inv_applyReset
  · exact (hbuf.loseBlocks c).inv_applyReset

end

/-! ### The statements -/

/-- Settles O3: by the agent that moves, the engine only while RUNNABLE. -/
theorem everyStepKeepsTheInvariant : Obligations.EveryStepKeepsTheInvariant := by
  intro s t hinv hstep
  rcases step_cases s hstep with ⟨c, cs, -, hf, hrun⟩ | ⟨m, ms, -, -, hmove⟩
  · exact State.Inv.runCommand (s := { s with port := cs }) hinv hf hrun
  · exact State.Inv.hostMove (s := { s with host := ms }) hinv hmove

/-- Settles O12: by whose turn it is, then by whether a host move is left. -/
theorem stepStopsOnlyWhenNothingCanMove : Obligations.StepStopsOnlyWhenNothingCanMove := by
  intro s
  by_cases hturn : s.port = [] ∨ s.faulted = true
  · cases hh : s.host with
    | nil =>
      have hstop := step_of_no_move s hturn hh
      by_cases hp : s.port = []
      · exact .inr (.inl ⟨rfl, hp, by rw [hstop, if_pos hp]⟩)
      · exact .inr (.inr (.inl ⟨rfl, hp, hturn.resolve_left hp, by rw [hstop, if_neg hp]⟩))
    | cons m ms =>
      rw [step_eq_hostMove s hturn hh]
      rcases hostMove_stop { s with host := ms } m with hnext | ⟨b, a, bytes, rfl, hpast, hfault⟩
      · exact .inl hnext
      · exact .inr (.inr (.inr ⟨b, a, bytes, ms, rfl, hpast, hturn, hfault⟩))
  · obtain ⟨hp, hf⟩ := not_or.1 hturn
    obtain ⟨c, cs, hcons⟩ := List.exists_cons_of_ne_nil hp
    rw [step_eq_runCommand s hcons (Bool.eq_false_of_not_eq_true hf)]
    exact .inl (runCommand_total _ c)

/-- Settles O14: the engine does not move, and of the host's moves only the two resets write what is kept. -/
theorem onlyResetLeavesFaultedMode : Obligations.OnlyResetLeavesFaultedMode := by
  intro s t hf hstep
  rcases step_cases s hstep with ⟨c, cs, -, hrunnable, -⟩ | ⟨m, ms, hh, -, hmove⟩
  · rw [hf] at hrunnable
    cases hrunnable
  rcases hostMove_cases _ hmove with
    ⟨b, a, bytes, -, -, rfl⟩ | ⟨n, v, -, rfl⟩ | ⟨cs, -, rfl⟩ | ⟨rfl, -⟩ | ⟨c, rfl, -⟩
  · have record := State.faultRecordKept_writeBytes (s := { s with host := ms }) b a bytes
    exact .inr (.inr ⟨record.faulted.trans hf, record, by simp, by simp, by simp, by simp, [], by simp⟩)
  · have record := ({ s with host := ms } : State).faultRecordKept_hostWriteReg n v
    obtain ⟨hport, -⟩ := ({ s with host := ms } : State).queuesKept_hostWriteReg n v
    exact .inr (.inr ⟨record.faulted.trans hf, record, by simp, by simp, by simp, by simp, [], by simp [hport]⟩)
  · exact .inr (.inr ⟨hf, ⟨rfl, rfl, rfl, rfl, rfl, rfl⟩, rfl, rfl, rfl, rfl, cs, rfl⟩)
  · exact .inl ⟨ms, hh⟩
  · exact .inr (.inl ⟨c, ms, hh⟩)

/-- Settles O45: a command that completes counts, and a fault copies CMDCNT to FIDX. -/
theorem cmdcntCountsCompletedCommands : Obligations.CmdcntCountsCompletedCommands := by
  intro c s t hs hrun
  refine ⟨fun ht => ?_, fun ht => ?_⟩
  · obtain ⟨-, hcnt, -⟩ := completed_of_runnable hrun ht
    rw [hcnt, BitVec.toNat_add]
    rfl
  · obtain ⟨cause, w, rfl⟩ := raised_of_faulted hs hrun ht
    exact ⟨rfl, rfl⟩

/-- Settles O46: the response by the outcome, the bound on its data by the opcode. -/
theorem oneResponsePerCommand : Obligations.OneResponsePerCommand := by
  intro c s t hs hrun
  refine ⟨fun ht => ?_, fun ht => ?_⟩
  · obtain ⟨-, -, hresp, -⟩ := completed_of_runnable hrun ht
    rcases runCommand_cases s hrun with ⟨e, -, rfl⟩ | ⟨i, hdec, hexec⟩
    · simp at ht
    · rw [op_of_decode hdec]
      exact ⟨hresp, fun hop => exec_result_eq_zero hop hexec ht, fun hop => exec_result_lt hop hexec ht⟩
  · obtain ⟨cause, w, rfl⟩ := raised_of_faulted hs hrun ht
    exact ⟨rfl, rfl⟩

/-- Settles O47: FIXLOG is only ever OR-ed, with 0 by every command but CKFIX and CKFIXALL. -/
theorem commandsKeepLaunchRegistersAndFixlogBits : Obligations.CommandsKeepLaunchRegistersAndFixlogBits := by
  intro c s t hrun
  obtain ⟨hlaunch, hqueues⟩ := runCommand_keeps s hrun
  refine ⟨hlaunch, hqueues, ?_⟩
  rcases runCommand_cases s hrun with ⟨e, -, rfl⟩ | ⟨i, hdec, hexec⟩
  · exact ⟨fun _ hk => hk, fun _ _ => rfl⟩
  · obtain ⟨m, hlog, hzero⟩ := exec_fixlog hexec
    rw [op_of_decode hdec, hlog]
    exact ⟨fun k hk => by rw [BitVec.getLsbD_or, hk, Bool.true_or], fun h30 h31 => by rw [hzero h30 h31, BitVec.or_zero]⟩

/-- Settles O48: the write as an operation, then as the host's move. -/
theorem hostWritesReachOnlyLaunchRegisters : Obligations.HostWritesReachOnlyLaunchRegisters := by
  refine ⟨fun s n m v => ?_, fun s n v ms hturn hh => ?_⟩
  · exact ⟨s.hostReadReg_hostWriteReg n m v, s.hostWriteReg_save n v, s.hostWriteReg_raster n v,
      s.hostWriteReg_responses n v, s.queuesKept_hostWriteReg n v, s.hostReadReg_of_gt⟩
  · obtain ⟨hport, hhost, hfree, hsig⟩ := ({ s with host := ms } : State).queuesKept_hostWriteReg n v
    exact ⟨_, step_eq_hostMove s hturn hh, rfl, fun m => State.hostReadReg_hostWriteReg _ n m v,
      State.hostWriteReg_save _ n v, State.hostWriteReg_raster _ n v, State.hostWriteReg_responses _ n v, hport, hhost,
      hfree, hsig⟩

/-- Settles O1: each register's reset value, and buffers with no cell listed. -/
theorem resetLeavesRegistersZeroBuffersFree : Obligations.ResetLeavesRegistersZeroBuffersFree := by
  refine ⟨fun n => ?_, rfl, rfl, rfl, fun b a => ?_⟩
  · unfold State.hostReadReg
    split <;> rfl
  · cases b <;> rfl

/-- Settles O2: State.reset is what a reset makes of itself. -/
theorem invariantHoldsAtReset : Obligations.InvariantHoldsAtReset := by
  have hempty : State.reset.BuffersOK :=
    ⟨List.Pairwise.nil, fun _ h => absurd h List.not_mem_nil, List.Pairwise.nil, fun _ h => absurd h List.not_mem_nil,
      Nat.zero_le _⟩
  exact hempty.inv_applyReset

/-- Settles O10: a RUNNABLE engine's step is its turn with the head of the port, which for a word that decodes is exec. -/
theorem stepRunsTheDecodedCommand : Obligations.StepRunsTheDecodedCommand := by
  intro s c cs i hp hf hdec
  rw [step_eq_runCommand s hp hf, runCommand, hdec]

/-- Settles O54: every command answers, and an answer is one of the two outcomes. -/
theorem everyInstructionAnswersANextState : Obligations.EveryInstructionAnswersANextState := by
  intro i s
  obtain ⟨t, ht⟩ := exec_total s i
  exact ⟨t, ht, exec_outcome s ht⟩

end Sys2Proof.Machine

/-! The two buffers (spec/20_memory.md): the 16-bit field read as a number, the frames of the commands that write SAVE,
what EMBED reads, and the host's load. -/

namespace Sys2Proof.Machine

section

variable (s : State)

/-! ### The 16-bit field and a BitIO access at it -/

/-- The high byte of a field is the byte at the lower address (20_memory R55). -/
theorem State.toNat_readField16 (a : Nat) :
    (s.readField16 a).toNat = (s.readByte .save a).toNat * 256 + (s.readByte .save (a + 1)).toNat := by
  have hlow := (s.readByte .save (a + 1)).isLt
  rw [State.readField16, BitVec.toNat_append, ← Nat.shiftLeft_add_eq_or_of_lt hlow, Nat.shiftLeft_eq]

/-- A BitIO access numbers the bits of a field's two bytes as the field's number does (20_memory R54, R55). -/
theorem State.getBit_save_eq_getLsbD_readField16 (a k : Nat) (hk : k < 16) :
    s.getBit .save (8 * a + (15 - k)) = (s.readField16 a).getLsbD k := by
  rw [State.getBit, State.readField16, BitVec.getLsbD_append]
  by_cases hlow : k < 8
  · rw [if_pos hlow, show (8 * a + (15 - k)) / 8 = a + 1 by omega, show 7 - (8 * a + (15 - k)) % 8 = k by omega]
  · rw [if_neg hlow, show (8 * a + (15 - k)) / 8 = a by omega, show 7 - (8 * a + (15 - k)) % 8 = k - 8 by omega]

theorem State.bitRead_eq_readField16 (a : Nat) : s.bitRead .save (8 * a) 16 = (s.readField16 a).toNat := by
  refine Nat.eq_of_testBit_eq fun k => ?_
  rw [State.testBit_bitRead, BitVec.testBit_toNat]
  by_cases hk : k < 16
  · rw [decide_eq_true hk, Bool.true_and, s.getBit_save_eq_getLsbD_readField16 a k hk]
  · rw [decide_eq_false hk, Bool.false_and, BitVec.getLsbD_of_ge _ _ (by omega)]

/-- What RDBITS does when its operands are admitted (40_bitio R112). -/
theorem execRdbits_of_ok {buf : BitVec 8} {off : Word32} {w : BitVec 8} {b : Buf}
    (h : bitIOCheck buf off w s = .ok b) :
    execRdbits buf off w s = .next (s.complete (BitVec.ofNat 32 (s.bitRead b off.toNat w.toNat))) := by
  rw [execRdbits, h]

/-- RDBITS of width 16 at a field's bit offset answers the field's number (20_memory R55). -/
theorem exec_rdbits_readField16 {a : Nat} (ha : a + 2 ≤ 131072) :
    exec (.rdbits 0 (BitVec.ofNat 32 (8 * a)) 16) s = .next (s.complete ((s.readField16 a).setWidth 32)) := by
  have hoff : (BitVec.ofNat 32 (8 * a)).toNat = 8 * a := by
    rw [BitVec.toNat_ofNat]
    omega
  have hcheck : bitIOCheck 0 (BitVec.ofNat 32 (8 * a)) 16 s = .ok .save := by
    refine (bitIOCheck_ok_iff s).2 ⟨rfl, by decide, by decide, ?_⟩
    show (BitVec.ofNat 32 (8 * a)).toNat + 16 ≤ 8 * 131072
    omega
  refine (execRdbits_of_ok s hcheck).trans ?_
  rw [hoff, show BitVec.toNat (16 : BitVec 8) = 16 from rfl, s.bitRead_eq_readField16, BitVec.ofNat_toNat]

/-! ### Where the image lies -/

/-- The image of a slot lies in its region, from above the region's checksum field to the region's end at most
(20_memory R61, R62; 41_embed R140). -/
theorem image_in_region {slot : Nat} (h : slot = 1 ∨ slot = 2) :
    ∃ r : Fin 8, r.val = 2 + 2 * slot ∧ fieldAddr r + 2 ≤ imageBase slot ∧
      imageBase slot + 11200 ≤ (Config.region r).start + (Config.region r).len := by
  rcases h with rfl | rfl
  · exact ⟨4, by decide⟩
  · exact ⟨6, by decide⟩

/-- The image of a slot is clear of every region but its own (42_checksum R150). -/
theorem image_clear_of_region {slot : Nat} (h : slot = 1 ∨ slot = 2) {r : Fin 8} (hr : r.val ≠ 2 + 2 * slot) :
    (Config.region r).start + (Config.region r).len ≤ imageBase slot ∨
      imageBase slot + 11200 ≤ (Config.region r).start := by
  obtain ⟨q, hq, hlo, hhi⟩ := image_in_region h
  have layout := region_layout q
  rcases Nat.lt_or_gt_of_ne (hq ▸ hr : r.val ≠ q.val) with hlt | hgt
  · have := region_disjoint r q hlt
    omega
  · have := region_disjoint q r hgt
    omega

/-- The image of a slot is clear of every region's signature and checksum field, its own region's included
(41_embed R140). -/
theorem image_clear_of_fields {slot : Nat} (h : slot = 1 ∨ slot = 2) (r : Fin 8) :
    fieldAddr r + 2 ≤ imageBase slot ∨ imageBase slot + 11200 ≤ sigAddr r := by
  by_cases hr : r.val = 2 + 2 * slot
  · obtain ⟨q, hq, hlo, -⟩ := image_in_region h
    obtain rfl : r = q := Fin.ext (hr.trans hq.symm)
    exact .inl hlo
  · have layout := region_layout r
    have := image_clear_of_region h hr
    omega

/-! ### What the commands that write SAVE leave unchanged -/

variable {s}

/-- EMBED, completing or faulting, changes no byte outside the image of its slot (41_embed R134, R136). -/
theorem readByte_exec_embed {sel : BitVec 8} {t : State} (h : exec (.embed sel) s = .next t) {x : Nat}
    (hout : (sel.toNat = 1 ∨ sel.toNat = 2) → x < imageBase sel.toNat ∨ imageBase sel.toNat + 11200 ≤ x) :
    t.readByte .save x = s.readByte .save x := by
  rcases execEmbed_cases s h with ⟨cause, -, rfl⟩ | ⟨slot, hcheck, rfl⟩
  · exact s.readByte_raise cause _ .save x
  · obtain ⟨rfl, hslot, -⟩ := (embedCheck_ok_iff s).1 hcheck
    rw [State.readByte_complete, s.readByte_embedImage_of_outside _ .save x (.inr (hout hslot))]

/-- Every checksum field ends below 0x18000, so no list of repairs reaches further (20_memory R63). -/
theorem State.readByte_repairAll_of_ge (s : State) (m : BitVec 8) (rs : List (Fin 8)) {x : Nat} (hx : 0x18000 ≤ x) :
    (s.repairAll m rs).1.readByte .save x = s.readByte .save x :=
  s.repairAll_keeps (·.readByte .save x)
    (fun t r => t.readByte_repairRegion_of_outside r .save x <| by
      have layout := region_layout r
      omega) m rs

/-- The three commands that work on the whole of SAVE write nothing from 0x18000 on (20_memory R63). -/
theorem readByte_exec_of_ge {i : Instr} {t : State}
    (hi : i = .ckfixall ∨ (∃ sel, i = .ckfix sel) ∨ ∃ sel, i = .embed sel) (h : exec i s = .next t) {x : Nat}
    (hx : 0x18000 ≤ x) : t.readByte .save x = s.readByte .save x := by
  rcases hi with rfl | ⟨sel, rfl⟩ | ⟨sel, rfl⟩
  · obtain rfl := Host.Outcome.next.inj ((execCkfixall_eq s).symm.trans h)
    rw [State.readByte_complete, State.readByte_orFixlog, s.readByte_repairAll_of_ge _ _ hx]
  · rcases execCkfix_cases s h with ⟨-, rfl⟩ | ⟨r, -, rfl⟩
    · exact s.readByte_raise _ _ .save x
    · rw [State.readByte_complete, State.readByte_orFixlog]
      exact s.readByte_repairAll_of_ge 0 [r] hx
  · refine readByte_exec_embed h fun hslot => ?_
    obtain ⟨r, -, -, hhi⟩ := image_in_region hslot
    have layout := region_layout r
    omega

/-- Every command but WRBITS leaves RASTER as it is (20_memory R50). -/
theorem exec_raster {i : Instr} {t : State} (hop : Laws.EncodesOpcode.opcode i ≠ 0x11#8) (h : exec i s = .next t) :
    t.raster = s.raster := by
  cases i with
  | rdbits buf off w => rcases execRdbits_cases s h with ⟨cause, -, rfl⟩ | ⟨b, -, rfl⟩ <;> simp
  | wrbits buf off w val => exact absurd rfl hop
  | embed sel => rcases execEmbed_cases s h with ⟨cause, -, rfl⟩ | ⟨slot, -, rfl⟩ <;> simp
  | ckfix sel => rcases execCkfix_cases s h with ⟨-, rfl⟩ | ⟨r, -, rfl⟩ <;> simp
  | ckfixall =>
    obtain rfl := Host.Outcome.next.inj ((execCkfixall_eq s).symm.trans h)
    simp

/-! ### What EMBED reads -/

/-- Every source address lies in the last 17920 bytes of the raster (41_embed R132). -/
theorem pixelSrc_in_array {rlen i j : Nat} (hlen : 17920 ≤ rlen) (hi : i < 112) (hj : j < 160) :
    rlen - 17920 ≤ pixelSrc rlen i 0 + j ∧ pixelSrc rlen i 0 + j < rlen := by
  unfold pixelSrc Config.imgW
  omega

/-- The image is made of the last 17920 raster bytes and RLEN (41_embed R132). -/
theorem State.imageBytes_congr {s' : State} (hrlen : s'.rlen = s.rlen) (hlen : 17920 ≤ s.rlen.toNat)
    (hpix : ∀ a, s.rlen.toNat - 17920 ≤ a → a < s.rlen.toNat → s'.readByte .raster a = s.readByte .raster a) :
    s'.imageBytes = s.imageBytes := by
  have hrow : ∀ i ∈ List.range Config.imgH, s'.rasterRow i = s.rasterRow i := by
    intro i hi
    have hi := List.mem_range.1 hi
    rw [State.rasterRow, State.rasterRow, hrlen]
    refine s.readBytes_congr fun x hlo hhi => ?_
    obtain ⟨j, rfl⟩ := Nat.exists_eq_add_of_le hlo
    obtain ⟨hge, hlt⟩ := pixelSrc_in_array hlen hi (Nat.lt_of_add_lt_add_left hhi)
    exact hpix _ hge hlt
  rw [State.imageBytes, State.imageBytes, State.imagePixels, State.imagePixels, List.flatMap_congr hrow]

/-- EMBED's checks read the launch registers alone (41_embed R135). -/
theorem embedCheck_congr {s' : State} (h : s.LaunchKept s') (sel : BitVec 8) :
    embedCheck sel s' = embedCheck sel s := by
  obtain ⟨hrlen, hrw, hrh⟩ := h
  rw [embedCheck, embedCheck, hrlen, hrw, hrh]

variable (s) in
/-- What EMBED does when a check fails (41_embed R135). -/
theorem execEmbed_of_error {sel : BitVec 8} {cause : Cause} (h : embedCheck sel s = .error cause) :
    execEmbed sel s = .next (s.raise cause (encode (.embed sel))) := by
  rw [execEmbed, h]

variable (s) in
/-- What EMBED does when its checks pass (41_embed R134). -/
theorem execEmbed_of_ok {sel : BitVec 8} {slot : Nat} (h : embedCheck sel s = .ok slot) :
    execEmbed sel s = .next ((s.embedImage slot).complete 0) := by
  rw [execEmbed, h]

/-- One image written into two buffers that read alike leaves buffers that read alike. -/
theorem State.bufferKept_embedImage {s' : State} (hsave : s.BufferKept s' .save) (himage : s'.imageBytes = s.imageBytes)
    (slot : Nat) : (s.embedImage slot).BufferKept (s'.embedImage slot) .save := by
  intro x
  simp only [State.embedImage, himage, State.readByte_writeBytes, hsave x]

/-! ### The host's load -/

variable (s)

@[simp] theorem State.hostReadReg_writeBytes (b : Buf) (a : Nat) (vs : List Byte) (n : Nat) :
    (s.writeBytes b a vs).hostReadReg n = s.hostReadReg n := by
  cases b <;> rfl

/-- A block write puts its `k`-th byte at the `k`-th address. -/
theorem State.readByte_writeBytes_of_getElem? (b : Buf) (a : Nat) {vs : List Byte} {k : Nat} {v : Byte}
    (h : vs[k]? = some v) : (s.writeBytes b a vs).readByte b (a + k) = v := by
  obtain ⟨hk, rfl⟩ := List.getElem?_eq_some_iff.1 h
  rw [State.readByte_writeBytes, dif_pos ⟨rfl, by omega, by omega⟩]
  simp

theorem State.readByte_writeBytes_of_outside (b c : Buf) (a x : Nat) (vs : List Byte)
    (h : c ≠ b ∨ x < a ∨ a + vs.length ≤ x) : (s.writeBytes b a vs).readByte c x = s.readByte c x := by
  rw [State.readByte_writeBytes, dif_neg]
  rintro ⟨hc, hlo, hhi⟩
  rcases h with hne | hout
  · exact hne hc
  · omega

/-- A host load inside the memory it names is a block write (20_memory R68). -/
theorem hostMove_load {b : Buf} {a : Nat} {bytes : List Byte} (hfit : a + bytes.length ≤ hostLen b) :
    hostMove (.load b a bytes) s = .next (s.writeBytes b a bytes) := if_pos hfit

end

/-! ### The statements -/

/-- Settles O23: the bytes of a 16-bit write, the number of a 16-bit read, and the RDBITS that answers that number. -/
theorem sixteenBitFieldIsBigEndian : Obligations.SixteenBitFieldIsBigEndian := by
  refine ⟨fun s a v => ?_, fun s a => ⟨s.toNat_readField16 a, s.bitRead_eq_readField16 a⟩,
    fun s a ha => ⟨_, exec_rdbits_readField16 s ha, rfl⟩⟩
  have bytes := fun x => s.readByte_writeField16 a x .save v
  exact ⟨by simp [bytes], by simp [bytes], fun x hhigh hlow => by simp [bytes, hhigh, hlow]⟩

/-- Settles O28: the image against the region table, then EMBED's frame against what each region's functions read. -/
theorem embedLeavesSignaturesAndFieldsAlone : Obligations.EmbedLeavesSignaturesAndFieldsAlone := by
  refine ⟨fun slot hslot => ?_, fun s t sel h r => ?_⟩
  · obtain ⟨r, hr, hlo, hhi⟩ := image_in_region hslot
    have layout := region_layout r
    exact ⟨r, hr, by omega, hhi⟩
  · have layout := region_layout r
    have kept : ∀ x, sigAddr r ≤ x → x < fieldAddr r + 2 → t.readByte .save x = s.readByte .save x := by
      intro x hlo hhi
      refine readByte_exec_embed h fun hslot => ?_
      have := image_clear_of_fields hslot r
      omega
    have field0 := kept (fieldAddr r) (by omega) (by omega)
    have field1 := kept (fieldAddr r + 1) (by omega) (by omega)
    obtain ⟨-, -, -, -, hsig⟩ := exec_keeps s h
    refine ⟨s.hasSig_congr hsig fun x hlo hhi => kept x hlo (by omega), s.stored_congr field0 field1, fun hr => ?_⟩
    refine s.sum16_congr (fun x hlo hhi => readByte_exec_embed h fun hslot => ?_) field0 field1
    have := image_clear_of_region hslot hr
    omega

/-- Settles O29: both states pass or fail the checks alike, and where they pass write one image into one SAVE. -/
theorem embedReadsOnlyThePixelArray : Obligations.EmbedReadsOnlyThePixelArray := by
  intro s s' t t' sel hlaunch hsave hpix h h' x
  have hchecks := embedCheck_congr hlaunch sel
  cases hc : embedCheck sel s with
  | error cause =>
    obtain rfl := Host.Outcome.next.inj ((execEmbed_of_error s hc).symm.trans h)
    obtain rfl := Host.Outcome.next.inj ((execEmbed_of_error s' (hchecks.trans hc)).symm.trans h')
    rw [State.readByte_raise, State.readByte_raise, hsave x]
  | ok slot =>
    obtain rfl := Host.Outcome.next.inj ((execEmbed_of_ok s hc).symm.trans h)
    obtain rfl := Host.Outcome.next.inj ((execEmbed_of_ok s' (hchecks.trans hc)).symm.trans h')
    obtain ⟨-, -, -, -, hlen⟩ := (embedCheck_ok_iff s).1 hc
    have himage := State.imageBytes_congr hlaunch.1 hlen hpix
    rw [State.readByte_complete, State.readByte_complete, State.bufferKept_embedImage hsave himage slot x]

/-- Settles O40: the frame of the three commands, SAVE byte by byte and RASTER whole. -/
theorem tailOfSaveIsUntouched : Obligations.TailOfSaveIsUntouched := by
  intro s t i hi h
  have hop : Laws.EncodesOpcode.opcode i ≠ 0x11#8 := by
    rcases hi with rfl | ⟨sel, rfl⟩ | ⟨sel, rfl⟩ <;> simp [Laws.EncodesOpcode.opcode]
  exact ⟨exec_raster hop h, fun a ha => readByte_exec_of_ge hi h ha⟩

/-- Settles O49: the step is the host's, its load is a block write, and a block write keeps all but its bytes. -/
theorem hostLoadWritesItsBytesAlone : Obligations.HostLoadWritesItsBytesAlone := by
  intro s b a bytes ms hturn hh hfit
  refine ⟨_, (step_eq_hostMove s hturn hh).trans (hostMove_load _ hfit), by simp, fun n => ?_, by simp, by simp, by simp,
    by simp, fun k v hv => ?_, fun c x hx => ?_⟩
  · exact State.hostReadReg_writeBytes _ b a bytes n
  · exact State.readByte_writeBytes_of_getElem? _ b a hv
  · exact (State.readByte_writeBytes_of_outside _ b c a x bytes hx).trans (by cases c <;> rfl)

end Sys2Proof.Machine

/-! The encoding (spec/30_encoding.md): a word against its six fields, the encoder and the decoder against each other, the
legal masks, and the 12 bytes of a command in host memory. -/

namespace Sys2Proof

/-! ### A word and its six fields -/

/-- Two words are equal exactly when their six fields are (30_encoding R81). -/
theorem Command.ext_fields_iff {c d : Command} :
    c = d ↔ Command.op c = Command.op d ∧ Command.buf c = Command.buf d ∧ Command.sel c = Command.sel d ∧
      Command.w c = Command.w d ∧ Command.off c = Command.off d ∧ Command.val c = Command.val d := by
  refine ⟨by rintro rfl; exact ⟨rfl, rfl, rfl, rfl, rfl, rfl⟩, fun ⟨hop, hbuf, hsel, hw, hoff, hval⟩ => ?_⟩
  rw [← Command.ofFields_fields c, ← Command.ofFields_fields d, hop, hbuf, hsel, hw, hoff, hval]

theorem Command.fields_ofFields (op buf sel w : BitVec 8) (off val : Word32) :
    let c := Command.ofFields op buf sel w off val
    Command.op c = op ∧ Command.buf c = buf ∧ Command.sel c = sel ∧ Command.w c = w ∧ Command.off c = off ∧
      Command.val c = val := by
  simp

/-- A word is made of given fields exactly when they are its own. -/
theorem Command.ofFields_eq_iff {op buf sel w : BitVec 8} {off val : Word32} {c : Command} :
    Command.ofFields op buf sel w off val = c ↔ Command.op c = op ∧ Command.buf c = buf ∧ Command.sel c = sel ∧
      Command.w c = w ∧ Command.off c = off ∧ Command.val c = val := by
  rw [eq_comm, Command.ext_fields_iff]
  simp

/-- A masked word, field by field (30_encoding R98). -/
theorem Command.and_eq_iff (c m d : Command) :
    c &&& m = d ↔ Command.op c &&& Command.op m = Command.op d ∧ Command.buf c &&& Command.buf m = Command.buf d ∧
      Command.sel c &&& Command.sel m = Command.sel d ∧ Command.w c &&& Command.w m = Command.w d ∧
      Command.off c &&& Command.off m = Command.off d ∧ Command.val c &&& Command.val m = Command.val d := by
  rw [Command.ext_fields_iff]
  simp only [Command.op, Command.buf, Command.sel, Command.w, Command.off, Command.val, BitVec.extractLsb'_and]

/-- The mask of BUF keeps all its bits but the lowest, which are 0 exactly when BUF is not reserved (30_encoding R91). -/
theorem buf_and_mask_eq_zero_iff (buf : BitVec 8) : buf &&& 0xFE#8 = 0#8 ↔ buf.toNat ≤ 1 := by
  revert buf; decide

theorem byte_and_255 (x : BitVec 8) : x &&& 255#8 = x := BitVec.and_allOnes

theorem word_and_4294967295 (x : Word32) : x &&& 4294967295#32 = x := BitVec.and_allOnes

/-- RDBITS's mask keeps OP, BUF but its lowest bit, SEL and VAL (30_encoding R98). -/
theorem rdbits_mask_iff (c : Command) :
    c &&& 0xFFFEFF0000000000FFFFFFFF#96 = 0x100000000000000000000000#96 ↔
      Command.op c = 0x10 ∧ (Command.buf c).toNat ≤ 1 ∧ Command.sel c = 0 ∧ Command.val c = 0 := by
  rw [Command.and_eq_iff, ← buf_and_mask_eq_zero_iff]
  simp [Command.op, Command.buf, Command.sel, Command.w, Command.off, Command.val, byte_and_255, word_and_4294967295]

/-- WRBITS's mask keeps OP, BUF but its lowest bit, and SEL (30_encoding R98). -/
theorem wrbits_mask_iff (c : Command) :
    c &&& 0xFFFEFF000000000000000000#96 = 0x110000000000000000000000#96 ↔
      Command.op c = 0x11 ∧ (Command.buf c).toNat ≤ 1 ∧ Command.sel c = 0 := by
  rw [Command.and_eq_iff, ← buf_and_mask_eq_zero_iff]
  simp [Command.op, Command.buf, Command.sel, Command.w, Command.off, Command.val, byte_and_255]

/-- The mask EMBED and CKFIX share keeps all but SEL (30_encoding R98). -/
theorem sel_mask_iff (c : Command) (op : BitVec 8) :
    c &&& 0xFFFF00FFFFFFFFFFFFFFFFFF#96 = Command.ofFields op 0 0 0 0 0 ↔
      Command.op c = op ∧ Command.buf c = 0 ∧ Command.w c = 0 ∧ Command.off c = 0 ∧ Command.val c = 0 := by
  rw [Command.and_eq_iff, Command.op_ofFields, Command.buf_ofFields, Command.sel_ofFields, Command.w_ofFields,
    Command.off_ofFields, Command.val_ofFields]
  simp [Command.op, Command.buf, Command.sel, Command.w, Command.off, Command.val, byte_and_255, word_and_4294967295]

/-! ### The decoder inverts the encoder -/

theorem bufNotReserved_iff (buf : BitVec 8) : bufNotReserved buf = true ↔ buf.toNat ≤ 1 := decide_eq_true_iff

/-- The decoder reads each encoding back: the opcode picks the arm, the unused fields are 0 (30_encoding R82). -/
theorem decode_encode {i : Instr} (hi : i.WellFormed) : decode (encode i) = .ok i := by
  cases i with
  | rdbits buf off w =>
    have hbuf := (bufNotReserved_iff buf).1 hi
    simp [decode, encode, hbuf]
  | wrbits buf off w val =>
    have hbuf := (bufNotReserved_iff buf).1 hi
    simp [decode, encode, hbuf]
  | embed sel => simp [decode, encode]
  | ckfix sel => simp [decode, encode]
  | ckfixall => simp [decode, encode]

/-- Each arm that answers an instruction has found its opcode, its unused fields 0 and BUF not reserved
(30_encoding R82, R83). -/
theorem encode_of_decode {c : Command} {i : Instr} (h : decode c = .ok i) : encode i = c ∧ i.WellFormed := by
  unfold decode at h
  split_ifs at h with hop hunused hbuf hop hunused hbuf hop hunused hop hunused hop hunused <;> cases h
  · simp only [not_or, not_not] at hunused
    exact ⟨by simp [Command.ofFields_eq_iff, encode, hop, hunused], (bufNotReserved_iff _).2 (not_lt.1 hbuf)⟩
  · rw [not_not] at hunused
    exact ⟨by simp [Command.ofFields_eq_iff, encode, hop, hunused], (bufNotReserved_iff _).2 (not_lt.1 hbuf)⟩
  all_goals
    simp only [not_or, not_not] at hunused
    exact ⟨by simp [Command.ofFields_eq_iff, encode, hop, hunused], rfl⟩

/-- WHAT THE DECODER ACCEPTS: the encodings of the well-formed instructions, each as its instruction. -/
theorem decode_eq_ok_iff {c : Command} {i : Instr} : decode c = .ok i ↔ encode i = c ∧ i.WellFormed :=
  ⟨encode_of_decode, fun ⟨hc, hi⟩ => hc ▸ decode_encode hi⟩

/-! ### Which words decode to which command

A word decodes to a command when it is that command's encoding for some operands, which then are its own fields. -/

theorem decode_rdbits_iff {c : Command} :
    (∃ buf off w, decode c = .ok (.rdbits buf off w)) ↔
      Command.op c = 0x10 ∧ (Command.buf c).toNat ≤ 1 ∧ Command.sel c = 0 ∧ Command.val c = 0 := by
  simp [decode_eq_ok_iff, encode, Command.ofFields_eq_iff, Instr.WellFormed, Instr.wellFormed, bufNotReserved_iff]
  tauto

theorem decode_wrbits_iff {c : Command} :
    (∃ buf off w val, decode c = .ok (.wrbits buf off w val)) ↔
      Command.op c = 0x11 ∧ (Command.buf c).toNat ≤ 1 ∧ Command.sel c = 0 := by
  simp [decode_eq_ok_iff, encode, Command.ofFields_eq_iff, Instr.WellFormed, Instr.wellFormed, bufNotReserved_iff]
  tauto

theorem decode_embed_iff {c : Command} :
    (∃ sel, decode c = .ok (.embed sel)) ↔
      Command.op c = 0x20 ∧ Command.buf c = 0 ∧ Command.w c = 0 ∧ Command.off c = 0 ∧ Command.val c = 0 := by
  simp [decode_eq_ok_iff, encode, Command.ofFields_eq_iff, Instr.WellFormed, Instr.wellFormed]

theorem decode_ckfix_iff {c : Command} :
    (∃ sel, decode c = .ok (.ckfix sel)) ↔
      Command.op c = 0x30 ∧ Command.buf c = 0 ∧ Command.w c = 0 ∧ Command.off c = 0 ∧ Command.val c = 0 := by
  simp [decode_eq_ok_iff, encode, Command.ofFields_eq_iff, Instr.WellFormed, Instr.wellFormed]

theorem encode_ckfixall : encode .ckfixall = 0x310000000000000000000000#96 := by decide

theorem decode_ckfixall_iff {c : Command} : decode c = .ok .ckfixall ↔ c = 0x310000000000000000000000#96 := by
  rw [decode_eq_ok_iff, encode_ckfixall]
  exact ⟨fun h => h.1.symm, fun h => ⟨h.symm, rfl⟩⟩

/-! ### What the decoder rejects -/

/-- A field that the command of `c`'s opcode does not use is not 0 (30_encoding R82 step 2, R83). -/
def Command.UnusedFieldSet (c : Command) : Prop :=
  (Command.op c = 0x10#8 ∧ (Command.sel c ≠ 0 ∨ Command.val c ≠ 0)) ∨
    (Command.op c = 0x11#8 ∧ Command.sel c ≠ 0) ∨
    ((Command.op c = 0x20#8 ∨ Command.op c = 0x30#8) ∧
      (Command.buf c ≠ 0 ∨ Command.w c ≠ 0 ∨ Command.off c ≠ 0 ∨ Command.val c ≠ 0)) ∨
    (Command.op c = 0x31#8 ∧
      (Command.buf c ≠ 0 ∨ Command.sel c ≠ 0 ∨ Command.w c ≠ 0 ∨ Command.off c ≠ 0 ∨ Command.val c ≠ 0))

variable {c : Command}

/-! The decoder, one equation for each opcode of the map and one for the rest (30_encoding R82, R84). -/

theorem decode_of_op_rdbits (h : Command.op c = 0x10#8) :
    decode c = if Command.sel c ≠ 0 ∨ Command.val c ≠ 0 then .error .unusedField
      else if 1 < (Command.buf c).toNat then .error .reservedBuf
      else .ok (.rdbits (Command.buf c) (Command.off c) (Command.w c)) := if_pos h

theorem decode_of_op_wrbits (h : Command.op c = 0x11#8) :
    decode c = if Command.sel c ≠ 0 then .error .unusedField
      else if 1 < (Command.buf c).toNat then .error .reservedBuf
      else .ok (.wrbits (Command.buf c) (Command.off c) (Command.w c) (Command.val c)) := by
  rw [decode, h]; rfl

theorem decode_of_op_embed (h : Command.op c = 0x20#8) :
    decode c = if Command.buf c ≠ 0 ∨ Command.w c ≠ 0 ∨ Command.off c ≠ 0 ∨ Command.val c ≠ 0 then .error .unusedField
      else .ok (.embed (Command.sel c)) := by
  rw [decode, h]; rfl

theorem decode_of_op_ckfix (h : Command.op c = 0x30#8) :
    decode c = if Command.buf c ≠ 0 ∨ Command.w c ≠ 0 ∨ Command.off c ≠ 0 ∨ Command.val c ≠ 0 then .error .unusedField
      else .ok (.ckfix (Command.sel c)) := by
  rw [decode, h]; rfl

theorem decode_of_op_ckfixall (h : Command.op c = 0x31#8) :
    decode c = if Command.buf c ≠ 0 ∨ Command.sel c ≠ 0 ∨ Command.w c ≠ 0 ∨ Command.off c ≠ 0 ∨ Command.val c ≠ 0 then
        .error .unusedField
      else .ok .ckfixall := by
  rw [decode, h]; rfl

/-- An opcode outside the map is rejected before anything else is looked at (30_encoding R82 step 1). -/
theorem decode_of_reservedOp (h : Command.op c ∉ [0x10#8, 0x11#8, 0x20#8, 0x30#8, 0x31#8]) :
    decode c = .error .reservedOp := by
  simp only [List.mem_cons, List.not_mem_nil, or_false, not_or] at h
  obtain ⟨h10, h11, h20, h30, h31⟩ := h
  exact (if_neg h10).trans <| (if_neg h11).trans <| (if_neg h20).trans <| (if_neg h30).trans (if_neg h31)

theorem decode_of_unusedFieldSet (h : Command.UnusedFieldSet c) : decode c = .error .unusedField := by
  rcases h with ⟨hop, hset⟩ | ⟨hop, hset⟩ | ⟨hop | hop, hset⟩ | ⟨hop, hset⟩
  · exact (decode_of_op_rdbits hop).trans (if_pos hset)
  · exact (decode_of_op_wrbits hop).trans (if_pos hset)
  · exact (decode_of_op_embed hop).trans (if_pos hset)
  · exact (decode_of_op_ckfix hop).trans (if_pos hset)
  · exact (decode_of_op_ckfixall hop).trans (if_pos hset)

/-- A reserved BUF is found once the unused fields are 0 (30_encoding R91). -/
theorem decode_of_reservedBuf
    (hop : (Command.op c = 0x10#8 ∧ Command.sel c = 0 ∧ Command.val c = 0) ∨ (Command.op c = 0x11#8 ∧ Command.sel c = 0))
    (hbuf : 1 < (Command.buf c).toNat) : decode c = .error .reservedBuf := by
  rcases hop with ⟨hop, hsel, hval⟩ | ⟨hop, hsel⟩
  · simp [decode_of_op_rdbits hop, hsel, hval, hbuf]
  · simp [decode_of_op_wrbits hop, hsel, hbuf]

/-- Whatever the unused fields, a bit access with a reserved BUF is rejected (30_encoding R91). -/
theorem decode_error_of_reservedBuf (hop : Command.op c = 0x10#8 ∨ Command.op c = 0x11#8)
    (hbuf : 1 < (Command.buf c).toNat) : ∃ e, decode c = .error e := by
  by_cases hset : Command.UnusedFieldSet c
  · exact ⟨_, decode_of_unusedFieldSet hset⟩
  · refine ⟨_, decode_of_reservedBuf ?_ hbuf⟩
    rcases hop with hop | hop <;> simpa [Command.UnusedFieldSet, hop] using hset

/-! ### The 12 bytes -/

/-- The `n` low bytes of a number, most significant first, spell it (30_encoding R94). -/
theorem bigEndianNat_bytes (n x : Nat) :
    bigEndianNat ((List.range n).map fun k => BitVec.ofNat 8 (x / 256 ^ (n - 1 - k))) = x % 256 ^ n := by
  induction n generalizing x with
  | zero => simp [bigEndianNat, Nat.mod_one]
  | succ n ih =>
    have hfront : (List.range n).map (fun k => BitVec.ofNat 8 (x / 256 ^ (n + 1 - 1 - k))) =
        (List.range n).map (fun k => BitVec.ofNat 8 (x / 256 / 256 ^ (n - 1 - k))) := by
      refine List.map_congr_left fun k hk => ?_
      have hk := List.mem_range.1 hk
      rw [Nat.div_div_eq_div_mul, ← Nat.pow_succ', show n + 1 - 1 - k = (n - 1 - k).succ by omega]
    have ih' := ih (x / 256)
    rw [bigEndianNat] at ih' ⊢
    rw [List.range_succ, List.map_append, List.foldl_append, hfront, ih', List.map_singleton, List.foldl_cons,
      List.foldl_nil, BitVec.toNat_ofNat, Nat.add_sub_cancel, Nat.sub_self, Nat.pow_zero, Nat.div_one,
      Nat.pow_succ' (m := 256), Nat.mod_mul]
    omega

theorem Command.toBytes_eq_map (c : Command) :
    Command.toBytes c = (List.range 12).map fun k => BitVec.ofNat 8 (c.toNat / 256 ^ (12 - 1 - k)) := by
  refine List.map_congr_left fun k _ => ?_
  rw [BitVec.extractLsb', Nat.shiftRight_eq_div_pow, Nat.pow_mul]

/-- A command is read back from its 12 bytes (30_encoding R94). -/
theorem Command.ofBytes_toBytes (c : Command) : Command.ofBytes (Command.toBytes c) = some c := by
  have hlen : (Command.toBytes c).length = 12 := by simp [Command.toBytes]
  have hnum : bigEndianNat (Command.toBytes c) = c.toNat := by
    rw [Command.toBytes_eq_map, bigEndianNat_bytes]
    exact Nat.mod_eq_of_lt c.isLt
  rw [Command.ofBytes, if_pos hlen, hnum, BitVec.ofNat_toNat, BitVec.setWidth_eq]

theorem Command.ofBytes_of_length_ne {bs : List Byte} (h : bs.length ≠ 12) : Command.ofBytes bs = none := if_neg h

theorem decodeBytes_toBytes (c : Command) : decodeBytes (Command.toBytes c) = decode c := by
  rw [decodeBytes, Command.ofBytes_toBytes]

/-- Byte `k` of the 32-bit field at bit `a` is the word's byte at bit `a + k`. -/
theorem Command.byte_of_field (c : Command) (a : Nat) {k : Nat} (hk : k + 8 ≤ 32) :
    (c.extractLsb' a 32).extractLsb' k 8 = c.extractLsb' (a + k) 8 := by
  refine BitVec.eq_of_getLsbD_eq fun i hi => ?_
  have hfield : k + i < 32 := by omega
  simp [hi, hfield, Nat.add_assoc]

/-- The fields a list of a command's bytes falls into (30_encoding R81, R94). -/
theorem Command.toBytes_eq_fields (c : Command) :
    Command.toBytes c =
      [Command.op c, Command.buf c, Command.sel c, Command.w c,
        (Command.off c).extractLsb' 24 8, (Command.off c).extractLsb' 16 8, (Command.off c).extractLsb' 8 8,
        (Command.off c).extractLsb' 0 8,
        (Command.val c).extractLsb' 24 8, (Command.val c).extractLsb' 16 8, (Command.val c).extractLsb' 8 8,
        (Command.val c).extractLsb' 0 8] := by
  have inOff : ∀ k, k + 8 ≤ 32 → (Command.off c).extractLsb' k 8 = c.extractLsb' (32 + k) 8 :=
    fun k => c.byte_of_field 32
  have inVal : ∀ k, k + 8 ≤ 32 → (Command.val c).extractLsb' k 8 = c.extractLsb' (0 + k) 8 :=
    fun k => c.byte_of_field 0
  rw [inOff 24 (by decide), inOff 16 (by decide), inOff 8 (by decide), inOff 0 (by decide), inVal 24 (by decide),
    inVal 16 (by decide), inVal 8 (by decide), inVal 0 (by decide)]
  rfl

/-! ### The opcode table's number -/

theorem commandOfTable_toNat (c : Command) : commandOfTable 96 c.toNat = c := by
  rw [commandOfTable, Nat.mod_eq_of_lt c.isLt, BitVec.ofNat_toNat, BitVec.setWidth_eq]

theorem decodeTableWord_of_decode {i : Instr} (h : decode c = .ok i) : decodeTableWord 96 c.toNat = some i := by
  rw [decodeTableWord, commandOfTable_toNat, h]

end Sys2Proof

namespace Sys2Proof.Machine

/-- A word that names no command makes the engine fault with that word (30_encoding R82). -/
theorem runCommand_of_error {c : Command} {e : Reject} (h : decode c = .error e) (s : State) :
    runCommand c s = .next (s.raise .illegalCmd c) := by
  rw [runCommand, h]

/-! ### The statements -/

/-- Settles O4: the word, the table's number and the 12 bytes all lead to decoding the encoding. -/
theorem decodeOfEncode : Obligations.DecodeOfEncode := by
  intro i hi
  have hdec := decode_encode hi
  exact ⟨hdec, decodeTableWord_of_decode hdec, (decodeBytes_toBytes _).trans hdec⟩

/-- Settles O5: by the arm of the decoder that answered. -/
theorem encodeOfDecode : Obligations.EncodeOfDecode := fun _ _ => encode_of_decode

/-- Settles O6: a mask compares field by field, and the fields it keeps are those the decoder tests. -/
theorem legalMasksDecideDecoding : Obligations.LegalMasksDecideDecoding := by
  intro c
  have rdbits := decode_rdbits_iff.trans (rdbits_mask_iff c).symm
  have wrbits := decode_wrbits_iff.trans (wrbits_mask_iff c).symm
  have embed : _ ↔ c &&& _ = 0x200000000000000000000000#96 := decode_embed_iff.trans (sel_mask_iff c 0x20).symm
  have ckfix : _ ↔ c &&& _ = 0x300000000000000000000000#96 := decode_ckfix_iff.trans (sel_mask_iff c 0x30).symm
  have ckfixall : _ ↔ c &&& 0xFFFFFFFFFFFFFFFFFFFFFFFF#96 = 0x310000000000000000000000#96 :=
    decode_ckfixall_iff.trans (by rw [show c &&& 0xFFFFFFFFFFFFFFFFFFFFFFFF#96 = c from BitVec.and_allOnes])
  refine ⟨rdbits, wrbits, embed, ckfix, ckfixall, fun hrd hwr hem hck hall s => ?_⟩
  cases hdec : decode c with
  | error e => exact runCommand_of_error hdec s
  | ok i =>
    cases i with
    | rdbits buf off w => exact absurd (rdbits.1 ⟨buf, off, w, hdec⟩) hrd
    | wrbits buf off w val => exact absurd (wrbits.1 ⟨buf, off, w, val, hdec⟩) hwr
    | embed sel => exact absurd (embed.1 ⟨sel, hdec⟩) hem
    | ckfix sel => exact absurd (ckfix.1 ⟨sel, hdec⟩) hck
    | ckfixall => exact absurd (ckfixall.1 hdec) hall

/-- Settles O7: the word is the encoding of what it decodes to, and the encoding's fields are its operands. -/
theorem operandsAreTheFieldsAsTheyStand : Obligations.OperandsAreTheFieldsAsTheyStand := by
  intro c
  refine ⟨fun buf off w h => ?_, fun buf off w val h => ?_, fun sel h => ?_, fun sel h => ?_, decode_ckfixall_iff.1⟩
  all_goals
    obtain ⟨rfl, -⟩ := encode_of_decode h
    exact Command.fields_ofFields _ _ _ _ _ _

/-- Settles O9: byte `k` of a command from the top lies in one field, and 256-fold weights put the bytes together. -/
theorem hostBytesAreMostSignificantFirst : Obligations.HostBytesAreMostSignificantFirst :=
  ⟨fun c => ⟨c.toBytes_eq_fields, c.ofBytes_toBytes⟩, fun _ => Command.ofBytes_of_length_ne⟩

/-- Settles O8: each word is the encoding of its command. -/
theorem handWrittenWordsDecode : Obligations.HandWrittenWordsDecode :=
  ⟨decode_encode (i := .rdbits 0 4 8) rfl, decode_encode (i := .wrbits 0 6 5 0x15) rfl,
    decode_encode (i := .embed 1) rfl, decode_encode (i := .ckfix 7) rfl, decode_encode (i := .ckfixall) rfl⟩

/-- Settles O11: each case is one of the decoder's rejects, and a reject makes the step the entry of ILLEGAL_CMD. -/
theorem undecodableWordsFault : Obligations.UndecodableWordsFault := by
  refine ⟨fun c => ⟨decode_of_reservedOp, decode_of_unusedFieldSet, decode_of_reservedBuf⟩,
    fun s c cs hp hf hbad => ?_, by decide, by decide⟩
  have hreject : ∃ e, decode c = .error e := by
    rcases hbad with hop | hset | hset | ⟨hop, hbuf⟩ | hset | hset | hreject
    · exact ⟨_, decode_of_reservedOp hop⟩
    · exact ⟨_, decode_of_unusedFieldSet (.inl hset)⟩
    · exact ⟨_, decode_of_unusedFieldSet (.inr (.inl hset))⟩
    · exact decode_error_of_reservedBuf hop hbuf
    · exact ⟨_, decode_of_unusedFieldSet (.inr (.inr (.inl hset)))⟩
    · exact ⟨_, decode_of_unusedFieldSet (.inr (.inr (.inr hset)))⟩
    · exact hreject
  obtain ⟨e, he⟩ := hreject
  exact (step_eq_runCommand s hp hf).trans (runCommand_of_error he _)

end Sys2Proof.Machine

/-! The pseudo-commands (30_encoding R96): RDCK as a 16-bit read of a checksum field, and RUN as EMBED followed by
CKFIXALL, with what a pass of repairs leaves of each region. -/

namespace Sys2Proof.Machine

section

variable (s : State)

/-! ### A completed command -/

/-- Completing a command is all there is to a command that changes neither a buffer nor FIXLOG (10_state R26, R28, R34). -/
theorem State.completedWith_complete (d : Word32) : s.CompletedWith (s.complete d) d :=
  ⟨rfl, rfl, rfl, ⟨rfl, rfl, rfl, rfl, rfl, rfl⟩, ⟨rfl, rfl, rfl⟩, rfl, rfl, rfl, rfl⟩

variable {s} in
/-- A program whose first command answers a next state goes on from there. -/
theorem execAll_cons_of_next {i : Instr} {t : State} (is : List Instr) (h : exec i s = .next t) :
    execAll (i :: is) s = execAll is t := by
  rw [execAll, h]

/-! What the end of a command leaves of a region's functions, which read SAVE and SIG alone. -/

@[simp] theorem State.hasSig_complete (d : Word32) (r : Fin 8) : (s.complete d).hasSig r = s.hasSig r := rfl
@[simp] theorem State.needsRepair_complete (d : Word32) (r : Fin 8) : (s.complete d).needsRepair r = s.needsRepair r := rfl
@[simp] theorem State.hasSig_orFixlog (m : BitVec 8) (r : Fin 8) : (s.orFixlog m).hasSig r = s.hasSig r := rfl
@[simp] theorem State.needsRepair_orFixlog (m : BitVec 8) (r : Fin 8) :
    (s.orFixlog m).needsRepair r = s.needsRepair r := rfl

/-! ### The sum of a region does not see its field -/

/-- A block read in two parts. -/
theorem State.readBytes_add (b : Buf) (a m n : Nat) :
    s.readBytes b a (m + n) = s.readBytes b a m ++ s.readBytes b (a + m) n := by
  simp only [State.readBytes_eq_map, List.range_add, List.map_append, List.map_map, Function.comp_def, Nat.add_assoc]

/-- Sum16 adds the bytes before the field and the bytes after it (42_checksum R154). -/
theorem State.sum16_eq_around_field (r : Fin 8) :
    s.sum16 r = sumBytes (s.readBytes .save (Config.region r).start Config.ckOff) +
      sumBytes (s.readBytes .save (fieldAddr r + 2) ((Config.region r).len - (Config.ckOff + 2))) := by
  have layout := region_layout r
  have hlen : (Config.region r).len = Config.ckOff + (2 + ((Config.region r).len - (Config.ckOff + 2))) := by
    unfold fieldAddr at layout
    omega
  have hfield : s.readBytes .save (fieldAddr r) 2 = [s.readByte .save (fieldAddr r), s.readByte .save (fieldAddr r + 1)] :=
    s.readBytes_eq_map .save (fieldAddr r) 2
  rw [State.sum16, hlen, s.readBytes_add .save (Config.region r).start, sumBytes_append,
    show (Config.region r).start + Config.ckOff = fieldAddr r from rfl, s.readBytes_add .save (fieldAddr r), sumBytes_append,
    hfield, sumBytes_cons, sumBytes_cons, sumBytes_nil, ← hlen]
  generalize (s.readByte .save (fieldAddr r)).setWidth 16 = high
  generalize (s.readByte .save (fieldAddr r + 1)).setWidth 16 = low
  generalize sumBytes _ = before
  generalize sumBytes _ = after
  bv_omega

/-! ### What a repair leaves of each region -/

/-- A repair writes field bytes, which no signature has (42_checksum R162). -/
@[simp] theorem State.hasSig_repairRegion (r q : Fin 8) : (s.repairRegion r).hasSig q = s.hasSig q := by
  have layout := region_layout q
  refine s.hasSig_congr (s.repairRegion_sig r) fun x hlo hhi => ?_
  by_cases hq : q = r
  · subst hq
    exact s.readByte_repairRegion_of_outside q .save x (.inr (by omega))
  · exact s.readByte_repairRegion_of_ne hq (by omega) (by omega)

/-- A repair does not change its region's sum, which leaves the field out (42_checksum R154, R162). -/
theorem State.sum16_repairRegion (r : Fin 8) : (s.repairRegion r).sum16 r = s.sum16 r := by
  have kept : ∀ x, x < fieldAddr r ∨ fieldAddr r + 2 ≤ x → (s.repairRegion r).readByte .save x = s.readByte .save x :=
    fun x hx => s.readByte_repairRegion_of_outside r .save x (.inr hx)
  rw [State.sum16_eq_around_field, State.sum16_eq_around_field,
    s.readBytes_congr fun x _ hhi => kept x (.inl hhi), s.readBytes_congr fun x hlo _ => kept x (.inr hlo)]

/-- A repaired region needs no repair (42_checksum R162). -/
theorem State.needsRepair_repairRegion_self (r : Fin 8) : (s.repairRegion r).needsRepair r = false := by
  by_cases hr : s.needsRepair r = true
  · have hstored : (s.repairRegion r).stored r = s.sum16 r := by
      rw [State.repairRegion, if_pos hr]
      exact s.readField16_writeField16 _ _
    simp [State.needsRepair, s.sum16_repairRegion, hstored]
  · have hr := Bool.eq_false_of_not_eq_true hr
    rw [s.repairRegion_of_not hr, hr]

/-- After a pass no region of its list needs repair, and the others are as they were (42_checksum R160, R162). -/
theorem State.needsRepair_repairAll (m : BitVec 8) (rs : List (Fin 8)) (q : Fin 8) :
    (s.repairAll m rs).1.needsRepair q = (decide (q ∉ rs) && s.needsRepair q) := by
  induction rs generalizing s m with
  | nil => simp [State.repairAll]
  | cons r rs ih =>
    rw [State.repairAll, ih]
    by_cases hq : q = r
    · subst hq
      simp [s.needsRepair_repairRegion_self]
    · simp [hq, s.needsRepair_repairRegion_of_ne hq]

/-- CKFIXALL visits every region (42_checksum R160). -/
theorem mem_regionOrder (r : Fin 8) : r ∈ Config.regionOrder := by
  revert r; decide

@[simp] theorem State.hasSig_repairAll (m : BitVec 8) (rs : List (Fin 8)) (q : Fin 8) :
    (s.repairAll m rs).1.hasSig q = s.hasSig q :=
  s.repairAll_keeps (·.hasSig q) (fun t r => t.hasSig_repairRegion r q) m rs

/-- A region has a right field, whenever it has the signature, exactly when it needs no repair (42_checksum R156). -/
theorem State.stored_eq_sum16_of_not_needsRepair {r : Fin 8} (h : s.needsRepair r = false) (hsig : s.hasSig r = true) :
    s.stored r = s.sum16 r := by
  by_contra hne
  rw [(s.needsRepair_iff r).2 ⟨hsig, hne⟩] at h
  cases h

/-- A pass of repairs writes the field bytes of signed regions alone (42_checksum R158, R164). -/
theorem State.readByte_repairAll_of_not_signed_field (m : BitVec 8) (rs : List (Fin 8)) {x : Nat}
    (hx : ∀ r, s.hasSig r = true → x ≠ fieldAddr r ∧ x ≠ fieldAddr r + 1) :
    (s.repairAll m rs).1.readByte .save x = s.readByte .save x := by
  induction rs generalizing s m with
  | nil => rfl
  | cons r rs ih =>
    rw [State.repairAll, ih _ _ fun q hq => hx q (by rwa [s.hasSig_repairRegion] at hq)]
    by_cases hr : s.needsRepair r = true
    · obtain ⟨hhigh, hlow⟩ := hx r ((s.needsRepair_iff r).1 hr).1
      exact s.readByte_repairRegion_of_outside r .save x (by omega)
    · rw [s.repairRegion_of_not (Bool.eq_false_of_not_eq_true hr)]

/-! ### The pixels of an embedded image -/

/-- Bit `k` of a pixel's value is bit `k` of the source byte, for the low five (41_embed R133). -/
theorem testBit_toNat_mod_32 (x : Byte) (k : Nat) :
    (x.toNat % 32).testBit k = (decide (k < 5) && (pixelValue x).getLsbD k) := by
  have hval : (pixelValue x).toNat = x.toNat % 2 ^ 5 := Nat.and_two_pow_sub_one_eq_mod _ 5
  rw [← BitVec.testBit_toNat, hval, Nat.testBit_mod_two_pow, ← Bool.and_assoc, Bool.and_self,
    ← Nat.testBit_mod_two_pow]

/-- The field of pixel (i, j) holds the low 5 bits of its source byte (41_embed R131 to R134). -/
theorem State.bitRead_embedImage (slot : Nat) {i j : Nat} (hi : i < 112) (hj : j < 160) :
    (s.embedImage slot).bitRead .save (pixelDst slot i j) 5 =
      (s.readByte .raster (pixelSrc s.rlen.toNat i j)).toNat % 32 := by
  refine Nat.eq_of_testBit_eq fun k => ?_
  rw [State.testBit_bitRead, testBit_toNat_mod_32]
  by_cases hk : k < 5
  · have hdst : pixelDst slot i j + (5 - 1 - k) = 8 * imageBase slot + (5 * (160 * i + j) + (4 - k)) := by
      unfold pixelDst imageBase Config.slotStride Config.hdrSkip Config.imgW Config.bpp
      omega
    have hpix : (5 * (160 * i + j) + (4 - k)) / 5 = 160 * i + j := by omega
    rw [hdst, State.getBit_embedImage, if_pos ⟨rfl, by omega, by omega⟩, Nat.add_sub_cancel_left, State.imageBit, hpix,
      show (160 * i + j) / 160 = i by omega, show (160 * i + j) % 160 = j by omega,
      show 4 - (5 * (160 * i + j) + (4 - k)) % 5 = k by omega]
  · simp [hk]

/-- No repair reaches the image of a slot (41_embed R140). -/
theorem State.bitRead_repairAll_image {slot : Nat} (hslot : slot = 1 ∨ slot = 2) (m : BitVec 8) (rs : List (Fin 8))
    {i j : Nat} (hi : i < 112) (hj : j < 160) :
    (s.repairAll m rs).1.bitRead .save (pixelDst slot i j) 5 = s.bitRead .save (pixelDst slot i j) 5 := by
  refine s.bitRead_congr fun q hlo hhi => ?_
  unfold pixelDst Config.slotStride Config.hdrSkip Config.imgW Config.bpp at hlo hhi
  have kept : (s.repairAll m rs).1.readByte .save (q / 8) = s.readByte .save (q / 8) := by
    refine s.readByte_repairAll_of_not_signed_field m rs fun r _ => ?_
    have layout := region_layout r
    have clear := image_clear_of_fields hslot r
    unfold imageBase Config.slotStride Config.hdrSkip at clear
    omega
  rw [State.getBit, State.getBit, kept]

@[simp] theorem State.bitRead_complete (d : Word32) (b : Buf) (off w : Nat) :
    (s.complete d).bitRead b off w = s.bitRead b off w := by
  cases b <;> rfl

@[simp] theorem State.bitRead_orFixlog (m : BitVec 8) (b : Buf) (off w : Nat) :
    (s.orFixlog m).bitRead b off w = s.bitRead b off w := by
  cases b <;> rfl

/-- EMBED of a slot on a good raster completes (41_embed R134, 70_reset R214). -/
theorem exec_embed_of_rasterOK {sel : BitVec 8} (hsel : sel.toNat = 1 ∨ sel.toNat = 2) (h : s.RasterOK) :
    exec (.embed sel) s = .next ((s.embedImage sel.toNat).complete 0) :=
  execEmbed_of_ok s ((embedCheck_ok_iff s).2 ⟨rfl, hsel, h⟩)

end

/-! ### The statements -/

/-- Settles O41: RDCK's field lies inside SAVE, and a 16-bit read there answers its number. -/
theorem rdckReturnsTheStoredChecksum : Obligations.RdckReturnsTheStoredChecksum := by
  intro s r
  have layout := region_layout r
  exact ⟨_, _, rfl, rfl, exec_rdbits_readField16 s (a := fieldAddr r) (by omega), s.completedWith_complete _, rfl⟩

/-- Settles O55: EMBED writes the image and no signature, CKFIXALL then writes field bytes of signed regions alone. -/
theorem pipelineEmbedsAndRepairs : Obligations.PipelineEmbedsAndRepairs := by
  intro s sel hsel hok
  have hembed := exec_embed_of_rasterOK s hsel hok
  have hsigs : ∀ r, (s.embedImage sel.toNat).hasSig r = s.hasSig r :=
    fun r => (embedLeavesSignaturesAndFieldsAlone.2 s _ sel hembed r).1
  have hall := execCkfixall_eq ((s.embedImage sel.toNat).complete 0)
  have hrun := (execAll_cons_of_next [.ckfixall] hembed).trans (execAll_cons_of_next [] hall)
  refine ⟨_, _, _, rfl, rfl, hembed, hall, hrun, fun r => ?mask, toNat_setWidth_mask_lt _, ?fixlog,
    fun r hr => ?right, fun r => ?signed, fun i j hi hj => ?pixel, fun a hout hfield => ?frame, ?raster, ?responses,
    ?count, ?mode⟩
  case mask => rw [State.complete_result, State.getLsbD_ckfixall_mask, State.needsRepair_iff]
  case fixlog => simp
  case right =>
    refine State.stored_eq_sum16_of_not_needsRepair _ ?_ hr
    simp [State.needsRepair_repairAll, mem_regionOrder]
  case signed => simp [hsigs]
  case pixel =>
    have hdst : sel.toNat * 262144 + 34560 + 800 * i + 5 * j = pixelDst sel.toNat i j := by
      unfold pixelDst Config.slotStride Config.hdrSkip Config.imgW Config.bpp
      omega
    rw [hdst, State.bitRead_complete, State.bitRead_orFixlog, State.bitRead_repairAll_image _ hsel _ _ hi hj,
      State.bitRead_complete, s.bitRead_embedImage _ hi hj]
    rfl
  case frame =>
    rw [State.readByte_complete, State.readByte_orFixlog, State.readByte_repairAll_of_not_signed_field,
      State.readByte_complete, s.readByte_embedImage_of_outside _ .save a (.inr hout)]
    exact fun r hr => hfield r (by rwa [State.hasSig_complete, hsigs] at hr)
  case raster => simp
  case responses => simp
  case count => simp [BitVec.add_assoc]
  case mode => simp [State.faulted]

end Sys2Proof.Machine

/-! The BitIO commands (spec/40_bitio.md): what an admitted and a refused access answers, the field read back after a
write, the order of field writes, and both accesses on the touched bytes as one number. -/

namespace Sys2Proof.Machine

section

variable (s : State)

/-! ### Byte and bit writes, two in a row -/

theorem State.writeByte_writeByte_same (b : Buf) (a : Nat) (u v : Byte) :
    (s.writeByte b a u).writeByte b a v = s.writeByte b a v := by
  simp only [State.writeByte, State.setMem_mem, State.setMem_setMem, Memory.write_write_same]

theorem State.writeByte_comm (b : Buf) {a x : Nat} (h : a ≠ x) (u v : Byte) :
    (s.writeByte b a u).writeByte b x v = (s.writeByte b x v).writeByte b a u := by
  simp only [State.writeByte, State.setMem_mem, State.setMem_setMem, Memory.write_comm _ h]

/-- Writes of two bits commute, in one byte as in two (40_bitio R119). -/
theorem State.setBit_comm (b : Buf) {p q : Nat} (h : p ≠ q) (u v : Bool) :
    (s.setBit b p u).setBit b q v = (s.setBit b q v).setBit b p u := by
  unfold State.setBit
  simp only [State.readByte_writeByte, true_and]
  by_cases hbyte : p / 8 = q / 8
  · rw [hbyte, if_pos rfl, State.writeByte_writeByte_same, State.writeByte_writeByte_same]
    refine congrArg _ (BitVec.eq_of_getLsbD_eq fun k hk => ?_)
    simp only [if_true, setBit_byte _ _ _ _ hk]
    by_cases hkp : k = 7 - p % 8
    · have hkq : k ≠ 7 - q % 8 := by omega
      rw [if_neg hkq, if_pos hkp, if_pos hkp]
    · rw [if_neg hkp, if_neg hkp]
  · rw [if_neg (Ne.symm hbyte), if_neg hbyte]
    exact s.writeByte_comm b hbyte _ _

/-! ### Field writes -/

variable {s} in
/-- What commutes with the bit writes of a field commutes with the field write (40_bitio R113). -/
theorem State.bitWrite_comm_of_setBit {f : State → State} {b : Buf} {off w : Nat}
    (h : ∀ t p x, off ≤ p → p < off + w → f (State.setBit t b p x) = (f t).setBit b p x) (v : Word32) :
    f (s.bitWrite b off w v) = (f s).bitWrite b off w v := by
  unfold State.bitWrite
  suffices ∀ l : List Nat, (∀ i ∈ l, i < w) →
      f (l.foldl (fun t i => t.setBit b (off + i) (v.getLsbD (w - 1 - i))) s) =
        l.foldl (fun t i => t.setBit b (off + i) (v.getLsbD (w - 1 - i))) (f s) from
    this _ fun i hi => List.mem_range.1 hi
  intro l hl
  induction l generalizing s with
  | nil => rfl
  | cons i l ih =>
    have hi := hl i List.mem_cons_self
    rw [List.foldl_cons, List.foldl_cons, ih fun j hj => hl j (List.mem_cons_of_mem _ hj),
      h s _ _ (by omega) (by omega)]

/-- Writes of disjoint fields commute (40_bitio R119). -/
theorem State.bitWrite_comm (b : Buf) {off₁ w₁ off₂ w₂ : Nat} (h : off₁ + w₁ ≤ off₂ ∨ off₂ + w₂ ≤ off₁)
    (v₁ v₂ : Word32) :
    (s.bitWrite b off₁ w₁ v₁).bitWrite b off₂ w₂ v₂ = (s.bitWrite b off₂ w₂ v₂).bitWrite b off₁ w₁ v₁ :=
  State.bitWrite_comm_of_setBit (f := (·.bitWrite b off₂ w₂ v₂))
    (fun t p x hlo hhi => (State.bitWrite_comm_of_setBit (f := (·.setBit b p x))
      (fun t q y _ _ => t.setBit_comm b (show q ≠ p by omega) y x) v₂).symm) v₁

theorem State.bitWrite_mem_of_ne {b c : Buf} (h : c ≠ b) (off w : Nat) (v : Word32) :
    (s.bitWrite b off w v).mem c = s.mem c :=
  s.bitWrite_keeps (·.mem c) b (fun t _ _ => t.setMem_mem_of_ne h _) off w v

@[simp] theorem State.bitWrite_len (b c : Buf) (off w : Nat) (v : Word32) : (s.bitWrite b off w v).len c = s.len c :=
  s.bitWrite_keeps (·.len c) b (fun t _ _ => t.setMem_len b c _) off w v

/-- A field read back after it was written holds the low bits of the value (40_bitio R117). -/
theorem State.bitRead_bitWrite_same (b : Buf) (off w : Nat) (v : Word32) :
    (s.bitWrite b off w v).bitRead b off w = v.toNat &&& (2 ^ w - 1) := by
  refine Nat.eq_of_testBit_eq fun k => ?_
  rw [State.testBit_bitRead, Nat.testBit_and, Nat.testBit_two_pow_sub_one, Bool.and_comm, BitVec.testBit_toNat]
  by_cases hk : k < w
  · rw [State.getBit_bitWrite, if_pos ⟨rfl, by omega, by omega⟩, Nat.add_sub_cancel_left,
      show w - 1 - (w - 1 - k) = k by omega]
  · rw [decide_eq_false hk, Bool.and_false, Bool.and_false]

/-- A field reads as before when a field disjoint from it is written (40_bitio R119). -/
theorem State.bitRead_bitWrite_of_disjoint (b : Buf) {off₁ w₁ off₂ w₂ : Nat}
    (h : off₁ + w₁ ≤ off₂ ∨ off₂ + w₂ ≤ off₁) (v : Word32) :
    (s.bitWrite b off₂ w₂ v).bitRead b off₁ w₁ = s.bitRead b off₁ w₁ :=
  s.bitRead_congr fun q hlo hhi => by rw [State.getBit_bitWrite, if_neg (by omega)]

/-! ### The touched bytes as one number -/

theorem bigEndianNat_append_singleton (bs : List Byte) (x : Byte) :
    bigEndianNat (bs ++ [x]) = bigEndianNat bs * 256 + x.toNat := by
  simp only [bigEndianNat, List.foldl_append, List.foldl_cons, List.foldl_nil]

/-- A field in two parts, the first the more significant (20_memory R54). -/
theorem State.bitRead_add (b : Buf) (off m n : Nat) :
    s.bitRead b off (m + n) = s.bitRead b off m * 2 ^ n + s.bitRead b (off + m) n := by
  induction n with
  | zero => simp
  | succ n ih =>
    rw [← Nat.add_assoc, State.bitRead_succ, ih, State.bitRead_succ, Nat.pow_succ, Nat.add_assoc off m n]
    ring

/-- A field of one whole byte is the byte (20_memory R52). -/
theorem State.bitRead_byte (b : Buf) (a : Nat) : s.bitRead b (8 * a) 8 = (s.readByte b a).toNat := by
  refine Nat.eq_of_testBit_eq fun k => ?_
  rw [State.testBit_bitRead, BitVec.testBit_toNat]
  by_cases hk : k < 8
  · rw [decide_eq_true hk, Bool.true_and, State.getBit, show (8 * a + (8 - 1 - k)) / 8 = a by omega,
      show 7 - (8 * a + (8 - 1 - k)) % 8 = k by omega]
  · rw [decide_eq_false hk, Bool.false_and, BitVec.getLsbD_of_ge _ _ (by omega)]

/-- A block of bytes as one big-endian number is the field of all their bits (40_bitio R121). -/
theorem State.bigEndianNat_readBytes (b : Buf) (a n : Nat) :
    bigEndianNat (s.readBytes b a n) = s.bitRead b (8 * a) (8 * n) := by
  induction n with
  | zero => simp [State.readBytes_eq_map, bigEndianNat]
  | succ n ih =>
    have hsplit : s.readBytes b a (n + 1) = s.readBytes b a n ++ [s.readByte b (a + n)] := by
      rw [State.readBytes_add]
      exact congrArg _ (s.readBytes_eq_map b (a + n) 1)
    rw [hsplit, bigEndianNat_append_singleton, ih, Nat.mul_succ 8 n, State.bitRead_add, ← Nat.mul_add 8 a n,
      State.bitRead_byte, show (2 : Nat) ^ 8 = 256 from rfl]

/-- A field inside a wider one is the wider one's number shifted right and masked (40_bitio R121). -/
theorem State.bitRead_eq_shiftRight_and (b : Buf) (off k w sh : Nat) :
    s.bitRead b (off + k) w = (s.bitRead b off (k + w + sh) >>> sh) &&& (2 ^ w - 1) := by
  refine Nat.eq_of_testBit_eq fun j => ?_
  rw [Nat.testBit_and, Nat.testBit_shiftRight, Nat.testBit_two_pow_sub_one, State.testBit_bitRead,
    State.testBit_bitRead]
  by_cases hj : j < w
  · rw [decide_eq_true hj, decide_eq_true (show sh + j < k + w + sh by omega), Bool.true_and, Bool.true_and,
      Bool.and_true, show off + (k + w + sh - 1 - (sh + j)) = off + k + (w - 1 - j) by omega]
  · rw [decide_eq_false hj, Bool.false_and, Bool.and_false]

/-- Clearing `w` bits of a number of `n` bits at `sh` and setting those of `v` there leaves every other bit. -/
theorem testBit_replace_field {n w sh : Nat} (hfit : w + sh ≤ n) {x : Nat} (hx : x < 2 ^ n) (v j : Nat) :
    ((x &&& ((2 ^ n - 1) ^^^ ((2 ^ w - 1) <<< sh))) ||| ((v &&& (2 ^ w - 1)) <<< sh)).testBit j =
      if sh ≤ j ∧ j < w + sh then v.testBit (j - sh) else x.testBit j := by
  simp only [Nat.testBit_or, Nat.testBit_and, Nat.testBit_xor, Nat.testBit_shiftLeft, Nat.testBit_two_pow_sub_one]
  by_cases hj : sh ≤ j ∧ j < w + sh
  · simp [hj, show j < n by omega, show j - sh < w by omega]
  · have hout : (decide (sh ≤ j) && decide (j - sh < w)) = false := by
      rw [← Bool.decide_and]
      exact decide_eq_false (by omega)
    rw [if_neg hj, Bool.and_left_comm, hout, Bool.and_false, Bool.or_false, Bool.xor_false]
    by_cases hn : j < n
    · rw [decide_eq_true hn, Bool.and_true]
    · have hxj : x < 2 ^ j := hx.trans_le (Nat.pow_le_pow_right (by decide) (Nat.le_of_not_lt hn))
      rw [decide_eq_false hn, Bool.and_false, Nat.testBit_lt_two_pow hxj]

/-- A field write seen from a wider field: the masked value replaces its bits in the wider number, the complement taken
in the wider field's width (40_bitio R121). -/
theorem State.bitRead_bitWrite_inside (b : Buf) (off k w sh : Nat) (v : Word32) :
    (s.bitWrite b (off + k) w v).bitRead b off (k + w + sh) =
      (s.bitRead b off (k + w + sh) &&& ((2 ^ (k + w + sh) - 1) ^^^ ((2 ^ w - 1) <<< sh))) |||
        ((v.toNat &&& (2 ^ w - 1)) <<< sh) := by
  refine Nat.eq_of_testBit_eq fun j => ?_
  rw [testBit_replace_field (by omega) (s.bitRead_lt b off _), State.testBit_bitRead, State.testBit_bitRead,
    BitVec.testBit_toNat, State.getBit_bitWrite]
  by_cases hin : j < k + w + sh
  · rw [decide_eq_true hin, Bool.true_and, Bool.true_and]
    by_cases hj : sh ≤ j ∧ j < w + sh
    · rw [if_pos hj, if_pos ⟨rfl, by omega, by omega⟩]
      exact congrArg _ (by omega)
    · rw [if_neg hj, if_neg (by omega)]
  · rw [decide_eq_false hin, Bool.false_and, Bool.false_and, if_neg (by omega)]

/-! ### What an access answers -/

@[simp] theorem State.getBit_complete (d : Word32) (b : Buf) (p : Nat) : (s.complete d).getBit b p = s.getBit b p := by
  cases b <;> rfl

@[simp] theorem State.complete_mem (d : Word32) (b : Buf) : (s.complete d).mem b = s.mem b := by
  cases b <;> rfl

@[simp] theorem State.complete_len (d : Word32) (b : Buf) : (s.complete d).len b = s.len b := by
  cases b <;> rfl

@[simp] theorem State.raise_mem (cause : Cause) (c : Command) (b : Buf) : (s.raise cause c).mem b = s.mem b := by
  cases b <;> rfl

/-- BUF is 0 for SAVE, 1 for RASTER (30_encoding R81). -/
theorem bufOf_eq_some {buf : BitVec 8} {b : Buf} (h : buf = 0 ∧ b = .save ∨ buf = 1 ∧ b = .raster) :
    bufOf buf = some b := by
  rcases h with ⟨rfl, rfl⟩ | ⟨rfl, rfl⟩ <;> rfl

/-- A completed field write: nothing but the buffer, RESULT, CMDCNT and the response stream changes (40_bitio R118). -/
theorem State.completedWith_bitWrite_complete (b : Buf) (off w : Nat) (v d : Word32) :
    s.CompletedWith ((s.bitWrite b off w v).complete d) d := by
  simp [State.CompletedWith, State.FaultRecordKept, State.LaunchKept, State.QueuesKept]

section

variable {s} {buf : BitVec 8} {off : Word32} {w : BitVec 8} {b : Buf} {cause : Cause}

/-- Every width but 1 to 32 is refused before the range is looked at (40_bitio R115). -/
theorem bitIOCheck_of_badWidth (hbuf : bufOf buf = some b) (hw : w.toNat = 0 ∨ 32 < w.toNat) :
    bitIOCheck buf off w s = .error .badWidth := by
  simp only [bitIOCheck, hbuf]
  exact if_pos hw

/-- A legal width past the end of the buffer is refused (40_bitio R116). -/
theorem bitIOCheck_of_outOfRange (hbuf : bufOf buf = some b) (hlo : 1 ≤ w.toNat) (hhi : w.toNat ≤ 32)
    (hrange : 8 * s.len b < off.toNat + w.toNat) : bitIOCheck buf off w s = .error .outOfRange := by
  simp only [bitIOCheck, hbuf]
  rw [if_neg (by simp only [Config.wMax]; omega), if_pos hrange]

theorem exec_rdbits_of_ok (h : bitIOCheck buf off w s = .ok b) :
    exec (.rdbits buf off w) s = .next (s.complete (BitVec.ofNat 32 (s.bitRead b off.toNat w.toNat))) :=
  execRdbits_of_ok s h

theorem exec_wrbits_of_ok (h : bitIOCheck buf off w s = .ok b) (val : Word32) :
    exec (.wrbits buf off w val) s = .next ((s.bitWrite b off.toNat w.toNat val).complete 0) := by
  rw [exec, execWrbits, h]

/-- RDBITS and WRBITS whose operands are refused take the fault of the failed check, their own word recorded
(60_exceptions R184). -/
theorem exec_bitIO_of_error (h : bitIOCheck buf off w s = .error cause) (val : Word32) :
    exec (.rdbits buf off w) s = .next (s.raise cause (encode (.rdbits buf off w))) ∧
      exec (.wrbits buf off w val) s = .next (s.raise cause (encode (.wrbits buf off w val))) := by
  simp only [exec, execRdbits, execWrbits, h, and_self]

end

/-- The result of a field read of at most 32 bits is a word (40_bitio R112). -/
theorem State.toNat_ofNat_bitRead (b : Buf) (off : Nat) {w : Nat} (hw : w ≤ 32) :
    (BitVec.ofNat 32 (s.bitRead b off w)).toNat = s.bitRead b off w := by
  rw [BitVec.toNat_ofNat]
  exact Nat.mod_eq_of_lt ((s.bitRead_lt b off w).trans_le (Nat.pow_le_pow_right (by decide) hw))

end

/-! ### The statements -/

/-- Settles O18: the width is checked before the range. -/
theorem badWidthFaults : Obligations.BadWidthFaults := by
  intro s buf off w val hbuf hw
  rcases hbuf with rfl | rfl
  · exact exec_bitIO_of_error (bitIOCheck_of_badWidth (b := .save) rfl hw) val
  · exact exec_bitIO_of_error (bitIOCheck_of_badWidth (b := .raster) rfl hw) val

/-- Settles O19: SAVE has 1048576 bits, and a RASTER of no bytes has none. -/
theorem outOfRangeFaults : Obligations.OutOfRangeFaults := by
  refine ⟨?faults, fun s => ⟨rfl, rfl⟩, fun s off w hlo hhi => ⟨?lastOff, fun hrlen => ?emptyRaster⟩⟩
  case faults =>
    intro s buf b off w val hbuf hlo hhi hrange
    obtain ⟨hrd, hwr⟩ := exec_bitIO_of_error (bitIOCheck_of_outOfRange (bufOf_eq_some hbuf) hlo hhi hrange) val
    exact ⟨hrd, hwr, fun c cmd => s.raise_mem _ cmd c⟩
  case lastOff =>
    have hbits : 8 * s.len .save = 1048576 := rfl
    rw [bitIOCheck_ok_iff]
    exact ⟨fun ⟨_, _, _, hfit⟩ => by omega, fun hoff => ⟨rfl, hlo, hhi, by omega⟩⟩
  case emptyRaster =>
    have hbits : 8 * s.len .raster = 0 := by simp [State.len, hrlen]
    exact bitIOCheck_of_outOfRange (b := .raster) rfl hlo hhi (by omega)

/-- Settles O16: the bits of RESULT are the bits of BitRead, which fits the word. -/
theorem rdbitsReadsTheField : Obligations.RdbitsReadsTheField := by
  intro s buf b off w hbuf hlo hhi hfit
  have hcheck := (bitIOCheck_ok_iff s).2 ⟨bufOf_eq_some hbuf, hlo, hhi, hfit⟩
  have hword := s.toNat_ofNat_bitRead b off.toNat hhi
  refine ⟨_, exec_rdbits_of_ok hcheck, s.completedWith_complete _, fun i hi => ?bits, ?bound, rfl, rfl, rfl⟩
  case bits =>
    rw [State.complete_result, ← BitVec.testBit_toNat, hword, State.testBit_bitRead,
      decide_eq_true (show w.toNat - 1 - i < w.toNat by omega), Bool.true_and,
      show w.toNat - 1 - (w.toNat - 1 - i) = i by omega]
  case bound =>
    rw [State.complete_result, hword]
    exact s.bitRead_lt b _ _

/-- Settles O17: a field write reaches the bits of its field alone, in its own buffer. -/
theorem wrbitsWritesTheFieldAlone : Obligations.WrbitsWritesTheFieldAlone := by
  have outside : ∀ (s : State) (b : Buf) (off w : Nat) (v : Word32) (p : Nat), p < off ∨ off + w ≤ p →
      (s.bitWrite b off w v).getBit b p = s.getBit b p :=
    fun s b off w v p hp => by rw [State.getBit_bitWrite, if_neg (by omega)]
  refine ⟨?command, fun s b off w v _ _ _ => outside s b off w v⟩
  intro s buf b off w val hbuf hlo hhi hfit
  have hcheck := (bitIOCheck_ok_iff s).2 ⟨bufOf_eq_some hbuf, hlo, hhi, hfit⟩
  refine ⟨_, exec_wrbits_of_ok hcheck val, s.completedWith_bitWrite_complete _ _ _ _ _, fun i hi => ?field,
    fun p hp => ?bits, fun a ha => ?bytes, fun c hc => ?other, by simp⟩
  case field =>
    rw [State.getBit_complete, State.getBit_bitWrite, if_pos ⟨rfl, by omega, by omega⟩, Nat.add_sub_cancel_left]
  case bits => rw [State.getBit_complete, outside s b _ _ val p hp]
  case bytes => rw [State.readByte_complete, State.readByte_bitWrite_of_outside _ _ _ _ _ _ _ (by omega)]
  case other => rw [State.complete_mem, s.bitWrite_mem_of_ne hc]

/-- Settles O20: the read's operands are admitted still, for a field write changes no length. -/
theorem fieldRoundTrip : Obligations.FieldRoundTrip := by
  refine ⟨fun s b off w v _ _ _ => s.bitRead_bitWrite_same b off w v, ?_⟩
  intro s buf b off w val hbuf hlo hhi hfit
  have hwr := (bitIOCheck_ok_iff s).2 ⟨bufOf_eq_some hbuf, hlo, hhi, hfit⟩
  have hrd := (bitIOCheck_ok_iff ((s.bitWrite b off.toNat w.toNat val).complete 0)).2
    ⟨bufOf_eq_some hbuf, hlo, hhi, by simpa using hfit⟩
  refine ⟨_, _, exec_wrbits_of_ok hwr val, exec_rdbits_of_ok hrd, ?value, by simp⟩
  rw [State.complete_result, State.toNat_ofNat_bitRead _ _ _ hhi, State.bitRead_complete, State.bitRead_bitWrite_same]

/-- Settles O21: bit writes commute at two addresses, and a bit reads as the last write that reached it. -/
theorem fieldWritesCommute : Obligations.FieldWritesCommute := by
  intro s b off₁ w₁ off₂ w₂ v₁ v₂ _ _ _ _ _ _
  refine ⟨fun h => ⟨s.bitWrite_comm b h v₁ v₂, ?_, State.bitRead_bitWrite_same _ b off₂ w₂ v₂⟩, fun p => ?_⟩
  · rw [State.bitRead_bitWrite_of_disjoint _ b h, State.bitRead_bitWrite_same]
  · simp only [State.getBit_bitWrite, true_and]

/-- Settles O22: the touched bytes are the field's `w` bits with `k` before and `s` after them. -/
theorem bitAccessClosedForm : Obligations.BitAccessClosedForm := by
  intro s b off w v hlo hhi _ a k n m sh x
  have hoff : off = 8 * a + k := (Nat.div_add_mod off 8).symm
  have hbits : 8 * n = k + w + sh := by omega
  refine ⟨by omega, by omega, ?read, ?write, fun y hy => ?outside⟩
  case read =>
    rw [show x = _ from s.bigEndianNat_readBytes b a n, hbits, hoff]
    exact s.bitRead_eq_shiftRight_and b (8 * a) k w sh
  case write =>
    rw [show x = _ from s.bigEndianNat_readBytes b a n, State.bigEndianNat_readBytes, hbits, hoff]
    exact s.bitRead_bitWrite_inside b (8 * a) k w sh v
  case outside => exact s.readByte_bitWrite_of_outside b b off w y v (by omega)

end Sys2Proof.Machine

/-! The image embedder (spec/41_embed.md): the order of EMBED's checks, the pixels it stores, a second EMBED, and its block
write against the spec's loop of 17920 field writes, both regrouped into one loop over the 89600 bits of the image. -/

namespace Sys2Proof.Machine

section

variable (s : State)

/-! ### The checks -/

/-- A slot other than 1 and 2 is refused before anything else is looked at (41_embed R135). -/
theorem embedCheck_of_badSlot {sel : BitVec 8} (hsel : sel.toNat ≠ 1 ∧ sel.toNat ≠ 2) :
    embedCheck sel s = .error .badSlot := if_pos hsel

/-- Wrong dimensions are refused before the length is looked at (41_embed R135). -/
theorem embedCheck_of_badDims {sel : BitVec 8} (hsel : ¬ (sel.toNat ≠ 1 ∧ sel.toNat ≠ 2))
    (hdims : s.rw.toNat ≠ 160 ∨ s.rh.toNat ≠ 112) : embedCheck sel s = .error .badDims :=
  (if_neg hsel).trans (if_pos hdims)

/-- A raster of the right dimensions can still be too short (41_embed R135). -/
theorem embedCheck_of_short {sel : BitVec 8} (hsel : ¬ (sel.toNat ≠ 1 ∧ sel.toNat ≠ 2))
    (hdims : ¬ (s.rw.toNat ≠ 160 ∨ s.rh.toNat ≠ 112)) (hlen : s.rlen.toNat < 17920) :
    embedCheck sel s = .error .rasterShort :=
  (if_neg hsel).trans ((if_neg hdims).trans (if_pos hlen))

/-! ### The image -/

/-- A completed image write changes no register but RESULT and CMDCNT (41_embed R134; 10_state R26, R28). -/
theorem State.completedWith_embedImage_complete (slot : Nat) (d : Word32) :
    s.CompletedWith ((s.embedImage slot).complete d) d := by
  simp [State.CompletedWith, State.FaultRecordKept, State.LaunchKept, State.QueuesKept]

/-- The destination of a pixel as one sum (41_embed R131). -/
theorem pixelDst_eq (slot i j : Nat) : pixelDst slot i j = slot * 262144 + 34560 + 800 * i + 5 * j := by
  unfold pixelDst Config.slotStride Config.hdrSkip Config.imgW Config.bpp
  omega

/-- The destination of a pixel counted from the image's first bit: the fields lie row-major with no gap (41_embed R136). -/
theorem pixelDst_eq_image_bit (slot i j : Nat) : pixelDst slot i j = 8 * imageBase slot + (i * 160 + j) * 5 := by
  rw [pixelDst_eq, imageBase, Config.slotStride, Config.hdrSkip]
  omega

variable {s} in
/-- EMBED leaves the premises of an EMBED as they were (70_reset R214). -/
theorem State.RasterOK.embedImage_complete (h : s.RasterOK) (slot : Nat) (d : Word32) :
    ((s.embedImage slot).complete d).RasterOK := by
  simpa [State.RasterOK] using h

variable {s} in
/-- After an EMBED the raster still spells the same image (41_embed R139). -/
theorem State.RasterOK.imageBytes_embedImage (h : s.RasterOK) (slot : Nat) (d : Word32) :
    ((s.embedImage slot).complete d).imageBytes = s.imageBytes := by
  obtain ⟨-, -, hlen⟩ := h
  refine State.imageBytes_congr (by simp) hlen fun a _ _ => ?_
  rw [State.readByte_complete, s.readByte_embedImage_of_outside slot .raster a (.inl (by decide))]

/-- One image written twice reads as written once (41_embed R139). -/
theorem State.bufferKept_embedImage_again {t : State} {slot : Nat} (hsave : (s.embedImage slot).BufferKept t .save)
    (himage : t.imageBytes = s.imageBytes) : t.BufferKept (t.embedImage slot) .save := by
  intro x
  rw [hsave x, State.embedImage, State.embedImage, himage, State.readByte_writeBytes, State.readByte_writeBytes]
  split_ifs with hin
  · rfl
  · rw [hsave x, State.embedImage, State.readByte_writeBytes, dif_neg hin]

/-! ### Loops regrouped -/

/-- A loop over `m * n` indices is a loop over `m` groups of `n`. -/
theorem foldl_range_mul {σ : Type} (f : σ → Nat → σ) (x : σ) (m n : Nat) :
    (List.range (m * n)).foldl f x =
      (List.range m).foldl (fun y i => (List.range n).foldl (fun z j => f z (i * n + j)) y) x := by
  induction m with
  | zero => simp
  | succ m ih =>
    rw [Nat.succ_mul, List.range_add, List.foldl_append, ih, List.foldl_map, List.range_succ, List.foldl_append,
      List.foldl_cons, List.foldl_nil]

/-- Two loops whose bodies agree wherever an invariant holds that the body keeps run alike, and the invariant holds at
their end. -/
theorem foldl_congr_of_invariant {σ α : Type} {P : σ → Prop} {f g : σ → α → σ} {l : List α}
    (h : ∀ y, P y → ∀ a ∈ l, f y a = g y a ∧ P (g y a)) {x : σ} (hx : P x) :
    l.foldl f x = l.foldl g x ∧ P (l.foldl g x) := by
  induction l generalizing x with
  | nil => exact ⟨rfl, hx⟩
  | cons a l ih =>
    obtain ⟨heq, hP⟩ := h x hx a List.mem_cons_self
    rw [List.foldl_cons, List.foldl_cons, heq]
    exact ih (fun y hy b hb => h y hy b (List.mem_cons_of_mem _ hb)) hP

/-! ### Eight bit writes are a byte write -/

/-- A field write inside one byte is the write of that byte, whatever it comes to hold (40_bitio R113). -/
theorem State.bitWrite_eq_writeByte (b : Buf) {a k w : Nat} (hw : 0 < w) (hfit : k + w ≤ 8) (v : Word32) :
    ∃ x, s.bitWrite b (8 * a + k) w v = s.writeByte b a x := by
  unfold State.bitWrite
  suffices ∀ n, 0 < n → k + n ≤ 8 → ∃ x,
      (List.range n).foldl (fun t i => t.setBit b (8 * a + k + i) (v.getLsbD (w - 1 - i))) s = s.writeByte b a x from
    this w hw hfit
  intro n hn hfit
  induction n, hn using Nat.le_induction with
  | base =>
    rw [List.range_one, List.foldl_cons, List.foldl_nil, State.setBit, show (8 * a + k + 0) / 8 = a by omega]
    exact ⟨_, rfl⟩
  | succ n _ ih =>
    obtain ⟨x, hx⟩ := ih (by omega)
    rw [List.range_succ, List.foldl_append, hx, List.foldl_cons, List.foldl_nil, State.setBit,
      show (8 * a + k + n) / 8 = a by omega, State.writeByte_writeByte_same]
    exact ⟨_, rfl⟩

/-- A field write of one whole byte is the byte write (20_memory R52). -/
theorem State.bitWrite_byte (b : Buf) (a : Nat) (v : Byte) :
    s.bitWrite b (8 * a) 8 (v.setWidth 32) = s.writeByte b a v := by
  obtain ⟨x, hx⟩ := s.bitWrite_eq_writeByte b (a := a) (k := 0) (w := 8) (by decide) (by decide) (v.setWidth 32)
  rw [Nat.add_zero] at hx
  have hread : (s.bitWrite b (8 * a) 8 (v.setWidth 32)).readByte b a = v := by
    refine BitVec.eq_of_toNat_eq ?_
    rw [← State.bitRead_byte, State.bitRead_bitWrite_same, Nat.and_two_pow_sub_one_eq_mod, BitVec.toNat_setWidth]
    omega
  rw [hx, State.readByte_writeByte, if_pos ⟨rfl, rfl⟩] at hread
  rw [hx, hread]

/-! ### A block write is its byte writes -/

/-- A block write that is one byte longer is one byte write more; only in canonical form are the two lists equal. -/
theorem Memory.splice_append_singleton {m : Memory} (hm : Memory.wf m) (a : Nat) (vs : List Byte) (v : Byte) :
    Memory.splice m a (vs ++ [v]) = Memory.write (Memory.splice m a vs) (a + vs.length) v := by
  refine Memory.ext (Memory.wf_splice hm _ _) (Memory.wf_write (Memory.wf_splice hm _ _) _ _) fun x => ?_
  rw [Memory.lookup_write, Memory.lookup_splice, Memory.lookup_splice]
  by_cases hx : x = a + vs.length
  · subst hx
    simp
  · rw [if_neg hx]
    by_cases hin : a ≤ x ∧ x - a < vs.length
    · have hlt : x - a < (vs ++ [v]).length := by
        rw [List.length_append]
        omega
      rw [dif_pos hin, dif_pos ⟨hin.1, hlt⟩, List.getElem_append_left hin.2]
    · rw [dif_neg hin, dif_neg]
      rw [List.length_append, List.length_singleton]
      omega

variable {s} in
/-- A block write is the loop of its byte writes (41_embed R139). -/
theorem State.writeBytes_eq_foldl {b : Buf} (h : Memory.wf (s.mem b)) (a : Nat) (vs : List Byte) :
    s.writeBytes b a vs = (List.range vs.length).foldl (fun t k => t.writeByte b (a + k) (vs.getD k 0)) s := by
  induction vs using List.reverseRecOn with
  | nil =>
    have hnil : Memory.splice (s.mem b) a [] = s.mem b :=
      Memory.ext (Memory.wf_splice h _ _) h fun x => by simp [Memory.lookup_splice]
    rw [State.writeBytes, hnil, State.setMem_self]
    rfl
  | append_singleton vs v ih =>
    have hbody : ∀ t : State, ∀ k ∈ List.range vs.length,
        t.writeByte b (a + k) ((vs ++ [v]).getD k 0) = t.writeByte b (a + k) (vs.getD k 0) := by
      intro t k hk
      rw [List.getD_append _ _ _ _ (List.mem_range.1 hk)]
    rw [List.length_append, List.length_singleton, List.range_succ, List.foldl_append, List.foldl_ext _ _ _ hbody, ← ih,
      List.foldl_cons, List.foldl_nil, State.writeBytes, Memory.splice_append_singleton h, State.writeByte,
      State.writeBytes, State.setMem_mem, State.setMem_setMem]
    simp

/-! ### The image bit by bit -/

/-- The image of `s` written to slot `slot` of `t`, one bit after the other, with the bit addresses `l` counted from the
image's first bit. -/
def State.writeImageBits (s : State) (slot : Nat) (l : List Nat) (t : State) : State :=
  l.foldl (fun u q => u.setBit .save (8 * imageBase slot + q) (s.imageBit q)) t

/-- A field write of the image's bits at a run of bit addresses is the bit loop over that run. -/
theorem State.bitWrite_eq_writeImageBits (slot : Nat) {p w : Nat} {v : Word32}
    (hv : ∀ k, k < w → v.getLsbD (w - 1 - k) = s.imageBit (p + k)) (t : State) :
    t.bitWrite .save (8 * imageBase slot + p) w v = s.writeImageBits slot ((List.range w).map (p + ·)) t := by
  rw [State.bitWrite, State.writeImageBits, List.foldl_map]
  refine List.foldl_ext _ _ _ fun u k hk => ?_
  rw [hv k (List.mem_range.1 hk), Nat.add_assoc]

/-- The bit loop over the whole image in `m` groups of `n` bits. -/
theorem State.writeImageBits_range_mul (slot m n : Nat) (t : State) :
    s.writeImageBits slot (List.range (m * n)) t =
      (List.range m).foldl (fun u i => s.writeImageBits slot ((List.range n).map (i * n + ·)) u) t := by
  simp only [State.writeImageBits, foldl_range_mul, List.foldl_map]

/-- Bit `7 - k` of image byte `n` is image bit `8 * n + k` (41_embed R136). -/
theorem State.getLsbD_imageBytes_getD {n k : Nat} (hn : n < 11200) (hk : k < 8) :
    (s.imageBytes.getD n 0).getLsbD (7 - k) = s.imageBit (n * 8 + k) := by
  have hlen : n < s.imageBytes.length := by rwa [s.length_imageBytes]
  have hbyte : (n * 8 + k) / 8 = n := by omega
  have hbits := s.imageBytes_getLsbD (n * 8 + k) (by omega) (by rwa [hbyte])
  simp only [hbyte, show (n * 8 + k) % 8 = k by omega] at hbits
  rw [List.getD_eq_getElem _ _ hlen, hbits]

variable {s} in
/-- EMBED's block write is the bit loop, eight bits to a byte (41_embed R136, notes/assumptions/10.md). -/
theorem State.embedImage_eq_writeImageBits (h : Memory.wf s.save) (slot : Nat) :
    s.embedImage slot = s.writeImageBits slot (List.range (11200 * 8)) s := by
  rw [State.embedImage, State.writeBytes_eq_foldl (b := .save) h, s.length_imageBytes, s.writeImageBits_range_mul]
  refine List.foldl_ext _ _ _ fun t n hn => ?_
  have hn := List.mem_range.1 hn
  rw [← State.bitWrite_byte, Nat.mul_add, Nat.mul_comm 8 n]
  refine s.bitWrite_eq_writeImageBits slot (fun k hk => ?_) t
  rw [← s.getLsbD_imageBytes_getD hn hk, BitVec.getLsbD_setWidth, decide_eq_true (by omega), Bool.true_and]

/-! ### The pixel loop bit by bit -/

/-- What the pixel loop reads is as in `s`: the raster and its length (41_embed R132). -/
def State.RasterKept (s t : State) : Prop := t.raster = s.raster ∧ t.rlen = s.rlen

variable {s} in
theorem State.RasterKept.bitWrite_save {t : State} (h : s.RasterKept t) (off w : Nat) (v : Word32) :
    s.RasterKept (t.bitWrite .save off w v) := by
  simpa [State.RasterKept] using h

variable {s} in
theorem State.RasterKept.readByte {t : State} (h : s.RasterKept t) (a : Nat) :
    t.readByte .raster a = s.readByte .raster a :=
  congrArg (Memory.read .raster · a) h.1

/-- The five bits of pixel (i, j) are image bits from `5 * (160 * i + j)` on (41_embed R133, R136). -/
theorem State.imageBit_pixel (i : Nat) {j k : Nat} (hj : j < 160) (hk : k < 5) :
    s.imageBit ((i * 160 + j) * 5 + k) = (pixelValue (s.readByte .raster (pixelSrc s.rlen.toNat i j))).getLsbD (4 - k) := by
  rw [State.imageBit, show ((i * 160 + j) * 5 + k) / 5 = i * 160 + j by omega, show (i * 160 + j) / 160 = i by omega,
    show (i * 160 + j) % 160 = j by omega, show ((i * 160 + j) * 5 + k) % 5 = k by omega]

variable {s} in
/-- One pass of the pixel loop's body is the bit loop over the five bits of its field (41_embed R134). -/
theorem State.RasterKept.pixelWrite {t : State} (h : s.RasterKept t) (slot i : Nat) {j : Nat} (hj : j < 160) :
    t.bitWrite .save (slot * 262144 + 34560 + 800 * i + 5 * j) 5
        ((t.readByte .raster (t.rlen.toNat - (i + 1) * 160 + j) &&& 0x1F#8).setWidth 32) =
      s.writeImageBits slot ((List.range 5).map ((i * 160 + j) * 5 + ·)) t := by
  rw [← pixelDst_eq, pixelDst_eq_image_bit, h.readByte, h.2]
  refine s.bitWrite_eq_writeImageBits slot (fun k hk => ?_) t
  rw [s.imageBit_pixel i hj hk, BitVec.getLsbD_setWidth, decide_eq_true (by omega), Bool.true_and]
  rfl

/-- The pixel loop is the bit loop, five bits to a pixel and 160 pixels to a row (41_embed R134, R136). -/
theorem State.pixelLoop_eq_writeImageBits (slot : Nat) :
    s.pixelLoop slot = s.writeImageBits slot (List.range (112 * 160 * 5)) s := by
  rw [s.writeImageBits_range_mul, foldl_range_mul]
  refine (foldl_congr_of_invariant (P := s.RasterKept) (fun t ht i _ => ?_) ⟨rfl, rfl⟩).1
  refine foldl_congr_of_invariant (P := s.RasterKept) (fun u hu j hj => ?_) ht
  have hbody := hu.pixelWrite slot i (List.mem_range.1 hj)
  exact ⟨hbody, hbody ▸ hu.bitWrite_save _ _ _⟩

end

/-! ### The statements -/

/-- Settles O24: the check that fails first names the fault, and a fault's entry writes no buffer. -/
theorem embedChecksInOrder : Obligations.EmbedChecksInOrder := by
  refine fun s sel => ⟨?_, s.raise_mem⟩
  split_ifs with hsel hdims hlen
  · exact execEmbed_of_error s (embedCheck_of_badSlot s hsel)
  · exact execEmbed_of_error s (embedCheck_of_badDims s hsel hdims)
  · exact execEmbed_of_error s (embedCheck_of_short s hsel hdims hlen)
  · have hok := (embedCheck_ok_iff s (sel := sel)).2 ⟨rfl, by omega, by omega, by omega, by omega⟩
    exact ⟨_, execEmbed_of_ok s hok, s.completedWith_embedImage_complete _ 0⟩

/-- Settles O25: the fields of the image and the frame of its block write. -/
theorem embedStoresEveryPixel : Obligations.EmbedStoresEveryPixel := by
  intro s sel hsel hok
  refine ⟨_, exec_embed_of_rasterOK s hsel hok, s.completedWith_embedImage_complete _ 0, by simp, by simp,
    fun i j hi hj => ?pixel, fun a ha => ?frame⟩
  case pixel =>
    rw [← pixelDst_eq, State.bitRead_complete, s.bitRead_embedImage _ hi hj]
    rfl
  case frame => rw [State.readByte_complete, s.readByte_embedImage_of_outside _ .save a (.inr ha)]

/-- Settles O27: the second EMBED passes the checks the first passed and writes the image the first wrote. -/
theorem embedTwiceIsEmbedOnce : Obligations.EmbedTwiceIsEmbedOnce := by
  intro s sel hsel hok
  have hok' := hok.embedImage_complete sel.toNat 0
  refine ⟨_, _, exec_embed_of_rasterOK s hsel hok, exec_embed_of_rasterOK _ hsel hok', fun x => ?save, fun x => ?raster,
    by simp [BitVec.add_assoc]⟩
  case save =>
    rw [State.readByte_complete]
    exact s.bufferKept_embedImage_again (State.readByte_complete _ 0 .save) (hok.imageBytes_embedImage _ 0) x
  case raster => rw [State.readByte_complete, State.readByte_embedImage_of_outside _ _ .raster x (.inl (by decide))]

/-- Settles O26: both sides are the loop over the bits of the image, grouped by bytes and grouped by pixels. -/
theorem embedIsThePixelLoop : Obligations.EmbedIsThePixelLoop := by
  intro s sel hsel hok hwf
  have himage : s.embedImage sel.toNat = s.pixelLoop sel.toNat :=
    calc s.embedImage sel.toNat
      _ = s.writeImageBits sel.toNat (List.range (11200 * 8)) s := State.embedImage_eq_writeImageBits hwf _
      _ = s.writeImageBits sel.toNat (List.range (112 * 160 * 5)) s := by rw [show 11200 * 8 = 112 * 160 * 5 by decide]
      _ = s.pixelLoop sel.toNat := (s.pixelLoop_eq_writeImageBits _).symm
  rw [exec_embed_of_rasterOK s hsel hok, himage]

end Sys2Proof.Machine

/-! The checksums (spec/42_checksum.md): the sum as a sum of numbers, what states alike on a region agree on, repairs in any
order, a pass of repairs byte by byte, and CKFIX and CKFIXALL against each other. -/

namespace Sys2Proof.Machine

section

variable (s : State)

/-! ### The sum as a number -/

/-- The offsets of a region without those of its field (42_checksum R151). -/
theorem filter_range_ne_field (n : Nat) :
    (List.range (Config.ckOff + (2 + n))).filter (fun k => k ≠ 0x100A ∧ k ≠ 0x100B) =
      List.range Config.ckOff ++ (List.range n).map (fun k => Config.ckOff + (2 + k)) := by
  have before : (List.range Config.ckOff).filter (fun k => k ≠ 0x100A ∧ k ≠ 0x100B) = List.range Config.ckOff := by
    refine List.filter_eq_self.2 fun k hk => ?_
    have : k < 0x100A := List.mem_range.1 hk
    simp only [decide_eq_true_eq]
    omega
  have field : ((List.range 2).map (Config.ckOff + ·)).filter (fun k => k ≠ 0x100A ∧ k ≠ 0x100B) = [] := by
    decide
  have after : ((List.range n).map (fun k => Config.ckOff + (2 + k))).filter (fun k => k ≠ 0x100A ∧ k ≠ 0x100B) =
      (List.range n).map (fun k => Config.ckOff + (2 + k)) := by
    refine List.filter_eq_self.2 fun k hk => ?_
    obtain ⟨j, -, rfl⟩ := List.mem_map.1 hk
    simp only [decide_eq_true_eq, Config.ckOff]
    omega
  rw [List.range_add, List.range_add, List.map_append, List.map_map, List.filter_append, List.filter_append, before,
    field, List.nil_append]
  exact congrArg _ after

/-- SUM16 AS A NUMBER: the bytes of the region but the field's, the sum reduced once (42_checksum R154, R163). -/
theorem State.toNat_sum16 (r : Fin 8) :
    (s.sum16 r).toNat =
      (((List.range (Config.region r).len).filter (fun k => k ≠ 0x100A ∧ k ≠ 0x100B)).map
        (fun k => (s.readByte .save ((Config.region r).start + k)).toNat)).sum % 65536 := by
  obtain ⟨n, hn⟩ : ∃ n, (Config.region r).len = Config.ckOff + (2 + n) := by
    have layout := region_layout r
    unfold fieldAddr at layout
    exact ⟨(Config.region r).len - (Config.ckOff + 2), by omega⟩
  rw [s.sum16_eq_around_field, hn, filter_range_ne_field, BitVec.toNat_add, sumBytes_toNat, sumBytes_toNat,
    s.readBytes_eq_map, s.readBytes_eq_map, List.map_append, List.sum_append, ← Nat.add_mod, List.map_map, List.map_map,
    List.map_map, show Config.ckOff + (2 + n) - (Config.ckOff + 2) = n by omega]
  simp only [Function.comp_def, fieldAddr, Nat.add_assoc]

/-! ### What states alike on a region agree on -/

variable {s} in
/-- A region's signature test, stored field and sum read nothing but its own bytes and SIG (42_checksum R161). -/
theorem State.alike_on_region {t : State} {r : Fin 8} (hsig : t.sig = s.sig)
    (h : ∀ a, (Config.region r).start ≤ a → a < (Config.region r).start + (Config.region r).len →
      t.readByte .save a = s.readByte .save a) :
    t.hasSig r = s.hasSig r ∧ t.stored r = s.stored r ∧ t.sum16 r = s.sum16 r := by
  have layout := region_layout r
  have high := h (fieldAddr r) (by omega) (by omega)
  have low := h (fieldAddr r + 1) (by omega) (by omega)
  exact ⟨s.hasSig_congr hsig fun x _ _ => h x (by omega) (by omega), s.stored_congr high low, s.sum16_congr h high low⟩

/-- A repair leaves what is computed of another region as it was (42_checksum R161). -/
theorem State.alike_repairRegion_of_ne {r q : Fin 8} (hne : q ≠ r) :
    (s.repairRegion r).hasSig q = s.hasSig q ∧ (s.repairRegion r).stored q = s.stored q ∧
      (s.repairRegion r).sum16 q = s.sum16 q :=
  State.alike_on_region (s.repairRegion_sig r) fun _ => s.readByte_repairRegion_of_ne hne

/-- A repair stays inside its region (42_checksum R157). -/
theorem State.readByte_repairRegion_outside_region (r : Fin 8) {a : Nat}
    (ha : a < (Config.region r).start ∨ (Config.region r).start + (Config.region r).len ≤ a) :
    (s.repairRegion r).readByte .save a = s.readByte .save a := by
  have layout := region_layout r
  exact s.readByte_repairRegion_of_outside r .save a (by omega)

theorem State.needsRepair_of_unsigned {r : Fin 8} (h : s.hasSig r = false) : s.needsRepair r = false := by
  rw [State.needsRepair, h, Bool.false_and]

/-! ### Repairs in any order -/

theorem State.repairRegion_of_needsRepair {r : Fin 8} (h : s.needsRepair r = true) :
    s.repairRegion r = s.writeField16 (fieldAddr r) (s.sum16 r) := by
  rw [State.repairRegion, if_pos h]

/-- Writes of two fields that share no byte commute. -/
theorem State.writeField16_comm {a b : Nat} (h : a + 2 ≤ b ∨ b + 2 ≤ a) (u v : BitVec 16) :
    (s.writeField16 a u).writeField16 b v = (s.writeField16 b v).writeField16 a u := by
  unfold State.writeField16
  rw [State.writeByte_comm _ .save (a := a + 1) (x := b) (by omega),
    State.writeByte_comm _ .save (a := a) (x := b) (by omega),
    State.writeByte_comm _ .save (a := a + 1) (x := b + 1) (by omega),
    State.writeByte_comm _ .save (a := a) (x := b + 1) (by omega)]

/-- The fields of two regions share no byte (42_checksum R150, R151). -/
theorem fieldAddr_apart {r q : Fin 8} (hne : q ≠ r) :
    fieldAddr r + 2 ≤ fieldAddr q ∨ fieldAddr q + 2 ≤ fieldAddr r := by
  have layoutR := region_layout r
  have layoutQ := region_layout q
  rcases lt_or_gt_of_ne hne with hlt | hgt
  · have := region_disjoint q r hlt
    omega
  · have := region_disjoint r q hgt
    omega

/-- REPAIRS COMMUTE, as data (42_checksum R161). -/
theorem State.repairRegion_comm (r q : Fin 8) :
    (s.repairRegion r).repairRegion q = (s.repairRegion q).repairRegion r := by
  by_cases hne : q = r
  · rw [hne]
  have keepQ := s.needsRepair_repairRegion_of_ne hne
  have keepR := s.needsRepair_repairRegion_of_ne (Ne.symm hne)
  obtain ⟨-, -, sumQ⟩ := s.alike_repairRegion_of_ne hne
  obtain ⟨-, -, sumR⟩ := s.alike_repairRegion_of_ne (Ne.symm hne)
  cases hr : s.needsRepair r with
  | false => rw [s.repairRegion_of_not hr, State.repairRegion_of_not _ (keepR.trans hr)]
  | true =>
    cases hq : s.needsRepair q with
    | false => rw [s.repairRegion_of_not hq, State.repairRegion_of_not _ (keepQ.trans hq)]
    | true =>
      rw [State.repairRegion_of_needsRepair _ (keepQ.trans hq), State.repairRegion_of_needsRepair _ (keepR.trans hr),
        sumQ, sumR, s.repairRegion_of_needsRepair hr, s.repairRegion_of_needsRepair hq,
        s.writeField16_comm (fieldAddr_apart hne)]

/-- The state after a pass does not depend on the mask it began with. -/
theorem State.repairAll_fst (m : BitVec 8) (rs : List (Fin 8)) : (s.repairAll m rs).1 = rs.foldl State.repairRegion s := by
  induction rs generalizing s m with
  | nil => rfl
  | cons r rs ih => rw [State.repairAll, ih, List.foldl_cons]

/-- The mask a pass begins with is kept beside the bits the pass sets. -/
theorem State.repairAll_snd (m : BitVec 8) (rs : List (Fin 8)) :
    (s.repairAll m rs).2 = m ||| (s.repairAll 0 rs).2 := by
  induction rs generalizing s m with
  | nil => simp [State.repairAll]
  | cons r rs ih =>
    rw [State.repairAll, State.repairAll, ih _ (m ||| _), ih _ (0 ||| _), ← BitVec.or_assoc, ← BitVec.or_assoc]
    simp

/-- The order of a pass cannot be seen, in the state or in the mask (42_checksum R161). -/
theorem State.repairAll_perm (m : BitVec 8) {rs qs : List (Fin 8)} (h : rs.Perm qs) (hqs : qs.Nodup) :
    s.repairAll m rs = s.repairAll m qs := by
  refine Prod.ext ?state (BitVec.eq_of_getLsbD_eq fun i hi => ?mask)
  case state =>
    rw [s.repairAll_fst, s.repairAll_fst]
    exact h.foldl_eq' (fun r _ q _ t => t.repairRegion_comm r q) s
  case mask =>
    rw [s.getLsbD_repairAll_mask m (h.nodup_iff.2 hqs) ⟨i, hi⟩, s.getLsbD_repairAll_mask m hqs ⟨i, hi⟩]
    simp only [h.mem_iff]

/-! ### A pass byte by byte -/

/-- A pass changes no byte of a region outside its list (42_checksum R161). -/
theorem State.readByte_repairAll_of_not_mem (m : BitVec 8) {rs : List (Fin 8)} {q : Fin 8} (hq : q ∉ rs) {x : Nat}
    (hlo : (Config.region q).start ≤ x) (hhi : x < (Config.region q).start + (Config.region q).len) :
    (s.repairAll m rs).1.readByte .save x = s.readByte .save x := by
  induction rs generalizing s m with
  | nil => rfl
  | cons r rs ih =>
    obtain ⟨hr, hrest⟩ := not_or.1 (mt List.mem_cons.2 hq)
    rw [State.repairAll, ih _ _ hrest, s.readByte_repairRegion_of_ne hr hlo hhi]

/-- A pass does to a region of its list what that region's own repair does (42_checksum R160, R161). -/
theorem State.readByte_repairAll_of_mem (m : BitVec 8) {rs : List (Fin 8)} (hrs : rs.Nodup) {q : Fin 8} (hq : q ∈ rs)
    {x : Nat} (hlo : (Config.region q).start ≤ x) (hhi : x < (Config.region q).start + (Config.region q).len) :
    (s.repairAll m rs).1.readByte .save x = (s.repairRegion q).readByte .save x := by
  induction rs generalizing s m with
  | nil => cases hq
  | cons r rs ih =>
    obtain ⟨hr, hrest⟩ := List.nodup_cons.1 hrs
    rw [State.repairAll]
    by_cases hqr : q = r
    · subst hqr
      exact State.readByte_repairAll_of_not_mem _ _ hr hlo hhi
    · rw [ih _ _ hrest ((List.mem_cons.1 hq).resolve_left hqr), State.repairRegion_comm,
        State.readByte_repairRegion_of_ne _ hqr hlo hhi]

/-- A pass writes the fields that are wrong before it and nothing else (42_checksum R158, R160). -/
theorem State.readByte_repairAll_of_not_wrong_field (m : BitVec 8) (rs : List (Fin 8)) {x : Nat}
    (hx : ∀ r, s.needsRepair r = true → x ≠ fieldAddr r ∧ x ≠ fieldAddr r + 1) :
    (s.repairAll m rs).1.readByte .save x = s.readByte .save x := by
  induction rs generalizing s m with
  | nil => rfl
  | cons r rs ih =>
    have wrong : ∀ q, (s.repairRegion r).needsRepair q = true → s.needsRepair q = true := fun q hq => by
      have := s.needsRepair_repairAll 0 [r] q
      exact (Bool.and_eq_true_iff.1 (this.symm.trans hq)).2
    rw [State.repairAll, ih _ _ fun q hq => hx q (wrong q hq)]
    cases hr : s.needsRepair r with
    | false => rw [s.repairRegion_of_not hr]
    | true =>
      obtain ⟨hhigh, hlow⟩ := hx r hr
      exact s.readByte_repairRegion_of_outside r .save x (by omega)

/-- No repair, its own included, changes a byte of an unsigned region (42_checksum R164). -/
theorem State.readByte_repairRegion_of_unsigned (r : Fin 8) {q : Fin 8} (hq : s.hasSig q = false) {x : Nat}
    (hlo : (Config.region q).start ≤ x) (hhi : x < (Config.region q).start + (Config.region q).len) :
    (s.repairRegion r).readByte .save x = s.readByte .save x := by
  by_cases hqr : q = r
  · rw [← hqr, s.repairRegion_of_not (s.needsRepair_of_unsigned hq)]
  · exact s.readByte_repairRegion_of_ne hqr hlo hhi

theorem State.readByte_repairAll_of_unsigned (m : BitVec 8) (rs : List (Fin 8)) {q : Fin 8} (hq : s.hasSig q = false)
    {x : Nat} (hlo : (Config.region q).start ≤ x) (hhi : x < (Config.region q).start + (Config.region q).len) :
    (s.repairAll m rs).1.readByte .save x = s.readByte .save x := by
  induction rs generalizing s m with
  | nil => rfl
  | cons r rs ih =>
    rw [State.repairAll, ih _ _ ((s.hasSig_repairRegion r q).trans hq), s.readByte_repairRegion_of_unsigned r hq hlo hhi]

/-- A pass over regions that need no repair does nothing (42_checksum R158, R162). -/
theorem State.repairAll_of_none_needed (m : BitVec 8) (rs : List (Fin 8)) (h : ∀ r, s.needsRepair r = false) :
    s.repairAll m rs = (s, m) := by
  induction rs with
  | nil => rfl
  | cons r rs ih =>
    rw [State.repairAll, s.repairRegion_of_not (h r), h r, show m ||| correctionBit r false = m from BitVec.or_zero, ih]

/-! ### The commands -/

theorem ckfixCheck_of_ge {sel : BitVec 8} (h : 8 ≤ sel.toNat) : ckfixCheck sel = .error .badRegion := by
  rw [ckfixCheck, dif_neg (by omega)]

/-- The state CKFIX of region `r` completes to (42_checksum R159). -/
def State.ckfixed (s : State) (r : Fin 8) : State :=
  ((s.repairRegion r).orFixlog (correctionBit r (s.needsRepair r))).complete
    ((correctionBit r (s.needsRepair r)).setWidth 32)

theorem exec_ckfix_of_region {sel : BitVec 8} {r : Fin 8} (h : sel.toNat = r.val) :
    exec (.ckfix sel) s = .next (s.ckfixed r) :=
  execCkfix_of_region s h

theorem exec_ckfix_cases {sel : BitVec 8} {t : State} (h : exec (.ckfix sel) s = .next t) :
    t = s.raise .badRegion (encode (.ckfix sel)) ∨ ∃ r, t = s.ckfixed r := by
  rcases execCkfix_cases s h with ⟨-, ht⟩ | ⟨r, -, ht⟩
  · exact .inl ht
  · exact .inr ⟨r, ht⟩

/-- The state CKFIXALL completes to (42_checksum R160). -/
def State.ckfixedAll (s : State) : State :=
  ((s.repairAll 0 Config.regionOrder).1.orFixlog (s.repairAll 0 Config.regionOrder).2).complete
    ((s.repairAll 0 Config.regionOrder).2.setWidth 32)

theorem exec_ckfixall : exec .ckfixall s = .next s.ckfixedAll := rfl

/-- The end of CKFIX and of CKFIXALL, FIXLOG and SAVE aside (42_checksum R159, R160). -/
theorem State.completedWith_repairAll (m n : BitVec 8) (rs : List (Fin 8)) (d : Word32) :
    s.CompletedWith (((s.repairAll m rs).1.orFixlog n).complete d) d := by
  simp [State.CompletedWith, State.FaultRecordKept, State.LaunchKept, State.QueuesKept]

theorem State.completedWith_ckfixed (r : Fin 8) :
    s.CompletedWith (s.ckfixed r) ((correctionBit r (s.needsRepair r)).setWidth 32) :=
  s.completedWith_repairAll 0 _ [r] _

theorem State.completedWith_ckfixedAll :
    s.CompletedWith s.ckfixedAll ((s.repairAll 0 Config.regionOrder).2.setWidth 32) :=
  s.completedWith_repairAll 0 _ Config.regionOrder _

@[simp] theorem State.ckfixed_save (r : Fin 8) : (s.ckfixed r).save = (s.repairRegion r).save := by
  simp [State.ckfixed]
@[simp] theorem State.ckfixed_raster (r : Fin 8) : (s.ckfixed r).raster = s.raster := by simp [State.ckfixed]
@[simp] theorem State.ckfixed_fixlog (r : Fin 8) :
    (s.ckfixed r).fixlog = s.fixlog ||| correctionBit r (s.needsRepair r) := by simp [State.ckfixed]
@[simp] theorem State.ckfixed_result (r : Fin 8) :
    (s.ckfixed r).result = (correctionBit r (s.needsRepair r)).setWidth 32 := by simp [State.ckfixed]
@[simp] theorem State.readByte_ckfixed (r : Fin 8) (x : Nat) :
    (s.ckfixed r).readByte .save x = (s.repairRegion r).readByte .save x := by simp [State.ckfixed]

@[simp] theorem State.ckfixedAll_save : s.ckfixedAll.save = (s.repairAll 0 Config.regionOrder).1.save := by
  simp [State.ckfixedAll]
@[simp] theorem State.ckfixedAll_raster : s.ckfixedAll.raster = s.raster := by simp [State.ckfixedAll]
@[simp] theorem State.ckfixedAll_fixlog :
    s.ckfixedAll.fixlog = s.fixlog ||| (s.repairAll 0 Config.regionOrder).2 := by simp [State.ckfixedAll]
@[simp] theorem State.ckfixedAll_result :
    s.ckfixedAll.result = (s.repairAll 0 Config.regionOrder).2.setWidth 32 := by simp [State.ckfixedAll]
@[simp] theorem State.readByte_ckfixedAll (x : Nat) :
    s.ckfixedAll.readByte .save x = (s.repairAll 0 Config.regionOrder).1.readByte .save x := by simp [State.ckfixedAll]

/-- No region needs repair after CKFIXALL (42_checksum R160, R162). -/
@[simp] theorem State.needsRepair_ckfixedAll (r : Fin 8) : s.ckfixedAll.needsRepair r = false := by
  simp [State.ckfixedAll, State.needsRepair_repairAll, mem_regionOrder]

theorem setWidth_correctionBit_true (r : Fin 8) : (correctionBit r true).setWidth 32 = 1#32 <<< r.val := by
  revert r; decide

/-! ### A run of CKFIX commands -/

/-- The end of a command does not matter to a repair, which reads SAVE and SIG (42_checksum R153 to R158). -/
theorem State.repairRegion_complete (d : Word32) (r : Fin 8) :
    (s.complete d).repairRegion r = (s.repairRegion r).complete d := by
  cases h : s.needsRepair r with
  | false => rw [s.repairRegion_of_not h, (s.complete d).repairRegion_of_not h]
  | true => rw [s.repairRegion_of_needsRepair h, (s.complete d).repairRegion_of_needsRepair h]; rfl

theorem State.repairRegion_orFixlog (m : BitVec 8) (r : Fin 8) :
    (s.orFixlog m).repairRegion r = (s.repairRegion r).orFixlog m := by
  cases h : s.needsRepair r with
  | false => rw [s.repairRegion_of_not h, (s.orFixlog m).repairRegion_of_not h]
  | true => rw [s.repairRegion_of_needsRepair h, (s.orFixlog m).repairRegion_of_needsRepair h]; rfl

theorem State.repairAll_complete (d : Word32) (m : BitVec 8) (rs : List (Fin 8)) :
    (s.complete d).repairAll m rs = ((s.repairAll m rs).1.complete d, (s.repairAll m rs).2) := by
  induction rs generalizing s m with
  | nil => rfl
  | cons r rs ih => rw [State.repairAll, s.repairRegion_complete, ih, State.repairAll, s.needsRepair_complete]

theorem State.repairAll_orFixlog (n m : BitVec 8) (rs : List (Fin 8)) :
    (s.orFixlog n).repairAll m rs = ((s.repairAll m rs).1.orFixlog n, (s.repairAll m rs).2) := by
  induction rs generalizing s m with
  | nil => rfl
  | cons r rs ih => rw [State.repairAll, s.repairRegion_orFixlog, ih, State.repairAll, s.needsRepair_orFixlog]

/-- A pass after CKFIX of region `r` is the rest of a pass that begins with `r`. -/
theorem State.repairAll_ckfixed (m : BitVec 8) (r : Fin 8) (rs : List (Fin 8)) :
    ((s.ckfixed r).repairAll (m ||| correctionBit r (s.needsRepair r)) rs).1.save = (s.repairAll m (r :: rs)).1.save ∧
      ((s.ckfixed r).repairAll (m ||| correctionBit r (s.needsRepair r)) rs).2 = (s.repairAll m (r :: rs)).2 := by
  rw [State.ckfixed, State.repairAll_complete, State.repairAll_orFixlog, State.repairAll]
  exact ⟨by simp, rfl⟩

/-- The CKFIX commands of a list of regions, in its order (42_checksum R160). -/
def ckfixRun (rs : List (Fin 8)) : List Instr := rs.map fun r => .ckfix (BitVec.ofNat 8 r.val)

/-- What the CKFIX commands of a list of regions answer, in order. -/
def State.ckfixAnswers (s : State) : List (Fin 8) → List Word32
  | [] => []
  | r :: rs => (correctionBit r (s.needsRepair r)).setWidth 32 :: (s.ckfixed r).ckfixAnswers rs

theorem State.execAll_ckfixRun (rs : List (Fin 8)) : execAll (ckfixRun rs) s = .next (rs.foldl State.ckfixed s) := by
  induction rs generalizing s with
  | nil => rfl
  | cons r rs ih =>
    have hsel : (BitVec.ofNat 8 r.val).toNat = r.val := by
      rw [BitVec.toNat_ofNat]
      omega
    exact (execAll_cons_of_next _ (exec_ckfix_of_region s hsel)).trans (ih _)

theorem State.foldl_ckfixed_save (m : BitVec 8) (rs : List (Fin 8)) :
    (rs.foldl State.ckfixed s).save = (s.repairAll m rs).1.save := by
  induction rs generalizing s m with
  | nil => rfl
  | cons r rs ih => rw [List.foldl_cons, ih, (s.repairAll_ckfixed m r rs).1]

/-- FIXLOG gathers the mask that a pass begun at FIXLOG gives (10_state R29). -/
theorem State.foldl_ckfixed_fixlog (rs : List (Fin 8)) :
    (rs.foldl State.ckfixed s).fixlog = (s.repairAll s.fixlog rs).2 := by
  induction rs generalizing s with
  | nil => rfl
  | cons r rs ih => rw [List.foldl_cons, ih, s.ckfixed_fixlog, (s.repairAll_ckfixed _ r rs).2]

theorem State.foldl_ckfixed_responses (rs : List (Fin 8)) :
    (rs.foldl State.ckfixed s).responses = s.responses ++ okResponses (s.ckfixAnswers rs) := by
  induction rs generalizing s with
  | nil => simp [okResponses, State.ckfixAnswers]
  | cons r rs ih =>
    obtain ⟨-, -, hresp, -⟩ := s.completedWith_ckfixed r
    rw [List.foldl_cons, ih, hresp, List.append_assoc]
    rfl

theorem State.foldl_ckfixed_cmdcnt (rs : List (Fin 8)) :
    (rs.foldl State.ckfixed s).cmdcnt = s.cmdcnt + BitVec.ofNat 32 rs.length := by
  induction rs generalizing s with
  | nil => simp
  | cons r rs ih =>
    obtain ⟨-, hcnt, -⟩ := s.completedWith_ckfixed r
    rw [List.foldl_cons, ih, hcnt, List.length_cons, Nat.add_comm, BitVec.ofNat_add, BitVec.add_assoc]
    rfl

@[simp] theorem State.length_ckfixAnswers (rs : List (Fin 8)) : (s.ckfixAnswers rs).length = rs.length := by
  induction rs generalizing s with
  | nil => rfl
  | cons r rs ih => rw [State.ckfixAnswers, List.length_cons, ih, List.length_cons]

/-- The answers of the commands, put together, are the mask of one pass (42_checksum R160, R165). -/
theorem State.foldl_or_ckfixAnswers (m : BitVec 8) (rs : List (Fin 8)) :
    (s.ckfixAnswers rs).foldl (fun m d => m ||| d) (m.setWidth 32) = (s.repairAll m rs).2.setWidth 32 := by
  induction rs generalizing s m with
  | nil => rfl
  | cons r rs ih =>
    rw [State.ckfixAnswers, List.foldl_cons, ← BitVec.setWidth_or, ih, (s.repairAll_ckfixed m r rs).2]

end

/-! ### The statements -/

/-- Settles O31: the number Sum16 stands for names the bytes it adds. -/
theorem computedSumLeavesOutTheField : Obligations.ComputedSumLeavesOutTheField := by
  refine ⟨State.toNat_sum16, fun s t r h => BitVec.eq_of_toNat_eq ?_⟩
  rw [s.toNat_sum16, t.toNat_sum16]
  congr 2
  refine List.map_congr_left fun k hk => ?_
  obtain ⟨hlen, hfield⟩ := List.mem_filter.1 hk
  obtain ⟨hhigh, hlow⟩ := of_decide_eq_true hfield
  rw [h k (List.mem_range.1 hlen) hhigh hlow]

/-- Settles O32: the two cases are those of `needsRepair`. -/
theorem ckfixRepairsItsRegion : Obligations.CkfixRepairsItsRegion := by
  intro s sel r hsel
  refine ⟨_, exec_ckfix_of_region s hsel, s.ckfixed_raster r, ?_⟩
  have done := s.completedWith_ckfixed r
  split_ifs with hwrong
  · have hr := (s.needsRepair_iff r).2 hwrong
    rw [hr, setWidth_correctionBit_true] at done
    refine ⟨done, ?fixlog, ?high, ?low, fun a hhigh hlow => ?frame⟩
    case fixlog => rw [s.ckfixed_fixlog, hr]; rfl
    case high => rw [s.readByte_ckfixed, s.readByte_repairRegion, if_pos ⟨hr, rfl, rfl⟩]
    case low => rw [s.readByte_ckfixed, s.readByte_repairRegion, if_neg (by omega), if_pos ⟨hr, rfl, rfl⟩]
    case frame => rw [s.readByte_ckfixed, s.readByte_repairRegion_of_outside r .save a (by omega)]
  · have hr := Bool.eq_false_of_not_eq_true (mt (s.needsRepair_iff r).1 hwrong)
    rw [hr] at done
    refine ⟨done, ?fixlog, ?save⟩
    case fixlog => rw [s.ckfixed_fixlog, hr]; exact BitVec.or_zero
    case save => rw [s.ckfixed_save, s.repairRegion_of_not hr]

/-- Settles O34: the mask bit by bit, and the pass byte by byte, inside a wrong field and outside all of them. -/
theorem ckfixallRepairsEveryRegion : Obligations.CkfixallRepairsEveryRegion := by
  intro s
  refine ⟨_, exec_ckfixall s, s.completedWith_ckfixedAll, s.ckfixedAll_raster, fun r => ?mask, toNat_setWidth_mask_lt _,
    by simp, fun r hsig hwrong => ?field, fun a ha => ?frame⟩
  case mask => rw [s.ckfixedAll_result, s.getLsbD_ckfixall_mask, s.needsRepair_iff]
  case field =>
    have layout := region_layout r
    have hr := (s.needsRepair_iff r).2 ⟨hsig, hwrong⟩
    have own : ∀ x, (Config.region r).start ≤ x → x < (Config.region r).start + (Config.region r).len →
        s.ckfixedAll.readByte .save x = (s.repairRegion r).readByte .save x := fun x hlo hhi => by
      rw [s.readByte_ckfixedAll, s.readByte_repairAll_of_mem 0 (by decide) (mem_regionOrder r) hlo hhi]
    rw [own _ (by omega) (by omega), own _ (by omega) (by omega)]
    simp [s.readByte_repairRegion, hr]
  case frame =>
    rw [s.readByte_ckfixedAll, s.readByte_repairAll_of_not_wrong_field]
    intro r hr
    obtain ⟨hsig, hwrong⟩ := (s.needsRepair_iff r).1 hr
    exact ha r hsig hwrong

/-- Settles O35: a run of CKFIX commands over the regions in order against one pass over them. -/
theorem ckfixallIsEightCkfix : Obligations.CkfixallIsEightCkfix := by
  intro s
  have hrun : execAll [.ckfix 0, .ckfix 1, .ckfix 2, .ckfix 3, .ckfix 4, .ckfix 5, .ckfix 6, .ckfix 7] s =
      .next (Config.regionOrder.foldl State.ckfixed s) := s.execAll_ckfixRun Config.regionOrder
  obtain ⟨-, hcount, -⟩ := s.completedWith_ckfixedAll
  refine ⟨_, _, s.ckfixAnswers Config.regionOrder, exec_ckfixall s, hrun, ?save, ?fixlog, s.length_ckfixAnswers _,
    s.foldl_ckfixed_responses _, ?mask, s.foldl_ckfixed_cmdcnt _, hcount⟩
  case save => rw [s.ckfixedAll_save, s.foldl_ckfixed_save 0]
  case fixlog => rw [s.ckfixedAll_fixlog, s.foldl_ckfixed_fixlog, s.repairAll_snd s.fixlog]
  case mask => exact s.foldl_or_ckfixAnswers 0 Config.regionOrder

/-- Settles O36: a repair reads and writes its own region, so repairs commute. -/
theorem repairsAreIndependent : Obligations.RepairsAreIndependent := by
  refine ⟨fun s t r hsig h => ?_, fun s r _ => s.readByte_repairRegion_outside_region r,
    fun s _ _ => s.alike_repairRegion_of_ne, fun s order h => s.repairAll_perm 0 h (by decide)⟩
  obtain ⟨hasSig, stored, sum⟩ := State.alike_on_region hsig h
  exact ⟨by rw [State.needsRepair, hasSig, stored, sum, State.needsRepair], sum⟩

/-- Settles O37: a repaired region needs no repair, and the repair changed neither its signature nor its sum. -/
theorem repairIsIdempotent : Obligations.RepairIsIdempotent := by
  intro s r
  have fine := s.needsRepair_repairRegion_self r
  refine ⟨?_, s.sum16_repairRegion r, s.hasSig_repairRegion r r, fine, State.repairRegion_of_not _ fine⟩
  cases hsig : (s.repairRegion r).hasSig r with
  | false => exact .inl rfl
  | true => exact .inr (State.stored_eq_sum16_of_not_needsRepair _ fine hsig)

/-- Settles O38: no region needs repair after the first pass, so the second does nothing. -/
theorem ckfixallTwiceFindsNothing : Obligations.CkfixallTwiceFindsNothing := by
  intro s
  have idle : s.ckfixedAll.repairAll 0 Config.regionOrder = (s.ckfixedAll, 0) :=
    State.repairAll_of_none_needed _ 0 _ s.needsRepair_ckfixedAll
  have done := s.ckfixedAll.completedWith_ckfixedAll
  rw [idle] at done
  refine ⟨_, _, exec_ckfixall s, fun r => ?right, exec_ckfixall _, done, ?save, ?fixlog⟩
  case right => exact State.stored_eq_sum16_of_not_needsRepair _ (s.needsRepair_ckfixedAll r)
  case save => rw [State.ckfixedAll_save s.ckfixedAll, idle]
  case fixlog => rw [State.ckfixedAll_fixlog s.ckfixedAll, idle]; exact BitVec.or_zero

/-- Settles O39: repairs pass an unsigned region by, and its mask bit says that it was not corrected. -/
theorem unsignedRegionIsUntouched : Obligations.UnsignedRegionIsUntouched := by
  rintro s t i r hi ⟨k, hk, hne⟩ h
  have hsig : s.hasSig r = false := Bool.eq_false_of_not_eq_true fun hsig => hne ((s.hasSig_iff r).1 hsig k hk)
  have hr := s.needsRepair_of_unsigned hsig
  rcases hi with rfl | ⟨sel, rfl⟩
  · obtain rfl := Host.Outcome.next.inj ((exec_ckfixall s).symm.trans h)
    refine ⟨fun a hlo hhi => ?_, fun _ _ => ?_⟩
    · rw [s.readByte_ckfixedAll, s.readByte_repairAll_of_unsigned 0 _ hsig hlo hhi]
    · rw [s.ckfixedAll_result, s.getLsbD_ckfixall_mask, hr]
  · rcases exec_ckfix_cases s h with rfl | ⟨q, rfl⟩
    · exact ⟨fun a _ _ => s.readByte_raise _ _ .save a, fun _ ht => by simp at ht⟩
    · refine ⟨fun a hlo hhi => ?_, fun _ _ => ?_⟩
      · rw [s.readByte_ckfixed, s.readByte_repairRegion_of_unsigned q hsig hlo hhi]
      · rw [s.ckfixed_result, BitVec.getLsbD_setWidth, getLsbD_correctionBit]
        by_cases hrq : r = q
        · simp [← hrq, hr]
        · simp [hrq]

/-- Settles O30: the table, read off region by region. -/
theorem regionsTileTheirPartOfSave : Obligations.RegionsTileTheirPartOfSave :=
  ⟨rfl, by decide, rfl, by decide, fun _ => ⟨rfl, rfl⟩⟩

/-- Settles O33: the one check of CKFIX. -/
theorem ckfixOfNoRegionFaults : Obligations.CkfixOfNoRegionFaults := by
  intro s sel hsel
  show execCkfix sel s = _
  rw [execCkfix, ckfixCheck_of_ge hsel]

end Sys2Proof.Machine

/-! The exceptions (spec/60_exceptions.md): what the entry of a fault writes, the first failing check of a command word and
what the engine makes of it, and which cause each opcode can raise. -/

namespace Sys2Proof.Machine

section

variable {s : State} {c : Command}

/-! ### The first failing check -/

/-- The cause a check failed with, if it failed. -/
def failedCause {α : Type} : Except Cause α → Option Cause
  | .error cause => some cause
  | .ok _ => none

theorem failedCause_eq_some_iff {α : Type} {x : Except Cause α} {cause : Cause} :
    failedCause x = some cause ↔ x = .error cause := by
  cases x <;> simp [failedCause]

/-- The first operand check that a command fails, steps 3 to 5 of 60_exceptions R183. -/
def operandFault (s : State) : Instr → Option Cause
  | .rdbits buf off w => failedCause (bitIOCheck buf off w s)
  | .wrbits buf off w _ => failedCause (bitIOCheck buf off w s)
  | .embed sel => failedCause (embedCheck sel s)
  | .ckfix sel => failedCause (ckfixCheck sel)
  | .ckfixall => none

/-- The first check that a command word fails (60_exceptions R183): decoding, then the operands. -/
def wordFault (s : State) (c : Command) : Option Cause :=
  match decode c with
  | .error _ => some .illegalCmd
  | .ok i => operandFault s i

theorem wordFault_of_error {e : Reject} (h : decode c = .error e) (s : State) : wordFault s c = some .illegalCmd := by
  rw [wordFault, h]

theorem wordFault_of_ok {i : Instr} (h : decode c = .ok i) (s : State) : wordFault s c = operandFault s i := by
  rw [wordFault, h]

theorem runCommand_of_ok {i : Instr} (h : decode c = .ok i) (s : State) : runCommand c s = exec i s := by
  rw [runCommand, h]

/-! ### What the engine makes of it -/

/-- A command that fails a check takes that check's fault. -/
theorem exec_of_operandFault {i : Instr} {cause : Cause} (h : operandFault s i = some cause) :
    exec i s = .next (s.raise cause (encode i)) := by
  cases i with
  | rdbits buf off w => exact (exec_bitIO_of_error (failedCause_eq_some_iff.1 h) 0).1
  | wrbits buf off w val => exact (exec_bitIO_of_error (failedCause_eq_some_iff.1 h) val).2
  | embed sel => exact execEmbed_of_error s (failedCause_eq_some_iff.1 h)
  | ckfix sel =>
    show execCkfix sel s = _
    rw [execCkfix, failedCause_eq_some_iff.1 h]
  | ckfixall => cases h

/-- A command that passes every check completes. -/
theorem completed_of_no_operandFault {i : Instr} {t : State} (h : operandFault s i = none) (ht : exec i s = .next t) :
    ∃ d, s.CompletedWith t d := by
  cases i with
  | rdbits buf off w =>
    rcases execRdbits_cases s ht with ⟨cause, hc, -⟩ | ⟨b, -, rfl⟩
    · cases (failedCause_eq_some_iff.2 hc).symm.trans h
    · exact ⟨_, s.completedWith_complete _⟩
  | wrbits buf off w val =>
    rcases execWrbits_cases s ht with ⟨cause, hc, -⟩ | ⟨b, -, rfl⟩
    · cases (failedCause_eq_some_iff.2 hc).symm.trans h
    · exact ⟨_, s.completedWith_bitWrite_complete b _ _ _ _⟩
  | embed sel =>
    rcases execEmbed_cases s ht with ⟨cause, hc, -⟩ | ⟨slot, -, rfl⟩
    · cases (failedCause_eq_some_iff.2 hc).symm.trans h
    · exact ⟨_, s.completedWith_embedImage_complete slot 0⟩
  | ckfix sel =>
    rcases execCkfix_cases s ht with ⟨hc, -⟩ | ⟨r, -, rfl⟩
    · cases (failedCause_eq_some_iff.2 hc).symm.trans h
    · exact ⟨_, s.completedWith_ckfixed r⟩
  | ckfixall =>
    obtain rfl := Host.Outcome.next.inj ((exec_ckfixall s).symm.trans ht)
    exact ⟨_, s.completedWith_ckfixedAll⟩

/-- A word that fails a check takes that check's fault, the word itself recorded (60_exceptions R183, R184). -/
theorem runCommand_of_wordFault {cause : Cause} (h : wordFault s c = some cause) :
    runCommand c s = .next (s.raise cause c) := by
  cases hdec : decode c with
  | error e =>
    obtain rfl := Option.some.inj ((wordFault_of_error hdec s).symm.trans h)
    exact runCommand_of_error hdec s
  | ok i =>
    rw [wordFault_of_ok hdec] at h
    rw [runCommand_of_ok hdec, exec_of_operandFault h, (encode_of_decode hdec).1]

theorem eq_raise_of_wordFault {t : State} {cause : Cause} (h : wordFault s c = some cause)
    (ht : runCommand c s = .next t) : t = s.raise cause c :=
  Host.Outcome.next.inj (ht.symm.trans (runCommand_of_wordFault h))

/-- A word that passes every check completes. -/
theorem completed_of_no_wordFault {t : State} (h : wordFault s c = none) (ht : runCommand c s = .next t) :
    ∃ d, s.CompletedWith t d := by
  cases hdec : decode c with
  | error e => cases (wordFault_of_error hdec s).symm.trans h
  | ok i =>
    exact completed_of_no_operandFault ((wordFault_of_ok hdec s).symm.trans h) ((runCommand_of_ok hdec s).symm.trans ht)

theorem faulted_of_no_wordFault {t : State} (h : wordFault s c = none) (ht : runCommand c s = .next t) :
    t.faulted = s.faulted := by
  obtain ⟨d, done⟩ := completed_of_no_wordFault h ht
  exact done.faulted

/-! ### The order of the checks -/

/-- A field of `c` that its opcode's command does not use is not 0, or BUF is reserved: step 2 of 60_exceptions R183. -/
abbrev Malformed (c : Command) : Prop :=
  (Command.op c = 0x10#8 ∧ (Command.sel c ≠ 0 ∨ Command.val c ≠ 0 ∨ 1 < (Command.buf c).toNat)) ∨
    (Command.op c = 0x11#8 ∧ (Command.sel c ≠ 0 ∨ 1 < (Command.buf c).toNat)) ∨
    ((Command.op c = 0x20#8 ∨ Command.op c = 0x30#8) ∧
      (Command.buf c ≠ 0 ∨ Command.w c ≠ 0 ∨ Command.off c ≠ 0 ∨ Command.val c ≠ 0)) ∨
    (Command.op c = 0x31#8 ∧
      (Command.buf c ≠ 0 ∨ Command.sel c ≠ 0 ∨ Command.w c ≠ 0 ∨ Command.off c ≠ 0 ∨ Command.val c ≠ 0))

theorem Malformed.decode_error (h : Malformed c) : ∃ e, decode c = .error e := by
  rcases h with ⟨hop, hsel | hval | hbuf⟩ | ⟨hop, hsel | hbuf⟩ | hset | hset
  · exact ⟨_, decode_of_unusedFieldSet (.inl ⟨hop, .inl hsel⟩)⟩
  · exact ⟨_, decode_of_unusedFieldSet (.inl ⟨hop, .inr hval⟩)⟩
  · exact decode_error_of_reservedBuf (.inl hop) hbuf
  · exact ⟨_, decode_of_unusedFieldSet (.inr (.inl ⟨hop, hsel⟩))⟩
  · exact decode_error_of_reservedBuf (.inr hop) hbuf
  · exact ⟨_, decode_of_unusedFieldSet (.inr (.inr (.inl hset)))⟩
  · exact ⟨_, decode_of_unusedFieldSet (.inr (.inr (.inr hset)))⟩

theorem Malformed.wordFault (h : Malformed c) (s : State) : wordFault s c = some .illegalCmd := by
  obtain ⟨e, he⟩ := h.decode_error
  exact wordFault_of_error he s

/-- A BUF that is not reserved selects SAVE or RASTER (30_encoding R91). -/
theorem bufOf_of_le_one {buf : BitVec 8} (h : buf.toNat ≤ 1) :
    bufOf buf = some (if buf = 0 then .save else .raster) := by
  by_cases h0 : buf = 0
  · rw [bufOf, if_pos h0, if_pos h0]
  · have h1 : buf = 1 := by bv_omega
    rw [bufOf, if_neg h0, if_pos h1, if_neg h0]

theorem failedCause_bitIOCheck {buf w : BitVec 8} {off : Word32} {b : Buf} (hbuf : bufOf buf = some b) (s : State) :
    failedCause (bitIOCheck buf off w s) =
      if w.toNat = 0 ∨ 32 < w.toNat then some .badWidth
      else if 8 * s.len b < off.toNat + w.toNat then some .outOfRange else none := by
  split_ifs with hwidth hrange
  · exact failedCause_eq_some_iff.2 (bitIOCheck_of_badWidth hbuf hwidth)
  · exact failedCause_eq_some_iff.2 (bitIOCheck_of_outOfRange hbuf (by omega) (by omega) hrange)
  · rw [(bitIOCheck_ok_iff s).2 ⟨hbuf, by omega, by omega, by omega⟩, failedCause]

theorem failedCause_embedCheck (sel : BitVec 8) (s : State) :
    failedCause (embedCheck sel s) =
      if sel.toNat ≠ 1 ∧ sel.toNat ≠ 2 then some .badSlot
      else if s.rw.toNat ≠ 160 ∨ s.rh.toNat ≠ 112 then some .badDims
      else if s.rlen.toNat < 17920 then some .rasterShort else none := by
  split_ifs with hslot hdims hshort
  · exact failedCause_eq_some_iff.2 (embedCheck_of_badSlot s hslot)
  · exact failedCause_eq_some_iff.2 (embedCheck_of_badDims s hslot hdims)
  · exact failedCause_eq_some_iff.2 (embedCheck_of_short s hslot hdims hshort)
  · rw [(embedCheck_ok_iff s).2 ⟨rfl, by omega, by omega, by omega, by omega⟩, failedCause]

theorem failedCause_ckfixCheck (sel : BitVec 8) :
    failedCause (ckfixCheck sel) = if 7 < sel.toNat then some .badRegion else none := by
  split_ifs with hregion
  · exact failedCause_eq_some_iff.2 (ckfixCheck_of_ge hregion)
  · have hok : ckfixCheck sel = .ok ⟨sel.toNat, by omega⟩ := ckfixCheck_ok_iff.2 rfl
    rw [hok, failedCause]

/-- Past decoding, a bit access has its operands checked in the buffer that BUF selects. -/
theorem wordFault_of_op_bitIO (hop : Command.op c = 0x10#8 ∨ Command.op c = 0x11#8) (h : ¬ Malformed c) (s : State) :
    wordFault s c =
      if (Command.w c).toNat = 0 ∨ 32 < (Command.w c).toNat then some .badWidth
      else if 8 * s.len (if Command.buf c = 0 then .save else .raster) < (Command.off c).toNat + (Command.w c).toNat
      then some .outOfRange else none := by
  rcases hop with hop | hop
  · obtain ⟨hsel, hval, hbuf⟩ : Command.sel c = 0 ∧ Command.val c = 0 ∧ (Command.buf c).toNat ≤ 1 := by
      simpa [Malformed, hop] using h
    have hdec := (decode_of_op_rdbits hop).trans <|
      (if_neg (by simp [hsel, hval])).trans (if_neg (Nat.not_lt.2 hbuf))
    exact (wordFault_of_ok hdec s).trans (failedCause_bitIOCheck (bufOf_of_le_one hbuf) s)
  · obtain ⟨hsel, hbuf⟩ : Command.sel c = 0 ∧ (Command.buf c).toNat ≤ 1 := by simpa [Malformed, hop] using h
    have hdec := (decode_of_op_wrbits hop).trans <| (if_neg (not_not.2 hsel)).trans (if_neg (Nat.not_lt.2 hbuf))
    exact (wordFault_of_ok hdec s).trans (failedCause_bitIOCheck (bufOf_of_le_one hbuf) s)

theorem wordFault_of_op_embed (hop : Command.op c = 0x20#8) (h : ¬ Malformed c) (s : State) :
    wordFault s c = failedCause (embedCheck (Command.sel c) s) := by
  have hunused : ¬ (Command.buf c ≠ 0 ∨ Command.w c ≠ 0 ∨ Command.off c ≠ 0 ∨ Command.val c ≠ 0) :=
    fun hset => h (.inr (.inr (.inl ⟨.inl hop, hset⟩)))
  exact wordFault_of_ok ((decode_of_op_embed hop).trans (if_neg hunused)) s

theorem wordFault_of_op_ckfix (hop : Command.op c = 0x30#8) (h : ¬ Malformed c) (s : State) :
    wordFault s c = failedCause (ckfixCheck (Command.sel c)) := by
  have hunused : ¬ (Command.buf c ≠ 0 ∨ Command.w c ≠ 0 ∨ Command.off c ≠ 0 ∨ Command.val c ≠ 0) :=
    fun hset => h (.inr (.inr (.inl ⟨.inr hop, hset⟩)))
  exact wordFault_of_ok ((decode_of_op_ckfix hop).trans (if_neg hunused)) s

theorem wordFault_of_op_ckfixall (hop : Command.op c = 0x31#8) (h : ¬ Malformed c) (s : State) :
    wordFault s c = none := by
  have hunused :
      ¬ (Command.buf c ≠ 0 ∨ Command.sel c ≠ 0 ∨ Command.w c ≠ 0 ∨ Command.off c ≠ 0 ∨ Command.val c ≠ 0) :=
    fun hset => h (.inr (.inr (.inr ⟨hop, hset⟩)))
  exact wordFault_of_ok ((decode_of_op_ckfixall hop).trans (if_neg hunused)) s

/-! ### Which causes a command can raise -/

theorem bitIOCheck_error {buf w : BitVec 8} {off : Word32} {cause : Cause}
    (h : bitIOCheck buf off w s = .error cause) : cause = .illegalCmd ∨ cause = .badWidth ∨ cause = .outOfRange := by
  unfold bitIOCheck at h
  split at h
  · cases h; exact .inl rfl
  · split_ifs at h <;> cases h
    · exact .inr (.inl rfl)
    · exact .inr (.inr rfl)

theorem embedCheck_error {sel : BitVec 8} {cause : Cause} (h : embedCheck sel s = .error cause) :
    cause = .badSlot ∨ cause = .badDims ∨ cause = .rasterShort := by
  unfold embedCheck at h
  split_ifs at h <;> cases h
  · exact .inl rfl
  · exact .inr (.inl rfl)
  · exact .inr (.inr rfl)

theorem ckfixCheck_error {sel : BitVec 8} {cause : Cause} (h : ckfixCheck sel = .error cause) : cause = .badRegion := by
  unfold ckfixCheck at h
  split_ifs at h
  cases h
  rfl

/-- The operand checks of a command find only the causes of its opcode (60_exceptions R182). -/
theorem code_mem_causesOf_opcode {i : Instr} {cause : Cause} (h : operandFault s i = some cause) :
    cause.code ∈ causesOf (Laws.EncodesOpcode.opcode i) := by
  cases i with
  | rdbits buf off w =>
    rcases bitIOCheck_error (failedCause_eq_some_iff.1 h) with rfl | rfl | rfl <;>
      simp [causesOf, Laws.EncodesOpcode.opcode, Cause.code]
  | wrbits buf off w val =>
    rcases bitIOCheck_error (failedCause_eq_some_iff.1 h) with rfl | rfl | rfl <;>
      simp [causesOf, Laws.EncodesOpcode.opcode, Cause.code]
  | embed sel =>
    rcases embedCheck_error (failedCause_eq_some_iff.1 h) with rfl | rfl | rfl <;>
      simp [causesOf, Laws.EncodesOpcode.opcode, Cause.code]
  | ckfix sel =>
    obtain rfl := ckfixCheck_error (failedCause_eq_some_iff.1 h)
    simp [causesOf, Laws.EncodesOpcode.opcode, Cause.code]
  | ckfixall => cases h

/-- Every opcode, reserved or not, has ILLEGAL_CMD among its causes (60_exceptions R182). -/
theorem one_mem_causesOf (op : BitVec 8) : 1#8 ∈ causesOf op := by
  unfold causesOf
  split_ifs <;> exact List.mem_cons_self

theorem code_mem_causesOf {cause : Cause} (h : wordFault s c = some cause) : cause.code ∈ causesOf (Command.op c) := by
  cases hdec : decode c with
  | error e =>
    obtain rfl := Option.some.inj ((wordFault_of_error hdec s).symm.trans h)
    exact one_mem_causesOf _
  | ok i =>
    rw [op_of_decode hdec]
    exact code_mem_causesOf_opcode ((wordFault_of_ok hdec s).symm.trans h)

/-- Some word with opcode `op`, taken in some RUNNABLE state, ends FAULTED with FCAUSE `code`. -/
def CanRaise (op code : BitVec 8) : Prop :=
  ∃ (c : Command) (s t : State), Command.op c = op ∧ s.faulted = false ∧ runCommand c s = .next t ∧
    t.faulted = true ∧ t.fcause = code

theorem canRaise_of_wordFault {cause : Cause} (hs : s.faulted = false) (h : wordFault s c = some cause) :
    CanRaise (Command.op c) cause.code :=
  ⟨c, s, _, rfl, hs, runCommand_of_wordFault h, s.raise_faulted cause c, rfl⟩

/-- An instruction that fails a check shows that its opcode can raise that check's cause. -/
theorem canRaise_of_operandFault {i : Instr} {cause : Cause} (hi : i.WellFormed) (hs : s.faulted = false)
    (h : operandFault s i = some cause) : CanRaise (Laws.EncodesOpcode.opcode i) cause.code := by
  have hdec := decode_encode hi
  rw [← op_of_decode hdec]
  exact canRaise_of_wordFault hs ((wordFault_of_ok hdec s).trans h)

/-- Every command leaves some field unused (30_encoding R83), so no opcode has a word whose fields are all nonzero. -/
theorem canRaise_illegalCmd (op : BitVec 8) : CanRaise op 1 := by
  have hop : Command.op (Command.ofFields op 1 1 1 1 1) = op := Command.op_ofFields _ _ _ _ _ _
  have hreject : ∃ e, decode (Command.ofFields op 1 1 1 1 1) = .error e := by
    by_cases hmap : op ∈ [0x10#8, 0x11#8, 0x20#8, 0x30#8, 0x31#8]
    · refine ⟨_, decode_of_unusedFieldSet ?_⟩
      simpa [Command.UnusedFieldSet, or_assoc] using hmap
    · exact ⟨_, decode_of_reservedOp (hop.symm ▸ hmap)⟩
  obtain ⟨e, he⟩ := hreject
  have hraise := canRaise_of_wordFault (s := State.reset) rfl (wordFault_of_error he _)
  rwa [hop] at hraise

/-- For each cause of an opcode a word and a state that raise it. -/
theorem canRaise_of_mem_causesOf {op code : BitVec 8} (h : code ∈ causesOf op) : CanRaise op code := by
  unfold causesOf at h
  split_ifs at h with hbit hembed hckfix
  · simp only [List.mem_cons, List.not_mem_nil, or_false] at h
    rcases h with rfl | rfl | rfl
    · exact canRaise_illegalCmd op
    · rcases hbit with rfl | rfl
      · exact canRaise_of_operandFault (i := .rdbits 0 0 0) (s := State.reset) (cause := .badWidth) rfl rfl rfl
      · exact canRaise_of_operandFault (i := .wrbits 0 0 0 0) (s := State.reset) (cause := .badWidth) rfl rfl rfl
    · rcases hbit with rfl | rfl
      · exact canRaise_of_operandFault (i := .rdbits 1 0 1) (s := State.reset) (cause := .outOfRange) rfl rfl rfl
      · exact canRaise_of_operandFault (i := .wrbits 1 0 1 0) (s := State.reset) (cause := .outOfRange) rfl rfl rfl
  · simp only [List.mem_cons, List.not_mem_nil, or_false] at h
    subst hembed
    rcases h with rfl | rfl | rfl | rfl
    · exact canRaise_illegalCmd _
    · exact canRaise_of_operandFault (i := .embed 0) (s := State.reset) (cause := .badSlot) rfl rfl rfl
    · exact canRaise_of_operandFault (i := .embed 1) (s := State.reset) (cause := .badDims) rfl rfl rfl
    · exact canRaise_of_operandFault (i := .embed 1) (s := { State.reset with rw := 160, rh := 112 })
        (cause := .rasterShort) rfl rfl rfl
  · simp only [List.mem_cons, List.not_mem_nil, or_false] at h
    subst hckfix
    rcases h with rfl | rfl
    · exact canRaise_illegalCmd _
    · exact canRaise_of_operandFault (i := .ckfix 8) (s := State.reset) (cause := .badRegion) rfl rfl rfl
  · obtain rfl := List.mem_singleton.1 h
    exact canRaise_illegalCmd op

theorem canRaise_iff {op code : BitVec 8} : CanRaise op code ↔ code ∈ causesOf op := by
  refine ⟨?_, canRaise_of_mem_causesOf⟩
  rintro ⟨c, s, t, rfl, hs, ht, hfault, rfl⟩
  cases hw : wordFault s c with
  | none =>
    rw [faulted_of_no_wordFault hw ht, hs] at hfault
    cases hfault
  | some cause =>
    obtain rfl := eq_raise_of_wordFault hw ht
    exact code_mem_causesOf hw

end

/-! ### The statements -/

/-- Settles O42: the record of the fault entry, field by field. -/
theorem faultEntryWritesItsRegistersAlone : Obligations.FaultEntryWritesItsRegistersAlone := by
  refine ⟨fun s cause c => ?_, rfl, rfl, rfl, rfl, rfl, rfl, rfl⟩
  obtain ⟨launch, queues⟩ := s.raise_keeps cause c
  exact ⟨rfl, rfl, rfl, rfl, rfl, s.raise_faulted cause c, s.raise_busy cause c, rfl, rfl, rfl, rfl, rfl, rfl, launch,
    queues⟩

/-- Settles O43: a word ends FAULTED exactly when it fails a check, and CKFIXALL has no check of its own. -/
theorem commandsRaiseExactlyTheirCauses : Obligations.CommandsRaiseExactlyTheirCauses := by
  refine ⟨fun op code => canRaise_iff, fun s t hs ht => ?_⟩
  obtain ⟨d, done⟩ := completed_of_no_operandFault rfl ht
  exact done.faulted.trans hs

/-- Settles O44: each branch of the order says which check fails first, and the engine reports that one. -/
theorem firstFailingCheckIsReported : Obligations.FirstFailingCheckIsReported := by
  intro c s hs
  obtain ⟨t, ht⟩ := runCommand_total s c
  have reports : ∀ {cause}, wordFault s c = some cause → t = s.raise cause c := fun h => eq_raise_of_wordFault h ht
  have completes : wordFault s c = none → t.faulted = false := fun h => (faulted_of_no_wordFault h ht).trans hs
  refine ⟨t, ht, ?_⟩
  by_cases hmap : Command.op c ∉ [0x10#8, 0x11#8, 0x20#8, 0x30#8, 0x31#8]
  · rw [if_pos hmap]
    exact reports (wordFault_of_error (decode_of_reservedOp hmap) s)
  by_cases hbad : Malformed c
  · rw [if_neg hmap, if_pos hbad]
    exact reports (hbad.wordFault s)
  rw [if_neg hmap, if_neg hbad]
  by_cases hbit : Command.op c = 0x10#8 ∨ Command.op c = 0x11#8
  · have hword := wordFault_of_op_bitIO hbit hbad s
    rw [if_pos hbit]
    generalize (if Command.buf c = 0 then Buf.save else Buf.raster) = b at hword ⊢
    split_ifs at hword ⊢ with hwidth hrange
    · exact reports hword
    · exact reports hword
    · exact completes hword
  rw [if_neg hbit]
  by_cases hembed : Command.op c = 0x20#8
  · have hword := (wordFault_of_op_embed hembed hbad s).trans (failedCause_embedCheck _ s)
    rw [if_pos hembed]
    split_ifs at hword ⊢ with hslot hdims hshort
    · exact reports hword
    · exact reports hword
    · exact reports hword
    · exact completes hword
  rw [if_neg hembed]
  by_cases hckfix : Command.op c = 0x30#8
  · have hword := (wordFault_of_op_ckfix hckfix hbad s).trans (failedCause_ckfixCheck _)
    simp only [hckfix, true_and]
    split_ifs at hword ⊢ with hregion
    · exact reports hword
    · exact completes hword
  · have hckfixall : Command.op c = 0x31#8 := by simpa [not_or.1 hbit, hembed, hckfix] using hmap
    rw [if_neg fun h => hckfix h.1]
    exact completes (wordFault_of_op_ckfixall hckfixall hbad s)

end Sys2Proof.Machine

/-! Reset, launch and the end of a run (spec/70_reset_and_hazards.md): what a reset leaves, with or without a command in
progress, which bytes an abandoned command may write, and the two ways a run of commands ends. -/

namespace Sys2Proof.Machine

section

variable (s : State)

/-! ### What a reset leaves -/

theorem State.hostReadReg_applyReset (n : Nat) : s.applyReset.hostReadReg n = 0 := by
  unfold State.hostReadReg
  split <;> rfl

/-- A reset during a command zeroes the registers like any other; the counter it moves on is no register. -/
theorem State.hostReadReg_resetDuring (c : Command) (n : Nat) : (s.resetDuring c).hostReadReg n = 0 :=
  State.hostReadReg_applyReset ((s.abandoned c).foldl State.loseBlock s) n

@[simp] theorem State.resetDuring_faulted (c : Command) : (s.resetDuring c).faulted = false :=
  State.applyReset_faulted ((s.abandoned c).foldl State.loseBlock s)

@[simp] theorem State.resetDuring_responses (c : Command) : (s.resetDuring c).responses = s.responses :=
  s.loseBlocks_keeps (P := fun t => t.responses = s.responses) (s.abandoned c)
    (fun blk _ t ht => (t.loseBlock_responses blk).trans ht) rfl

@[simp] theorem State.resetDuring_host (c : Command) : (s.resetDuring c).host = s.host :=
  s.loseBlocks_keeps (P := fun t => t.host = s.host) (s.abandoned c)
    (fun blk _ t ht => (t.loseBlock_host blk).trans ht) rfl

/-- A reset during a command changes no byte outside the blocks that command may write (70_reset R211). -/
theorem State.readByte_resetDuring_of_outside (c : Command) {b : Buf} {a : Nat}
    (h : ∀ blk ∈ s.abandoned c, ¬ (b = blk.1 ∧ blk.2.1 ≤ a ∧ a < blk.2.1 + blk.2.2)) :
    (s.resetDuring c).readByte b a = s.readByte b a := by
  have hlost : ((s.abandoned c).foldl State.loseBlock s).readByte b a = s.readByte b a :=
    s.loseBlocks_keeps (P := fun t => t.readByte b a = s.readByte b a) (s.abandoned c)
      (fun blk hblk t ht => (t.readByte_loseBlock_of_outside blk b a (h blk hblk)).trans ht) rfl
  exact (State.readByte_applyReset _ b a).trans hlost

/-! ### Which bytes an abandoned command may write -/

variable {s} {c : Command}

/-- A FAULTED engine takes no command (60_exceptions R186). -/
theorem State.abandoned_of_faulted (h : s.faulted = true) (c : Command) : s.abandoned c = [] := if_pos h

theorem State.abandoned_of_error {e : Reject} (h : decode c = .error e) (s : State) : s.abandoned c = [] := by
  rw [State.abandoned, h, ite_self]

theorem State.abandoned_of_ok {i : Instr} (hs : s.faulted = false) (h : decode c = .ok i) :
    s.abandoned c = mayWrite i s := by
  rw [State.abandoned, hs, if_neg Bool.false_ne_true, h]

theorem State.abandoned_of_rdbits {buf w : BitVec 8} {off : Word32} (h : decode c = .ok (.rdbits buf off w))
    (s : State) : s.abandoned c = [] := by
  have hnone : mayWrite (.rdbits buf off w) s = [] := rfl
  simp only [State.abandoned, h, hnone, ite_self]

/-- A command that fails an operand check writes nothing (60_exceptions R185). -/
theorem mayWrite_of_operandFault {i : Instr} {cause : Cause} (h : operandFault s i = some cause) :
    mayWrite i s = [] := by
  cases i with
  | rdbits buf off w => rfl
  | wrbits buf off w val => rw [mayWrite, failedCause_eq_some_iff.1 h]
  | embed sel => rw [mayWrite, failedCause_eq_some_iff.1 h]
  | ckfix sel => rw [mayWrite, failedCause_eq_some_iff.1 h]
  | ckfixall => cases h

/-- WRBITS may write the bytes its field touches, the last of them the byte of the field's last bit (40_bitio R121). -/
theorem mayWrite_wrbits {buf w : BitVec 8} {off : Word32} {b : Buf} (hbuf : bufOf buf = some b) (val : Word32) :
    if 1 ≤ w.toNat ∧ w.toNat ≤ 32 ∧ off.toNat + w.toNat ≤ 8 * s.len b then
      ∃ n, mayWrite (.wrbits buf off w val) s = [(b, off.toNat / 8, n)] ∧
        off.toNat / 8 + n = (off.toNat + w.toNat - 1) / 8 + 1
    else mayWrite (.wrbits buf off w val) s = [] := by
  split_ifs with hfit
  · refine ⟨_, by rw [mayWrite, (bitIOCheck_ok_iff s).2 ⟨hbuf, hfit⟩], ?_⟩
    omega
  · cases hcheck : bitIOCheck buf off w s with
    | error cause => exact mayWrite_of_operandFault (failedCause_eq_some_iff.2 hcheck)
    | ok b' =>
      obtain ⟨hbuf', hfit'⟩ := (bitIOCheck_ok_iff s).1 hcheck
      obtain rfl := Option.some.inj (hbuf.symm.trans hbuf')
      exact absurd hfit' hfit

/-- EMBED may write its slot's image (41_embed R136). -/
theorem mayWrite_embed {sel : BitVec 8} (hsel : sel.toNat = 1 ∨ sel.toNat = 2) (h : s.RasterOK) :
    mayWrite (.embed sel) s = [(.save, sel.toNat * 0x8000 + 0x10E0, 11200)] := by
  rw [mayWrite, (embedCheck_ok_iff s).2 ⟨rfl, hsel, h⟩]
  rfl

theorem mayWrite_embed_of_not {sel : BitVec 8} (h : ¬ ((sel.toNat = 1 ∨ sel.toNat = 2) ∧ s.RasterOK)) :
    mayWrite (.embed sel) s = [] := by
  cases hcheck : embedCheck sel s with
  | error cause => exact mayWrite_of_operandFault (failedCause_eq_some_iff.2 hcheck)
  | ok slot =>
    obtain ⟨rfl, hok⟩ := (embedCheck_ok_iff s).1 hcheck
    exact absurd hok h

/-- CKFIX may write its region's checksum field (42_checksum R159). -/
theorem mayWrite_ckfix {sel : BitVec 8} {r : Fin 8} (h : sel.toNat = r.val) :
    mayWrite (.ckfix sel) s = [(.save, (Config.region r).start + 0x100A, 2)] := by
  rw [mayWrite, ckfixCheck_ok_iff.2 h]
  rfl

theorem mayWrite_ckfix_of_ge {sel : BitVec 8} (h : 8 ≤ sel.toNat) : mayWrite (.ckfix sel) s = [] :=
  mayWrite_of_operandFault (failedCause_eq_some_iff.2 (ckfixCheck_of_ge h))

/-! ### A run command by command -/

theorem State.launch_of_port {cs : List Command} (h : s.port = cs) : s.launch cs = s := by
  subst h
  rfl

/-- The first step of a run is its first command, taken with the rest of the run at the port (20_memory R65). -/
theorem step_launch_cons (hs : s.NoFault) (c : Command) (cs : List Command) :
    step (s.launch (c :: cs)) = runCommand c (s.launch cs) :=
  step_eq_runCommand (s.launch (c :: cs)) rfl hs

section

variable {cs : List Command} {d : Word32} {t u : State}

/-- After a first command that completed, what is left of the run is a run of its own. -/
theorem runSteps_launch_cons (hs : s.NoFault) (hu : runCommand c (s.launch cs) = .next u)
    (done : (s.launch cs).CompletedWith u d) (k : Nat) :
    runSteps (k + 1) (s.launch (c :: cs)) = runSteps k (u.launch cs) := by
  obtain ⟨-, -, -, -, -, hport, -⟩ := done
  have hrest : u.launch cs = u := State.launch_of_port hport
  rw [hrest]
  exact runSteps_of_next _ k ((step_launch_cons hs c cs).trans hu)

theorem cmdcnt_add_one_add (x : Word32) (n : Nat) :
    x + 1 + BitVec.ofNat 32 n = x + BitVec.ofNat 32 (n + 1) := by
  rw [Nat.add_comm, BitVec.ofNat_add, BitVec.add_assoc]
  rfl

theorem okResponses_cons (rs : List Response) (d : Word32) (ds : List Word32) :
    rs ++ [⟨.ok, d⟩] ++ okResponses ds = rs ++ okResponses (d :: ds) :=
  List.append_assoc _ _ _

/-- A first command that completed, before a run that ends normally. -/
theorem State.EndedNormally.cons (hs : s.NoFault) (hu : runCommand c (s.launch cs) = .next u)
    (done : (s.launch cs).CompletedWith u d) (h : u.EndedNormally cs t) : s.EndedNormally (c :: cs) t := by
  have hrun := runSteps_launch_cons hs hu done cs.length
  obtain ⟨-, hucnt, huresp, -⟩ := done
  obtain ⟨hrest, hfault, hport, hcnt, ds, hlen, hresp⟩ := h
  refine ⟨hrun.trans hrest, hfault, hport, ?_, d :: ds, congrArg (· + 1) hlen, ?_⟩
  · exact hcnt.trans (hucnt ▸ cmdcnt_add_one_add s.cmdcnt cs.length)
  · exact hresp.trans (huresp ▸ okResponses_cons s.responses d ds)

/-- A first command that completed, before a run that ends by fault. -/
theorem State.EndedByFault.cons (hs : s.NoFault) (hu : runCommand c (s.launch cs) = .next u)
    (done : (s.launch cs).CompletedWith u d) (h : u.EndedByFault cs t) : s.EndedByFault (c :: cs) t := by
  obtain ⟨k, hk, hrest, hfault, hport, hcnt, hidx, ds, hlen, hresp⟩ := h
  have hrun := runSteps_launch_cons hs hu done (k + 1)
  obtain ⟨-, hucnt, huresp, -⟩ := done
  have hcount : u.cmdcnt + BitVec.ofNat 32 k = s.cmdcnt + BitVec.ofNat 32 (k + 1) :=
    hucnt ▸ cmdcnt_add_one_add s.cmdcnt k
  refine ⟨k + 1, Nat.succ_lt_succ hk, hrun.trans hrest, hfault, hport, hcnt.trans hcount, hidx.trans hcount, d :: ds,
    congrArg (· + 1) hlen, ?_⟩
  rw [hresp, huresp, okResponses_cons]
  rfl

/-- A run whose first command faults has ended (60_exceptions R184, R186). -/
theorem State.endedByFault_of_raise (hs : s.NoFault) {cause : Cause} {w : Command}
    (hu : runCommand c (s.launch cs) = .next ((s.launch cs).raise cause w)) :
    s.EndedByFault (c :: cs) ((s.launch cs).raise cause w) := by
  have hrun := runSteps_of_next _ 0 ((step_launch_cons hs c cs).trans hu)
  exact ⟨0, Nat.succ_pos _, hrun, State.raise_faulted _ cause w, rfl, (BitVec.add_zero _).symm, (BitVec.add_zero _).symm,
    [], rfl, by rw [State.raise_responses, okResponses, List.map_nil, List.append_nil]; rfl⟩

/-- EVERY RUN ENDS (70_reset R215), by induction on its commands. -/
theorem State.endedNormally_or_endedByFault (hs : s.NoFault) (cs : List Command) :
    (∃ t, s.EndedNormally cs t ∧ t.host = s.host) ∨ (∃ t, s.EndedByFault cs t ∧ t.host = s.host) := by
  induction cs generalizing s with
  | nil => exact .inl ⟨s.launch [], ⟨rfl, hs, rfl, (BitVec.add_zero _).symm, [], rfl, (List.append_nil _).symm⟩, rfl⟩
  | cons c cs ih =>
    obtain ⟨u, hu⟩ := runCommand_total (s.launch cs) c
    rcases runCommand_outcome (s.launch cs) hu with done | ⟨cause, w, rfl⟩
    · obtain ⟨-, -, hhost, -⟩ := runCommand_keeps (s.launch cs) hu
      rcases ih (done.faulted.trans hs) with ⟨t, hend, ht⟩ | ⟨t, hend, ht⟩
      · exact .inl ⟨t, hend.cons hs hu done, ht.trans hhost⟩
      · exact .inr ⟨t, hend.cons hs hu done, ht.trans hhost⟩
    · exact .inr ⟨_, State.endedByFault_of_raise hs hu, rfl⟩

/-! ### No run ends in both ways -/

/-- The host answers nothing, and takes back no response (10_state R34). -/
theorem hostMove_responses {m : HostMove} (h : hostMove m s = .next t) : t.responses = s.responses := by
  rcases hostMove_cases s h with ⟨b, a, bytes, -, -, rfl⟩ | ⟨n, v, -, rfl⟩ | ⟨cs, -, rfl⟩ | ⟨-, rfl⟩ | ⟨c, -, rfl⟩
  · exact s.writeBytes_responses b a bytes
  · exact s.hostWriteReg_responses n v
  · rfl
  · exact s.applyReset_responses
  · exact s.resetDuring_responses c

/-- A step only adds to the response stream. -/
theorem step_responses_prefix (h : step s = .next t) : s.responses <+: t.responses := by
  rcases step_cases s h with ⟨c, cs, -, -, hrun⟩ | ⟨m, ms, -, -, hmove⟩
  · rcases runCommand_outcome _ hrun with ⟨-, -, hresp, -⟩ | ⟨cause, w, rfl⟩
    · exact hresp ▸ List.prefix_append _ _
    · exact List.prefix_append _ _
  · have hresp := hostMove_responses hmove
    exact hresp ▸ List.prefix_rfl

theorem runSteps_responses_prefix (k : Nat) (h : runSteps k s = .next t) : s.responses <+: t.responses := by
  induction k generalizing s with
  | zero =>
    obtain rfl := Host.Outcome.next.inj h
    exact List.prefix_rfl
  | succ k ih =>
    obtain ⟨u, hstep, hrest⟩ := runSteps_succ_cases s k h
    exact (step_responses_prefix hstep).trans (ih hrest)

/-- A run that has gone some steps goes on from there. -/
theorem runSteps_add (j k : Nat) (h : runSteps j s = .next u) : runSteps (j + k) s = runSteps k u := by
  induction j generalizing s with
  | zero =>
    obtain rfl := Host.Outcome.next.inj h
    rw [Nat.zero_add]
  | succ j ih =>
    obtain ⟨v, hstep, hrest⟩ := runSteps_succ_cases s j h
    rw [Nat.succ_add, runSteps_of_next s (j + k) hstep, ih hrest]

theorem fault_not_mem_okResponses (x : Word32) (ds : List Word32) : (⟨.fault, x⟩ : Response) ∉ okResponses ds := by
  simp [okResponses]

/-- The FAULT response of a run that ended by fault still stands after as many steps as the run has commands, whatever the
host does in them, and a normal end has none. -/
theorem State.EndedNormally.not_endedByFault (hn : s.EndedNormally cs t) : ¬ s.EndedByFault cs u := by
  rintro ⟨k, hk, hfrun, -, -, -, -, ds, -, hfresp⟩
  obtain ⟨hrun, -, -, -, ds', -, hresp⟩ := hn
  have hsplit : cs.length = k + 1 + (cs.length - (k + 1)) := by omega
  rw [hsplit, runSteps_add _ _ hfrun] at hrun
  have hprefix := runSteps_responses_prefix _ hrun
  rw [hfresp, hresp, List.append_assoc, List.prefix_append_right_inj] at hprefix
  exact fault_not_mem_okResponses _ _ (hprefix.subset (List.mem_append_right _ List.mem_cons_self))

end

end

/-! ### The statements -/

/-- Settles O52: the two ends by induction on the run, told apart by the response stream. -/
theorem runEndsNormallyOrByFault : Obligations.RunEndsNormallyOrByFault := fun _ cs hs =>
  ⟨State.endedNormally_or_endedByFault hs cs, fun _ _ => State.EndedNormally.not_endedByFault⟩

/-- Settles O51: the frame of the reset, then the blocks command by command. -/
theorem interruptedCommandLosesOnlyItsBytes : Obligations.InterruptedCommandLosesOnlyItsBytes := by
  refine ⟨fun s c ms hturn hh => ?frame, fun s c h => ?none, fun s c hs => ?blocks⟩
  case frame =>
    exact ⟨_, step_eq_hostMove s hturn hh, State.hostReadReg_resetDuring _ c, State.resetDuring_faulted _ c, rfl,
      State.resetDuring_host _ c, State.resetDuring_responses _ c, State.resetDuring_sig _ c,
      fun _ _ => State.readByte_resetDuring_of_outside { s with host := ms } c⟩
  case none =>
    rcases h with hf | ⟨e, he⟩ | ⟨buf, off, w, hdec⟩
    · exact State.abandoned_of_faulted hf c
    · exact State.abandoned_of_error he s
    · exact State.abandoned_of_rdbits hdec s
  case blocks =>
    have blocks : ∀ {i}, decode c = .ok i → s.abandoned c = mayWrite i s := State.abandoned_of_ok hs
    refine ⟨fun buf off w val b hdec hbuf => ?_, fun sel hdec => ?_, fun sel hdec => ?_, fun hdec => ?_⟩ <;>
      rw [blocks hdec]
    · exact mayWrite_wrbits (bufOf_eq_some hbuf) val
    · exact ⟨fun ⟨hsel, hraster⟩ => mayWrite_embed hsel hraster, mayWrite_embed_of_not⟩
    · exact ⟨fun r hr => mayWrite_ckfix hr.symm, mayWrite_ckfix_of_ge⟩
    · rfl

/-- Settles O50: the host's move is State.applyReset. -/
theorem resetClearsRegistersKeepsBuffers : Obligations.ResetClearsRegistersKeepsBuffers := fun s _ hturn hh =>
  ⟨_, step_eq_hostMove s hturn hh, State.hostReadReg_applyReset _,
    State.applyReset_faulted _, rfl, rfl, rfl, rfl, rfl, rfl⟩

/-- Settles O53: the host's move appends the run to the port, which is empty at a launch. -/
theorem submittedRunIsLaunched : Obligations.SubmittedRunIsLaunched := by
  refine ⟨fun s cs ms hport hh => ?_, fun s cs ms hf hh => step_eq_hostMove s (.inr hf) hh⟩
  rw [step_eq_hostMove s (.inl hport) hh, hostMove, State.launch, hport, List.nil_append]

end Sys2Proof.Machine

/-! The implementation-defined choices (spec/93_implementation_defined.md): the engine in FAULTED mode with commands
presented. -/

namespace Sys2Proof.Machine

/-- Settles O13: FAULTED bars the engine from the port, and the host has no move to make. -/
theorem faultedEngineTakesNoCommand : Obligations.FaultedEngineTakesNoCommand := by
  intro s hf hport hh
  rw [step_of_no_move s (.inr hf) hh, if_neg hport]

end Sys2Proof.Machine
